-- ==== Sys2Proof/Word.lean ====
section
/-! DEFINITION. Word.lean: the word types of the block (spec/00_scope.md rule R7, spec/10_state.md rules R22, R40). -/

namespace Sys2Proof

/-- A buffer entry of SYM, BIN and SRC (spec/20_memory.md rule R60). -/
abbrev Byte := BitVec 8

/-- A 32-bit register, a PMAP entry, a diagnostic word, an operand B. -/
abbrev Word := BitVec 32

/-- The CRC shift register (spec/40_crc.md rule R130). -/
abbrev CrcWord := BitVec 16

/-- A command word (spec/30_encoding.md rule R110). -/
abbrev CommandWord := BitVec 64

end Sys2Proof
end

