-- ==== Sys2Proof/Syntax.lean ====
section
/-! DEFINITION. Syntax.lean: the operations (one constructor for each row of spec/opcode_table.json) and the register
names. An operand has as many bits as its row's mask leaves free. -/

namespace Sys2Proof

/-- The operations of spec/30_encoding.md rule R113, in the table's order. `a` is operand A, `n`, `v` operand B. -/
inductive Instr where
  | nop
  | rdreg (r : BitVec 8)
  | wrreg (r : BitVec 8) (v : Word)
  | diagrd
  | diagclr
  | crcinit
  | crcstart
  | crcbit (b : Bool)
  | crcbyte (v : Byte)
  | crcbuf (a : BitVec 24) (n : Word)
  | crcgen (a : BitVec 24) (n : Word)
  | crcchk (a : BitVec 24) (n : Word)
  | crcput (a : BitVec 24)
  | quant
  | dinit (b : Bool)
  | dsym (v : Byte)
  | gapfind
  | decblk (t : Byte) (n : Word)
  | decseq
  | frblk (a : BitVec 24) (n : Word)
  | frside
  | rp1
  | rp2
  | rp3
  | rp4
  | rp5
  | recon
deriving DecidableEq, Repr

/-- The registers of spec/10_state.md rules R22 (working) and R40 (configuration). -/
inductive Reg where
  | crc | status | result | info | symLen | inCur | outCur | outBit | outLen | srcLen | dstCap | nblocks | sigPos
  | gapEnd | diagCode | diagW0 | diagW1 | diagW2 | diagW3 | diagCount
  | crcInit | crcPoly | crcCoversMarker | minGap | gapLen | glitchWindow | shortGap | longGap | sigLimit
  | gapBoundLo | gapBoundHi | qT0 | qT1 | qT2 | qT3
deriving DecidableEq, Repr

/-- A pulse symbol (spec/30_encoding.md rules R91, R92): the quantised length of one flux interval. -/
inductive Sym where
  /-- 0: one bit-cell. -/
  | s0
  /-- 1: one and a half cells. -/
  | s1
  /-- 2: two cells. -/
  | s2
  /-- 3: a glitch, or a marker of the reconstructor (spec/43_recon_marking.md rule R230). -/
  | s3
deriving DecidableEq, Repr

end Sys2Proof
end

