-- ==== Sys2Proof/Decode.lean ====
section
/-! DEFINITION. Decode.lean: the command word (spec/30_encoding.md rules R110 to R116): a total decoder that rejects by
name, the encoder, the host's view of the opcode table, and the pseudo-operations. -/

namespace Sys2Proof

/-- Why a word is no command (spec/30_encoding.md rule R114; each is answered with IllegalOp). -/
inductive DecodeError where
  /-- OP is not in the opcode map of rule R113. -/
  | reservedOpcode (op : BitVec 8)
  /-- Operand A must be 0 in format N (rule R111). -/
  | operandANotZero
  /-- Operand B must be 0 in formats N and A (rule R111). -/
  | operandBNotZero
  /-- Upper bits of A must be 0 where only a bit or a byte of it is used (rule R112). -/
  | operandATooWide
deriving DecidableEq, Repr

/-- The field OP, bits 7:0 (rule R111). -/
def fieldOp (w : CommandWord) : BitVec 8 := w.extractLsb' 0 8

/-- The field A, bits 31:8 (rule R111). -/
def fieldA (w : CommandWord) : BitVec 24 := w.extractLsb' 8 24

/-- The field B, bits 63:32 (rule R111). -/
def fieldB (w : CommandWord) : Word := w.extractLsb' 32 32

/-- Format N: A and B must be 0. -/
def formatN (a : BitVec 24) (b : Word) (i : Instr) : Except DecodeError Instr :=
  if a ≠ 0 then .error .operandANotZero
  else if b ≠ 0 then .error .operandBNotZero
  else .ok i

/-- Format A with all 24 bits of A in use. -/
def formatA (a : BitVec 24) (b : Word) (mk : BitVec 24 → Instr) : Except DecodeError Instr :=
  if b ≠ 0 then .error .operandBNotZero else .ok (mk a)

/-- Format A with one byte of A in use: 0 to 0xFF (rule R112). -/
def formatAByte (a : BitVec 24) (b : Word) (mk : BitVec 8 → Instr) : Except DecodeError Instr :=
  if b ≠ 0 then .error .operandBNotZero
  else if 256 ≤ a.toNat then .error .operandATooWide
  else .ok (mk (a.setWidth 8))

/-- Format A with one bit of A in use: 0 or 1 (rule R112). -/
def formatABit (a : BitVec 24) (b : Word) (mk : Bool → Instr) : Except DecodeError Instr :=
  if b ≠ 0 then .error .operandBNotZero
  else if 2 ≤ a.toNat then .error .operandATooWide
  else .ok (mk (a.getLsbD 0))

/-- Format AB with one byte of A in use (a register number or a type byte). -/
def formatAByteB (a : BitVec 24) (b : Word) (mk : BitVec 8 → Word → Instr) : Except DecodeError Instr :=
  if 256 ≤ a.toNat then .error .operandATooWide else .ok (mk (a.setWidth 8) b)

/-- The decoder: OP alone selects the format (rules R111, R113, R115). What a bit mask of the opcode table can say is
checked here; the limits of `Instr.wellFormed` are checked by the operations, as their rules write them (log 9). -/
def decode (w : CommandWord) : Except DecodeError Instr :=
  let a := fieldA w
  let b := fieldB w
  match (fieldOp w).toNat with
  | 0x00 => formatN a b .nop
  | 0x01 => formatAByte a b .rdreg
  | 0x02 => formatAByteB a b .wrreg
  | 0x03 => formatN a b .diagrd
  | 0x04 => formatN a b .diagclr
  | 0x10 => formatN a b .crcinit
  | 0x11 => formatN a b .crcstart
  | 0x12 => formatABit a b .crcbit
  | 0x13 => formatAByte a b .crcbyte
  | 0x14 => .ok (.crcbuf a b)
  | 0x15 => .ok (.crcgen a b)
  | 0x16 => .ok (.crcchk a b)
  | 0x17 => formatA a b .crcput
  | 0x20 => formatN a b .quant
  | 0x21 => formatABit a b .dinit
  | 0x22 => formatAByte a b .dsym
  | 0x23 => formatN a b .gapfind
  | 0x24 => formatAByteB a b .decblk
  | 0x25 => formatN a b .decseq
  | 0x30 => .ok (.frblk a b)
  | 0x31 => formatN a b .frside
  | 0x40 => formatN a b .rp1
  | 0x41 => formatN a b .rp2
  | 0x42 => formatN a b .rp3
  | 0x43 => formatN a b .rp4
  | 0x44 => formatN a b .rp5
  | 0x4F => formatN a b .recon
  | _ => .error (.reservedOpcode (fieldOp w))

/-- The word with fields OP, A, B: `OP | (A << 8) | (B << 32)` (rules R111, R116). -/
def commandWord (op : BitVec 8) (a : BitVec 24) (b : Word) : CommandWord := b ++ a ++ op

/-- The encoder: the command word of an operation (rules R111, R113). -/
def encode : Instr → CommandWord
  | .nop => commandWord 0x00 0 0
  | .rdreg r => commandWord 0x01 (r.setWidth 24) 0
  | .wrreg r v => commandWord 0x02 (r.setWidth 24) v
  | .diagrd => commandWord 0x03 0 0
  | .diagclr => commandWord 0x04 0 0
  | .crcinit => commandWord 0x10 0 0
  | .crcstart => commandWord 0x11 0 0
  | .crcbit b => commandWord 0x12 ((BitVec.ofBool b).setWidth 24) 0
  | .crcbyte v => commandWord 0x13 (v.setWidth 24) 0
  | .crcbuf a n => commandWord 0x14 a n
  | .crcgen a n => commandWord 0x15 a n
  | .crcchk a n => commandWord 0x16 a n
  | .crcput a => commandWord 0x17 a 0
  | .quant => commandWord 0x20 0 0
  | .dinit b => commandWord 0x21 ((BitVec.ofBool b).setWidth 24) 0
  | .dsym v => commandWord 0x22 (v.setWidth 24) 0
  | .gapfind => commandWord 0x23 0 0
  | .decblk t n => commandWord 0x24 (t.setWidth 24) n
  | .decseq => commandWord 0x25 0 0
  | .frblk a n => commandWord 0x30 a n
  | .frside => commandWord 0x31 0 0
  | .rp1 => commandWord 0x40 0 0
  | .rp2 => commandWord 0x41 0 0
  | .rp3 => commandWord 0x42 0 0
  | .rp4 => commandWord 0x43 0 0
  | .rp5 => commandWord 0x44 0 0
  | .recon => commandWord 0x4F 0 0

/-- The command word the host's table numbering gives for the low `nbits` bits of `w`, the bits above them 0. A command
is one 64-bit value with bit 0 its least significant bit (rules R7, R110), so no byte order enters. -/
def tableWord (nbits w : Nat) : CommandWord := BitVec.ofNat 64 (w % 2 ^ nbits)

/-- The instruction the decoder reads from a word of spec/opcode_table.json. -/
def decodeTableWord (nbits w : Nat) : Option Instr :=
  match decode (tableWord nbits w) with
  | .ok i => some i
  | .error _ => none

/-- The pseudo-operation `SET reg, v` (rule R116). -/
def pseudoSet (r : BitVec 8) (v : Word) : List Instr := [.wrreg r v]

/-- The pseudo-operation `CRCBLK a, n` (rule R116): `CRCGEN a, n` then `CRCPUT a+n`. It has no expansion where a + n
does not fit operand A (log 17). -/
def pseudoCrcblk (a : BitVec 24) (n : Word) : Option (List Instr) :=
  if a.toNat + n.toNat < 2 ^ 24 then
    some [.crcgen a n, .crcput (BitVec.ofNat 24 (a.toNat + n.toNat))]
  else none

/-- The mnemonic of an operation (rule R113). -/
def mnemonic : Instr → String
  | .nop => "NOP"
  | .rdreg _ => "RDREG"
  | .wrreg _ _ => "WRREG"
  | .diagrd => "DIAGRD"
  | .diagclr => "DIAGCLR"
  | .crcinit => "CRCINIT"
  | .crcstart => "CRCSTART"
  | .crcbit _ => "CRCBIT"
  | .crcbyte _ => "CRCBYTE"
  | .crcbuf _ _ => "CRCBUF"
  | .crcgen _ _ => "CRCGEN"
  | .crcchk _ _ => "CRCCHK"
  | .crcput _ => "CRCPUT"
  | .quant => "QUANT"
  | .dinit _ => "DINIT"
  | .dsym _ => "DSYM"
  | .gapfind => "GAPFIND"
  | .decblk _ _ => "DECBLK"
  | .decseq => "DECSEQ"
  | .frblk _ _ => "FRBLK"
  | .frside => "FRSIDE"
  | .rp1 => "RP1"
  | .rp2 => "RP2"
  | .rp3 => "RP3"
  | .rp4 => "RP4"
  | .rp5 => "RP5"
  | .recon => "RECON"

/-- The operands of an operation in the order A, B (rule R116). -/
def operands : Instr → List Nat
  | .rdreg r => [r.toNat]
  | .wrreg r v => [r.toNat, v.toNat]
  | .crcbit b | .dinit b => [b.toNat]
  | .crcbyte v | .dsym v => [v.toNat]
  | .crcbuf a n | .crcgen a n | .crcchk a n | .frblk a n => [a.toNat, n.toNat]
  | .crcput a => [a.toNat]
  | .decblk t n => [t.toNat, n.toNat]
  | .nop | .diagrd | .diagclr | .crcinit | .crcstart | .quant | .gapfind | .decseq | .frside | .rp1 | .rp2 | .rp3
  | .rp4 | .rp5 | .recon => []

/-- An operation as the spec writes it: the mnemonic, then its operands in decimal separated by a comma (rule R116). -/
def assembly (i : Instr) : String :=
  match operands i with
  | [] => mnemonic i
  | ops => mnemonic i ++ " " ++ ", ".intercalate (ops.map toString)

end Sys2Proof
end

