-- ==== Sys2Proof/Config.lean ====
section
/-! DEFINITION. Config.lean: what an implementation fixes (the buffer sizes the spec leaves OPEN) and the one free
value of the model. -/

namespace Sys2Proof

/-- The size parameters of spec/00_scope.md rule R6: "a size parameter the model takes as an argument". They stand in
State and no step changes them, so a statement over every state holds for every size (log 2). -/
structure Config where
  /-- SYM_CAP, entries of SYM (OPEN, spec/92_eei_decisions.md D22). -/
  symCap : Nat
  /-- BIN_CAP, bytes of BIN; PMAP has one entry more (OPEN, D22; spec/20_memory.md rule R60). -/
  binCap : Nat
  /-- SRC_CAP, bytes of SRC. -/
  srcCap : Nat
  /-- DIAG_CAP, records of the diagnostic queue (OPEN, D24). -/
  diagCap : Nat
deriving DecidableEq, Repr

/-- The sizes State.reset takes. SRC_CAP is rule R6's; the three OPEN ones are a DESIGN CHOICE (log 2), unsafe: the
sizes spec/96_reference_model.md uses, which meet the bounds of D22. -/
def Config.standard : Config := ⟨1048576, 131072, 65500, 64⟩

/-- The value the CRC register is left with by the n-th operation that uses it as scratch: "any value"
(spec/93_implementation_defined.md U6). It has no body, so nothing can be proved of it (log 3). -/
opaque Config.freeCrc : Nat → CrcWord

end Sys2Proof
end

