-- ==== Sys2Proof/Machine/State.lean ====
section
/-! DEFINITION. Machine/State.lean: the state of the block as plain data (spec/10_state.md, spec/20_memory.md rule R60),
the reasons a step can stop, and the state after reset. -/

namespace Sys2Proof.Machine

/-- A buffer's contents: (index, entry) pairs in one canonical form, see `Memory.wf`. `Memory 8` is
`List Host.Cell`. -/
abbrev Memory (w : Nat) := List (Nat × BitVec w)

/-- What an entry that is not listed reads as. The spec gives buffers no contents after reset
(spec/93_implementation_defined.md U1: any value). DESIGN CHOICE, unsafe (log 1): zero. -/
def unwritten {w : Nat} : BitVec w := 0#w

/-- The canonical form: indices strictly rising, and no entry equal to what an unlisted index reads as. -/
abbrev Memory.wf {w : Nat} (m : Memory w) : Prop :=
  m.Pairwise (fun c d => c.1 < d.1) ∧ ∀ c ∈ m, c.2 ≠ unwritten

/-- Every listed index is below the capacity (spec/20_memory.md rules R60, R70). -/
abbrev Memory.below {w : Nat} (m : Memory w) (cap : Nat) : Prop := ∀ c ∈ m, c.1 < cap

/-- The buffers of spec/20_memory.md rule R60, each its own address space from index 0. -/
structure Buffers where
  /-- SYM: the capture, raw timing bytes before QUANT and pulse symbols after it. -/
  sym : Memory 8
  /-- BIN: byte-aligned output or input. -/
  bin : Memory 8
  /-- SRC: one parsed disk side. -/
  src : Memory 8
  /-- PMAP: the position map, an input symbol index for an output byte offset. -/
  pmap : Memory 32
deriving DecidableEq, Repr

/-- The names of the buffers, for the host's accesses (spec/70_reset_and_hazards.md rule R351). -/
inductive BufferName where
  | sym | bin | src | pmap
deriving DecidableEq, Repr

/-- A diagnostic record (spec/30_encoding.md rule R101). -/
structure DiagRecord where
  code : BitVec 8
  w0 : Word
  w1 : Word
  w2 : Word
  w3 : Word
deriving DecidableEq, Repr

/-- The configuration registers of spec/10_state.md rule R40. CRC_POLY is a constant (rule R23) and has no field:
`readReg` reads it. -/
structure ConfRegs where
  crcInit : CrcWord
  crcCoversMarker : BitVec 1
  minGap : Word
  gapLen : Word
  glitchWindow : Word
  shortGap : Word
  longGap : Word
  sigLimit : Word
  gapBoundLo : Word
  gapBoundHi : Word
  qT0 : Byte
  qT1 : Byte
  qT2 : Byte
  qT3 : Byte
deriving DecidableEq, Repr

/-- The result codes of spec/60_exceptions.md rule R300. -/
inductive ResultCode where
  | ok | formatError | capacityExceeded | gapNotFound | blockTypeMismatch | badCrc
  /-- Never raised by the block (rule R302); kept so that the list is the source's. -/
  | transportFault
  | endOfCapture | illegalOp
  /-- Only queued, never a result. -/
  | spacingMismatch
  /-- Only queued, never a result. -/
  | noSignature
deriving DecidableEq, Repr

/-- The response to a command (spec/30_encoding.md rule R110). -/
structure Response where
  result : BitVec 8
  rdata : Word
deriving DecidableEq, Repr

/-- What the host may do to the block between operations (spec/70_reset_and_hazards.md rule R351). -/
inductive HostAction where
  /-- Issue one command word (spec/30_encoding.md rule R110). -/
  | command (w : CommandWord)
  /-- Read entry i of a buffer: no side effect (spec/20_memory.md rule R65). -/
  | read (b : BufferName) (i : Nat)
  /-- Write entry i of SYM, BIN or SRC. -/
  | write (b : BufferName) (i : Nat) (v : Byte)
  /-- Reset the block (rules R330, R332). `contents` is what the buffers happen to hold afterwards: the spec leaves
  it unspecified (U1), so it comes with the action and may be anything (log 8). -/
  | reset (contents : Buffers)
deriving DecidableEq, Repr

/-- The state. -/
structure State where
  /-- The size parameters (spec/00_scope.md rule R6); no step changes them. -/
  cfg : Config
  /-- The configuration registers (spec/10_state.md rule R40). -/
  conf : ConfRegs
  /-- 0x00 CRC. This and the next registers: spec/10_state.md rule R22. -/
  crc : CrcWord
  /-- 0x01 STATUS (rule R30). -/
  status : BitVec 8
  /-- 0x02 RESULT. -/
  result : BitVec 8
  /-- 0x03 INFO. -/
  info : Word
  /-- 0x04 SYM_LEN. -/
  symLen : Word
  /-- 0x05 IN_CUR. -/
  inCur : Word
  /-- 0x06 OUT_CUR. -/
  outCur : Word
  /-- 0x07 OUT_BIT. -/
  outBit : Word
  /-- 0x08 OUT_LEN. -/
  outLen : Word
  /-- 0x09 SRC_LEN. -/
  srcLen : Word
  /-- 0x0A DST_CAP. -/
  dstCap : Word
  /-- 0x0B NBLOCKS. -/
  nblocks : Word
  /-- 0x0C SIG_POS. -/
  sigPos : Word
  /-- 0x0D GAP_END. -/
  gapEnd : Word
  /-- 0x10 to 0x14 DIAG_CODE, DIAG_W0 to DIAG_W3: the record last popped. -/
  diagRec : DiagRecord
  /-- The diagnostic queue, oldest first (spec/60_exceptions.md rule R306). 0x15 DIAG_COUNT is its length (log 13). -/
  diagQ : List DiagRecord
  /-- SYM, BIN, SRC, PMAP (spec/20_memory.md rule R60). -/
  mem : Buffers
  /-- The MODEL's own: how many free values have been drawn (log 3, log 4). -/
  freeCount : Nat
  /-- The MODEL's own: what the host does next, in order (log 5). -/
  host : List HostAction
  /-- The MODEL's own: the response to the last command (spec/30_encoding.md rule R110; log 6). -/
  response : Option Response
  /-- The MODEL's own: the entry the host's last buffer read gave back (log 6). -/
  readback : Option Word
deriving DecidableEq, Repr

/-- Why a step stops with a fault. No operation of the block faults: every operation ends with a result code
(spec/60_exceptions.md rule R304). -/
inductive Fault where
  /-- Raised by a host read or write of a buffer entry at or beyond the buffer's capacity: no such entry exists, and
  the access is outside the spec (spec/70_reset_and_hazards.md rule R351, U2). Safe: the model stops (log 7). -/
  | noSuchEntry (b : BufferName) (i : Nat)
deriving DecidableEq, Repr

/-- Why a step refuses. -/
inductive Refusal where
  /-- An instruction whose meaning is not modelled; none is left. Safe. -/
  | notModelled (mnemonic : String)
  /-- Raised by a host write to PMAP: the host only reads it (rule R351), and what is not in that table is refused
  (U2). Safe: the model stops (log 7). -/
  | hostWritesPmap
deriving DecidableEq, Repr

/-- The outcome of an operation or a step. -/
abbrev Outcome := Host.Outcome State Fault Refusal

/-- The configuration registers after reset (spec/10_state.md rules R40, R55). -/
def ConfRegs.reset : ConfRegs where
  crcInit := 0x8000
  crcCoversMarker := 1
  minGap := 768
  gapLen := 121
  glitchWindow := 16
  shortGap := 16
  longGap := 900
  sigLimit := 65536
  gapBoundLo := 96
  gapBoundHi := 244
  qT0 := 0x30
  qT1 := 0x50
  qT2 := 0x70
  qT3 := 0xA0

/-- The block right after reset (spec/10_state.md rule R55, spec/70_reset_and_hazards.md rule R330), for the sizes and
buffer contents given, which reset does not determine, and with the model's own counter and host list. -/
def State.afterReset (cfg : Config) (mem : Buffers) (freeCount : Nat) (host : List HostAction) : State where
  cfg := cfg
  conf := ConfRegs.reset
  crc := 0x8000
  status := 0
  result := 0
  info := 0
  symLen := 0
  inCur := 0
  outCur := 0
  outBit := 0
  outLen := 0
  srcLen := 0
  dstCap := 0
  nblocks := 0
  sigPos := 0
  gapEnd := 0
  diagRec := ⟨0, 0, 0, 0, 0⟩
  diagQ := []
  mem := mem
  freeCount := freeCount
  host := host
  response := none
  readback := none

/-- The machine right after reset: the standard sizes (log 2), nothing listed in any buffer (log 1), no host action
pending (log 5). -/
def State.reset : State := State.afterReset Config.standard ⟨[], [], [], []⟩ 0 []

end Sys2Proof.Machine
end

