-- ==== Sys2Proof/Machine/Memory.lean ====
section
/-! DEFINITION. Machine/Memory.lean: reading and writing a buffer (spec/00_scope.md rule R8: `MemRead`, `MemWrite`,
`BINBIT`; spec/20_memory.md rules R62, R65). Every write keeps the canonical form (Sys2Proof/Laws/Memory.lean). -/

namespace Sys2Proof.Machine

/-- `buf[a]`. -/
def Memory.read {w : Nat} : Memory w → Nat → BitVec w
  | [], _ => unwritten
  | (b, v) :: m, a => if b = a then v else Memory.read m a

/-- `MemRead(buf, a, n)`: n entries, lowest index first. -/
def Memory.readN {w : Nat} (m : Memory w) (a : Nat) : Nat → List (BitVec w)
  | 0 => []
  | n + 1 => m.read a :: Memory.readN m (a + 1) n

/-- The entries a sequence of values stored from index a makes, those equal to `unwritten` left out. -/
def Memory.listed {w : Nat} (a : Nat) : List (BitVec w) → Memory w
  | [] => []
  | v :: vs => if v = unwritten then Memory.listed (a + 1) vs else (a, v) :: Memory.listed (a + 1) vs

/-- `MemWrite(buf, a, n, vs)` with n the length of vs. -/
def Memory.writeN {w : Nat} (m : Memory w) (a : Nat) (vs : List (BitVec w)) : Memory w :=
  m.filter (fun c => decide (c.1 < a)) ++ Memory.listed a vs ++ m.filter (fun c => decide (a + vs.length ≤ c.1))

/-- `buf[a] <- v`. -/
def Memory.write {w : Nat} (m : Memory w) (a : Nat) (v : BitVec w) : Memory w := m.writeN a [v]

/-- `MemWrite(buf, a, n, zeros)`, n entries at 0, which is what unlisted entries read as (log 1). -/
def Memory.zeroN {w : Nat} (m : Memory w) (a n : Nat) : Memory w :=
  m.filter (fun c => decide (c.1 < a ∨ a + n ≤ c.1))

/-- Any list of entries brought to the canonical form, entries at or beyond the capacity dropped; of two entries for
one index the later one holds. -/
def Memory.normalise {w : Nat} (cap : Nat) (cells : Memory w) : Memory w :=
  cells.foldl (fun m c => if c.1 < cap then m.write c.1 c.2 else m) []

/-- A word with bit k set to b, its other bits unchanged (spec/20_memory.md rule R65). -/
def putBit {w : Nat} (v : BitVec w) (k : Nat) (b : Bool) : BitVec w :=
  if b then v ||| (1#w <<< k) else v &&& ~~~(1#w <<< k)

/-- `BINBIT(k)`: bit k mod 8 of byte k div 8 (spec/20_memory.md rule R62). -/
def Memory.readBit (m : Memory 8) (k : Nat) : Bool := (m.read (k / 8)).getLsbD (k % 8)

/-- `BINBIT(k) <- b`: a read-modify-write of one byte (spec/20_memory.md rule R65). -/
def Memory.writeBit (m : Memory 8) (k : Nat) (b : Bool) : Memory 8 :=
  m.write (k / 8) (putBit (m.read (k / 8)) (k % 8) b)

/-- Bits written one after another from bit k on. -/
def Memory.writeBits (m : Memory 8) (k : Nat) : List Bool → Memory 8
  | [] => m
  | b :: bs => Memory.writeBits (m.writeBit k b) (k + 1) bs

/-- A 16-bit little-endian field: the low byte at the lower index (spec/20_memory.md rule R63). -/
def Memory.readLe16 (m : Memory 8) (a : Nat) : Nat := (m.read a).toNat ||| ((m.read (a + 1)).toNat <<< 8)

/-- The two bytes of a 16-bit value, low byte first (spec/20_memory.md rule R63). -/
def le16 (c : BitVec 16) : List Byte := [c.extractLsb' 0 8, c.extractLsb' 8 8]

/-- The bits of bytes in stream order, least significant first (spec/20_memory.md rule R62). -/
def bitsOfByte (v : Byte) : List Bool :=
  [v.getLsbD 0, v.getLsbD 1, v.getLsbD 2, v.getLsbD 3, v.getLsbD 4, v.getLsbD 5, v.getLsbD 6, v.getLsbD 7]

/-- The capacity of a buffer (spec/20_memory.md rule R60). -/
def capacity (cfg : Config) : BufferName → Nat
  | .sym => cfg.symCap
  | .bin => cfg.binCap
  | .src => cfg.srcCap
  | .pmap => cfg.binCap + 1

/-- Buffer contents brought to the canonical form and cut to the capacities. -/
def Buffers.normalise (cfg : Config) (c : Buffers) : Buffers where
  sym := Memory.normalise (capacity cfg .sym) c.sym
  bin := Memory.normalise (capacity cfg .bin) c.bin
  src := Memory.normalise (capacity cfg .src) c.src
  pmap := Memory.normalise (capacity cfg .pmap) c.pmap

end Sys2Proof.Machine
end

