-- ==== Sys2Proof/Machine/Flags.lean ====
section
/-! DEFINITION. Machine/Flags.lean: the flags of STATUS (spec/10_state.md rule R30). -/

namespace Sys2Proof.Machine

/-- The five flags of STATUS. -/
inductive Flag where
  | z | prev | sigf | ingap | trunc
deriving DecidableEq, Repr

/-- The flag's bit of STATUS. -/
def flagBit : Flag → Nat
  | .z => 0
  | .prev => 1
  | .sigf => 2
  | .ingap => 3
  | .trunc => 4

/-- `STATUS.f`. -/
def State.flag (s : State) (f : Flag) : Bool := s.status.getLsbD (flagBit f)

/-- `STATUS.f <- b`; the other flags keep their values. -/
def State.setFlag (s : State) (f : Flag) (b : Bool) : State := { s with status := putBit s.status (flagBit f) b }

/-- STATUS as it reads: its five flags with bits 7:5 zero (rule R30, spec/45_system.md rule R361). -/
def statusRead (v : BitVec 8) : BitVec 8 := v &&& 0x1F

/-- The register write `CRC <- v` made on behalf of the host, with `Z <- (CRC == 0)` (rule R30). -/
def State.setCrc (s : State) (v : CrcWord) : State := { s with crc := v }.setFlag .z (v == 0)

end Sys2Proof.Machine
end

