-- ==== Sys2Proof/Machine/Operands.lean ====
section
/-! DEFINITION. Machine/Operands.lean: the operand forms of spec/30_encoding.md rules R111, R112: register numbers with
their widths and host access (spec/10_state.md rules R22, R40), and the block length. -/

namespace Sys2Proof.Machine

/-- The register a number names; none for a reserved number (spec/10_state.md rules R22, R40;
spec/93_implementation_defined.md U4). -/
def regOfNumber (r : BitVec 8) : Option Reg :=
  match r.toNat with
  | 0x00 => some .crc
  | 0x01 => some .status
  | 0x02 => some .result
  | 0x03 => some .info
  | 0x04 => some .symLen
  | 0x05 => some .inCur
  | 0x06 => some .outCur
  | 0x07 => some .outBit
  | 0x08 => some .outLen
  | 0x09 => some .srcLen
  | 0x0A => some .dstCap
  | 0x0B => some .nblocks
  | 0x0C => some .sigPos
  | 0x0D => some .gapEnd
  | 0x10 => some .diagCode
  | 0x11 => some .diagW0
  | 0x12 => some .diagW1
  | 0x13 => some .diagW2
  | 0x14 => some .diagW3
  | 0x15 => some .diagCount
  | 0x20 => some .crcInit
  | 0x21 => some .crcPoly
  | 0x22 => some .crcCoversMarker
  | 0x23 => some .minGap
  | 0x24 => some .gapLen
  | 0x25 => some .glitchWindow
  | 0x26 => some .shortGap
  | 0x27 => some .longGap
  | 0x28 => some .sigLimit
  | 0x29 => some .gapBoundLo
  | 0x2A => some .gapBoundHi
  | 0x2B => some .qT0
  | 0x2C => some .qT1
  | 0x2D => some .qT2
  | 0x2E => some .qT3
  | _ => none

/-- The width of a register in bits (spec/10_state.md rules R22, R40). -/
def regWidth : Reg → Nat
  | .crc | .crcInit => 16
  | .status | .result | .diagCode | .qT0 | .qT1 | .qT2 | .qT3 => 8
  | .crcPoly => 17
  | .crcCoversMarker => 1
  | .info | .symLen | .inCur | .outCur | .outBit | .outLen | .srcLen | .dstCap | .nblocks | .sigPos | .gapEnd
  | .diagW0 | .diagW1 | .diagW2 | .diagW3 | .diagCount | .minGap | .gapLen | .glitchWindow | .shortGap | .longGap
  | .sigLimit | .gapBoundLo | .gapBoundHi => 32

/-- Whether the host may write a register: the W marks of spec/10_state.md rule R22 and every register of rule R40
except CRC_POLY (spec/45_system.md rule R362). -/
def regHostWritable : Reg → Bool
  | .crc | .symLen | .inCur | .outCur | .outBit | .srcLen | .dstCap => true
  | .crcInit | .crcCoversMarker | .minGap | .gapLen | .glitchWindow | .shortGap | .longGap | .sigLimit
  | .gapBoundLo | .gapBoundHi | .qT0 | .qT1 | .qT2 | .qT3 => true
  | .status | .result | .info | .outLen | .nblocks | .sigPos | .gapEnd | .diagCode | .diagW0 | .diagW1 | .diagW2
  | .diagW3 | .diagCount | .crcPoly => false

/-- The register WRREG r, v writes; none where rule R362 of spec/45_system.md refuses it: a reserved number, a
register the host may not write, or a value wider than the register. -/
def wrregTarget (r : BitVec 8) (v : Word) : Option Reg :=
  match regOfNumber r with
  | none => none
  | some reg => if regHostWritable reg = true ∧ v.toNat < 2 ^ regWidth reg then some reg else none

/-- A block length operand is 1 to 65536 (spec/30_encoding.md rule R112: DECBLK, FRBLK). -/
def blockLengthOk (n : Word) : Bool := decide (1 ≤ n.toNat ∧ n.toNat ≤ 65536)

end Sys2Proof.Machine
end

