-- ==== Sys2Proof/Machine/Ops.lean ====
section
/-! DEFINITION. Machine/Ops.lean: the operations every meaning shares: ending an operation (spec/60_exceptions.md rule
R304, which stands in for traps, rule R308), queuing a diagnostic (rule R306), the registers by number
(spec/10_state.md rules R22, R40), the scratch CRC register, and the host's own accesses. -/

namespace Sys2Proof.Machine

/-- The number of a result code (spec/60_exceptions.md rule R300). -/
def codeNumber : ResultCode → Nat
  | .ok => 0
  | .formatError => 1
  | .capacityExceeded => 2
  | .gapNotFound => 3
  | .blockTypeMismatch => 4
  | .badCrc => 5
  | .transportFault => 6
  | .endOfCapture => 7
  | .illegalOp => 8
  | .spacingMismatch => 9
  | .noSignature => 10

/-- The result code as RESULT and DIAG_CODE hold it. -/
def codeByte (c : ResultCode) : BitVec 8 := BitVec.ofNat 8 (codeNumber c)

/-- A number as a 32-bit register or record word holds it: reduced modulo 2^32 (spec/00_scope.md rule R7). -/
def word32 (n : Nat) : Word := BitVec.ofNat 32 n

/-- `finish code(info)`: RESULT and INFO are written and the response carries RESULT, with RDATA = 0
(spec/60_exceptions.md rule R304, spec/30_encoding.md rule R110). -/
def State.finish (s : State) (code : ResultCode) (info : Nat) : State :=
  { s with result := codeByte code, info := word32 info, response := some ⟨codeByte code, 0⟩ }

/-- What an illegal command does: IllegalOp, INFO = 0, RDATA = 0 and nothing else (spec/30_encoding.md rule R114). -/
def State.illegal (s : State) : State := s.finish .illegalOp 0

/-- The record `diag code(w0, w1, w2, w3)` appends. -/
def diagRecord (code : ResultCode) (w0 w1 w2 w3 : Nat) : DiagRecord :=
  ⟨codeByte code, word32 w0, word32 w1, word32 w2, word32 w3⟩

/-- `diag`: the record is appended when the queue has room and dropped when it is full (spec/60_exceptions.md rule
R306, spec/93_implementation_defined.md U15). -/
def State.pushDiag (s : State) (r : DiagRecord) : State :=
  { s with diagQ := if s.diagQ.length < s.cfg.diagCap then s.diagQ ++ [r] else s.diagQ }

/-- The queue is emptied. -/
def State.clearDiag (s : State) : State := { s with diagQ := [] }

/-- The CRC register left by an operation that used it as scratch: a free value, the next one
(spec/93_implementation_defined.md U6, spec/70_reset_and_hazards.md rule R345; log 3). STATUS.Z is unchanged. -/
def State.scratchCrc (s : State) : State :=
  { s with crc := Config.freeCrc s.freeCount, freeCount := s.freeCount + 1 }

/-- SYM replaced. -/
def State.setSym (s : State) (m : Memory 8) : State := { s with mem := { s.mem with sym := m } }

/-- BIN replaced. -/
def State.setBin (s : State) (m : Memory 8) : State := { s with mem := { s.mem with bin := m } }

/-- SRC replaced. -/
def State.setSrc (s : State) (m : Memory 8) : State := { s with mem := { s.mem with src := m } }

/-- PMAP replaced. -/
def State.setPmap (s : State) (m : Memory 32) : State := { s with mem := { s.mem with pmap := m } }

/-- A register's value zero-extended to 32 bits (spec/45_system.md rule R361). CRC_POLY is the constant 0x10810
(spec/10_state.md rules R23, R40); DIAG_COUNT is the number of records queued. -/
def State.readReg (s : State) : Reg → Word
  | .crc => s.crc.setWidth 32
  | .status => (statusRead s.status).setWidth 32
  | .result => s.result.setWidth 32
  | .info => s.info
  | .symLen => s.symLen
  | .inCur => s.inCur
  | .outCur => s.outCur
  | .outBit => s.outBit
  | .outLen => s.outLen
  | .srcLen => s.srcLen
  | .dstCap => s.dstCap
  | .nblocks => s.nblocks
  | .sigPos => s.sigPos
  | .gapEnd => s.gapEnd
  | .diagCode => s.diagRec.code.setWidth 32
  | .diagW0 => s.diagRec.w0
  | .diagW1 => s.diagRec.w1
  | .diagW2 => s.diagRec.w2
  | .diagW3 => s.diagRec.w3
  | .diagCount => word32 s.diagQ.length
  | .crcInit => s.conf.crcInit.setWidth 32
  | .crcPoly => 0x10810
  | .crcCoversMarker => s.conf.crcCoversMarker.setWidth 32
  | .minGap => s.conf.minGap
  | .gapLen => s.conf.gapLen
  | .glitchWindow => s.conf.glitchWindow
  | .shortGap => s.conf.shortGap
  | .longGap => s.conf.longGap
  | .sigLimit => s.conf.sigLimit
  | .gapBoundLo => s.conf.gapBoundLo
  | .gapBoundHi => s.conf.gapBoundHi
  | .qT0 => s.conf.qT0.setWidth 32
  | .qT1 => s.conf.qT1.setWidth 32
  | .qT2 => s.conf.qT2.setWidth 32
  | .qT3 => s.conf.qT3.setWidth 32

/-- `register <- v`, reduced to the register's width; a register the host may not write is unchanged (WRREG refuses
it before). Writing CRC sets Z (spec/45_system.md rule R362). -/
def State.writeReg (s : State) (r : Reg) (v : Word) : State :=
  match r with
  | .crc => s.setCrc (v.setWidth 16)
  | .symLen => { s with symLen := v }
  | .inCur => { s with inCur := v }
  | .outCur => { s with outCur := v }
  | .outBit => { s with outBit := v }
  | .srcLen => { s with srcLen := v }
  | .dstCap => { s with dstCap := v }
  | .crcInit => { s with conf := { s.conf with crcInit := v.setWidth 16 } }
  | .crcCoversMarker => { s with conf := { s.conf with crcCoversMarker := v.setWidth 1 } }
  | .minGap => { s with conf := { s.conf with minGap := v } }
  | .gapLen => { s with conf := { s.conf with gapLen := v } }
  | .glitchWindow => { s with conf := { s.conf with glitchWindow := v } }
  | .shortGap => { s with conf := { s.conf with shortGap := v } }
  | .longGap => { s with conf := { s.conf with longGap := v } }
  | .sigLimit => { s with conf := { s.conf with sigLimit := v } }
  | .gapBoundLo => { s with conf := { s.conf with gapBoundLo := v } }
  | .gapBoundHi => { s with conf := { s.conf with gapBoundHi := v } }
  | .qT0 => { s with conf := { s.conf with qT0 := v.setWidth 8 } }
  | .qT1 => { s with conf := { s.conf with qT1 := v.setWidth 8 } }
  | .qT2 => { s with conf := { s.conf with qT2 := v.setWidth 8 } }
  | .qT3 => { s with conf := { s.conf with qT3 := v.setWidth 8 } }
  | .status | .result | .info | .outLen | .nblocks | .sigPos | .gapEnd | .diagCode | .diagW0 | .diagW1 | .diagW2
  | .diagW3 | .diagCount | .crcPoly => s

/-- SYM_LEN within SYM_CAP (spec/20_memory.md rule R70). -/
def State.symOk (s : State) : Bool := decide (s.symLen.toNat ≤ s.cfg.symCap)

/-- DST_CAP within BIN_CAP (spec/20_memory.md rule R70). -/
def State.dstOk (s : State) : Bool := decide (s.dstCap.toNat ≤ s.cfg.binCap)

/-- SRC_LEN within SRC_CAP (spec/20_memory.md rule R70). -/
def State.srcOk (s : State) : Bool := decide (s.srcLen.toNat ≤ s.cfg.srcCap)

/-- The host reads entry i of a buffer: the entry's value, with no side effect (spec/20_memory.md rule R65,
spec/70_reset_and_hazards.md rule R351). -/
def hostRead (b : BufferName) (i : Nat) (s : State) : Outcome :=
  if capacity s.cfg b ≤ i then .fault (.noSuchEntry b i)
  else
    let v : Word :=
      match b with
      | .sym => (s.mem.sym.read i).setWidth 32
      | .bin => (s.mem.bin.read i).setWidth 32
      | .src => (s.mem.src.read i).setWidth 32
      | .pmap => s.mem.pmap.read i
    .next { s with readback := some v }

/-- The host writes entry i of SYM, BIN or SRC (spec/20_memory.md rule R60, spec/70_reset_and_hazards.md rule R351). -/
def hostWrite (b : BufferName) (i : Nat) (v : Byte) (s : State) : Outcome :=
  match b with
  | .pmap => .refused .hostWritesPmap
  | .sym => if s.cfg.symCap ≤ i then .fault (.noSuchEntry .sym i) else .next (s.setSym (s.mem.sym.write i v))
  | .bin => if s.cfg.binCap ≤ i then .fault (.noSuchEntry .bin i) else .next (s.setBin (s.mem.bin.write i v))
  | .src => if s.cfg.srcCap ≤ i then .fault (.noSuchEntry .src i) else .next (s.setSrc (s.mem.src.write i v))

/-- The host resets the block: every register at its reset value, the queue empty, the buffers unspecified
(spec/70_reset_and_hazards.md rules R330, R332; log 8). The sizes and the host's own list are not block state. -/
def hostReset (contents : Buffers) (s : State) : Outcome :=
  .next (State.afterReset s.cfg (contents.normalise s.cfg) s.freeCount s.host)

end Sys2Proof.Machine
end

