-- ==== Sys2Proof/Machine/CrcUnit.lean ====
section
/-! DEFINITION. Machine/CrcUnit.lean: the functions of the CRC unit (spec/40_crc.md rules R130 to R135), which the
operations of the CRC family, the framer, the block decoder and the reconstructor call. -/

namespace Sys2Proof.Machine

/-- CRC_POLY: bits 16, 11 and 4 set (rule R130). -/
def crcPoly : BitVec 17 := 0x10810

/-- `CRC_BIT(reg, b)`: the data bit sits above the register; XOR when the low bit is set; shift right (rule R131). -/
def crcBit (reg : CrcWord) (b : Bool) : CrcWord :=
  let r : BitVec 17 := BitVec.ofBool b ++ reg
  let x : BitVec 17 := if r.getLsbD 0 then r ^^^ crcPoly else r
  x.extractLsb' 1 16

/-- Bits fed one after another. -/
def crcBits (reg : CrcWord) (bs : List Bool) : CrcWord := bs.foldl crcBit reg

/-- `CRC_BYTE(reg, v)`: the eight bits of v, least significant first (rule R132). -/
def crcByte (reg : CrcWord) (v : Byte) : CrcWord := crcBits reg (bitsOfByte v)

/-- `CRC_STREAM(reg, bytes)` (rule R132). -/
def crcStream (reg : CrcWord) (bytes : List Byte) : CrcWord := bytes.foldl crcByte reg

/-- `CRC_START()`: CRC_INIT, then the marker byte 0x80 where CRC_COVERS_MARKER is 1 (rule R133). -/
def crcStart (c : ConfRegs) : CrcWord :=
  if c.crcCoversMarker = 1 then crcByte c.crcInit 0x80 else c.crcInit

/-- `CRC_GEN(payload)`: the payload and two trailing zero bytes (rule R134). -/
def crcGen (c : ConfRegs) (payload : List Byte) : CrcWord := crcStream (crcStart c) (payload ++ [0, 0])

/-- `CRC_RESIDUAL(bytes)`: the payload and its two stored CRC bytes; a good block gives 0 (rule R135). -/
def crcResidual (c : ConfRegs) (bytes : List Byte) : CrcWord := crcStream (crcStart c) bytes

end Sys2Proof.Machine
end

