-- ==== Sys2Proof/Machine/Crc.lean ====
section
/-! DEFINITION. Machine/Crc.lean: the eight operations of the CRC unit (spec/40_crc.md rules R140 to R147). Each ends
with RESULT = OK, INFO = 0 unless its rule says otherwise and sets Z where it updates CRC. -/

namespace Sys2Proof.Machine

/-- `a + n > BIN_CAP`, which ends a buffer operation with IllegalOp (rules R144 to R147). -/
def State.binPassed (s : State) (a n : Nat) : Bool := decide (s.cfg.binCap < a + n)

/-- CRCINIT (rule R140). -/
def execCrcinit (s : State) : Outcome := .next ((s.setCrc s.conf.crcInit).finish .ok 0)

/-- CRCSTART (rule R141). -/
def execCrcstart (s : State) : Outcome := .next ((s.setCrc (crcStart s.conf)).finish .ok 0)

/-- CRCBIT b (rule R142). -/
def execCrcbit (b : Bool) (s : State) : Outcome := .next ((s.setCrc (crcBit s.crc b)).finish .ok 0)

/-- CRCBYTE v (rule R143). -/
def execCrcbyte (v : Byte) (s : State) : Outcome := .next ((s.setCrc (crcByte s.crc v)).finish .ok 0)

/-- CRCBUF a, n: no initialisation (rule R144). -/
def execCrcbuf (a : BitVec 24) (n : Word) (s : State) : Outcome :=
  if s.binPassed a.toNat n.toNat then .next s.illegal
  else .next ((s.setCrc (crcStream s.crc (s.mem.bin.readN a.toNat n.toNat))).finish .ok 0)

/-- CRCGEN a, n (rule R145). -/
def execCrcgen (a : BitVec 24) (n : Word) (s : State) : Outcome :=
  if s.binPassed a.toNat n.toNat then .next s.illegal
  else .next ((s.setCrc (crcGen s.conf (s.mem.bin.readN a.toNat n.toNat))).finish .ok 0)

/-- CRCCHK a, n: BadCrc with INFO = the residual where it is not 0 (rule R146). -/
def execCrcchk (a : BitVec 24) (n : Word) (s : State) : Outcome :=
  if s.binPassed a.toNat n.toNat then .next s.illegal
  else
    let r := crcResidual s.conf (s.mem.bin.readN a.toNat n.toNat)
    if r = 0 then .next ((s.setCrc r).finish .ok 0) else .next ((s.setCrc r).finish .badCrc r.toNat)

/-- CRCPUT a: the CRC register stored low byte first; CRC and Z unchanged (rule R147). -/
def execCrcput (a : BitVec 24) (s : State) : Outcome :=
  if s.binPassed a.toNat 2 then .next s.illegal
  else .next ((s.setBin (s.mem.bin.writeN a.toNat (le16 s.crc))).finish .ok 0)

end Sys2Proof.Machine
end

