-- ==== Sys2Proof/Machine/SymUnit.lean ====
section
/-! DEFINITION. Machine/SymUnit.lean: pulse symbols: the quantiser, the symbol a SYM entry stands for, and the
demodulator's table (spec/41_demod.md rules R160, R162, R163). -/

namespace Sys2Proof.Machine

/-- `QUANTISE(v)`, the comparisons in the order of rule R160. -/
def quantise (c : ConfRegs) (v : Byte) : Sym :=
  if v.toNat < c.qT0.toNat then .s3
  else if v.toNat < c.qT1.toNat then .s0
  else if v.toNat < c.qT2.toNat then .s1
  else if v.toNat < c.qT3.toNat then .s2
  else .s3

/-- A symbol as a SYM entry: the low two bits of the byte (spec/30_encoding.md rule R91). -/
def symByte : Sym → Byte
  | .s0 => 0
  | .s1 => 1
  | .s2 => 2
  | .s3 => 3

/-- `SYMV(x) = min(x, 3)` (rule R162). -/
def symv (x : Byte) : Sym :=
  if x.toNat = 0 then .s0 else if x.toNat = 1 then .s1 else if x.toNat = 2 then .s2 else .s3

/-- `S(i)`: the symbol at index i of the capture. -/
def Memory.symAt (m : Memory 8) (i : Nat) : Sym := symv (m.read i)

/-- `SYM[k] <- 3`: a marker (spec/43_recon_marking.md rule R230). -/
def Memory.mark (m : Memory 8) (k : Nat) : Memory 8 := m.write k (symByte .s3)

/-- `DEMOD(prev, s)`: the bits emitted, in time order (rule R163). -/
def demodBits : Bool → Sym → List Bool
  | false, .s0 => [false]
  | false, .s1 => [true]
  | true, .s0 => [true]
  | true, .s1 => [false, false]
  | true, .s2 => [false, true]
  | false, .s2 => [false]
  | false, .s3 => [false]
  | true, .s3 => [false]

/-- `DEMOD(prev, s)`: the new previous bit, always the last bit emitted (rule R163). -/
def demodPrev : Bool → Sym → Bool
  | false, .s0 => false
  | false, .s1 => true
  | true, .s0 => true
  | true, .s1 => false
  | true, .s2 => true
  | false, .s2 => false
  | false, .s3 => false
  | true, .s3 => false

end Sys2Proof.Machine
end

