-- ==== Sys2Proof/Machine/Demod.lean ====
section
/-! DEFINITION. Machine/Demod.lean: the quantiser, demodulator and block decoder operations (spec/41_demod.md). -/

namespace Sys2Proof.Machine

/-- QUANT: every valid SYM entry quantised in place, SIGF cleared (rule R161). -/
def execQuant (s : State) : Outcome :=
  if s.symOk then
    let n := s.symLen.toNat
    let quantised := (s.mem.sym.readN 0 n).map (fun v => symByte (quantise s.conf v))
    .next (((s.setSym (s.mem.sym.writeN 0 quantised)).setFlag .sigf false).finish .ok 0)
  else .next s.illegal

/-- DINIT b (rule R164). -/
def execDinit (b : Bool) (s : State) : Outcome := .next ((s.setFlag .prev b).finish .ok 0)

/-- `for b in bits: BINBIT(OUT_BIT) <- b; OUT_BIT <- OUT_BIT + 1` (rule R165). The bit index is an unbounded number
that does not wrap (spec/20_memory.md rule R61); the register takes the last one modulo 2^32 (spec/00_scope.md rule R7;
log 11). -/
def appendBits (bits : List Bool) (s : State) : State :=
  { s.setBin (s.mem.bin.writeBits s.outBit.toNat bits) with outBit := word32 (s.outBit.toNat + bits.length) }

/-- DSYM v: one symbol's bits appended to BIN at the bit cursor (rule R165). -/
def execDsym (v : Byte) (s : State) : Outcome :=
  if s.dstOk then
    let bits := demodBits (s.flag .prev) (symv v)
    if s.dstCap.toNat * 8 < s.outBit.toNat + bits.length then .next (s.finish .capacityExceeded 1)
    else .next (((appendBits bits s).setFlag .prev (demodPrev (s.flag .prev) (symv v))).finish .ok bits.length)
  else .next s.illegal

/-- The loop of `GAP_LOCATE` (rule R166) over `fuel` symbols from index i, with `zeros` 0 symbols counted. -/
def gapScan (sym : Memory 8) (minGap : Nat) : (fuel i zeros : Nat) → Option Nat
  | 0, _, _ => none
  | fuel + 1, i, zeros =>
    if sym.symAt i = .s1 ∧ minGap ≤ zeros then some i
    else gapScan sym minGap fuel (i + 1) (if sym.symAt i = .s0 then zeros + 1 else 0)

/-- `GAP_LOCATE(start)`: the index of the gap-end symbol, or none (rule R166). -/
def State.gapLocate (s : State) (start : Nat) : Option Nat :=
  gapScan s.mem.sym s.conf.minGap.toNat (s.symLen.toNat - start) start 0

/-- GAPFIND: IN_CUR is not moved (rule R177). -/
def execGapfind (s : State) : Outcome :=
  if s.symOk then
    match s.gapLocate s.inCur.toNat with
    | none => .next (s.finish .gapNotFound 0)
    | some e => .next ({ s with gapEnd := word32 e }.finish .ok e)
  else .next s.illegal

/-- How an operation inside another ends: its result code and INFO. -/
structure Ending where
  code : ResultCode
  info : Nat
deriving DecidableEq, Repr

/-- The loop of rule R170 over `fuel` symbols from index i, writing from bit `base` of BIN until `total` bits stand
there. It gives BIN and, where all bits were found, the index after the last symbol used; none is EndOfCapture. The
second bit of a two-bit symbol is dropped when it is not wanted. -/
def decodeBits (sym : Memory 8) (base total : Nat) :
    (fuel i nb : Nat) → Bool → Memory 8 → Memory 8 × Option Nat
  | 0, i, nb, _, bin => if nb < total then (bin, none) else (bin, some i)
  | fuel + 1, i, nb, prev, bin =>
    if nb < total then
      let bits := (demodBits prev (sym.symAt i)).take (total - nb)
      decodeBits sym base total fuel (i + 1) (nb + bits.length) (demodPrev prev (sym.symAt i))
        (bin.writeBits (base + nb) bits)
    else (bin, some i)

/-- DECBLK steps 3 to 5: the type, the CRC, and the cursors, for a block of n bytes decoded at OUT_CUR whose gap end
is e and whose last symbol is before i (rules R171, R172, R173). -/
def checkBlock (t : Byte) (n e i : Nat) (s : State) : State × Ending :=
  let o := s.outCur.toNat
  let found := s.mem.bin.read o
  if found ≠ t then
    ({ s.pushDiag (diagRecord .blockTypeMismatch o ((t.toNat <<< 8) ||| found.toNat) e i) with inCur := word32 i },
      ⟨.blockTypeMismatch, found.toNat⟩)
  else
    let r := crcResidual s.conf (s.mem.bin.readN o (n + 2))
    let computed := crcGen s.conf (s.mem.bin.readN o n)
    let warned :=
      if r ≠ 0 then s.pushDiag (diagRecord .badCrc o (s.mem.bin.readLe16 (o + n)) computed.toNat e) else s
    ({ warned.setBin (s.mem.bin.zeroN (o + n) 2) with inCur := word32 i, outCur := word32 (o + n) },
      if r ≠ 0 then ⟨.badCrc, computed.toNat⟩ else ⟨.ok, 0⟩)

/-- DECBLK t, n behind its operand and bounds checks: the gap, the capacity, the bits, then `checkBlock` (rules R169,
R168, R170). -/
def decodeBlock (t : Byte) (n : Nat) (s : State) : State × Ending :=
  match s.gapLocate s.inCur.toNat with
  | none => (s, ⟨.gapNotFound, 0⟩)
  | some e =>
    let s1 := { s with gapEnd := word32 e }
    let o := s.outCur.toNat
    if s.dstCap.toNat < o + n + 2 then (s1, ⟨.capacityExceeded, o + n + 2 - s.dstCap.toNat⟩)
    else
      match decodeBits s.mem.sym (o * 8) ((n + 2) * 8) (s.symLen.toNat - (e + 1)) (e + 1) 0 true
          (s.mem.bin.zeroN o (n + 2)) with
      | (bin, none) => (s1.setBin bin, ⟨.endOfCapture, 0⟩)
      | (bin, some i) => checkBlock t n e i (s1.setBin bin)

/-- DECBLK t, n (rule R167). CRC is left as scratch (U6; log 3). -/
def execDecblk (t : Byte) (n : Word) (s : State) : Outcome :=
  if blockLengthOk n ∧ s.symOk ∧ s.dstOk then
    let r := decodeBlock t n.toNat s
    .next (r.1.scratchCrc.finish r.2.code r.2.info)
  else .next s.illegal

/-- The stages of the fixed sequence 1, 2, (3, 4)* (rule R175). -/
inductive Stage where
  | volume | count | header | data
deriving DecidableEq, Repr

/-- `EXPECT(stage, size)`: the type and length expected (rule R175, spec/30_encoding.md rule R97). -/
def expectBlock (size : Nat) : Stage → Byte × Nat
  | .volume => (1, 0x38)
  | .count => (2, 2)
  | .header => (3, 16)
  | .data => (4, 1 + size)

/-- `NEXT(stage)` (rule R175). -/
def nextStage : Stage → Stage
  | .volume => .count
  | .count => .header
  | .header => .data
  | .data => .header

/-- The loop of DECSEQ (rule R174) for at most `fuel` blocks. Each block tried moves IN_CUR forward (rule R175), so
SYM_LEN + 1 turns always reach the end (log 12). -/
def decodeSequence : (fuel : Nat) → Stage → (size : Nat) → State → State × Ending
  | 0, _, _, s => (s, ⟨.gapNotFound, 0⟩)
  | fuel + 1, stage, size, s =>
    let want := expectBlock size stage
    let r := decodeBlock want.1 want.2 s
    match r.2.code with
    | .ok | .badCrc =>
      let s1 := { r.1 with nblocks := word32 (r.1.nblocks.toNat + 1) }
      let size1 := if stage = .header then s1.mem.bin.readLe16 (s1.outCur.toNat - 16 + 13) else size
      decodeSequence fuel (nextStage stage) size1 s1
    | .blockTypeMismatch => decodeSequence fuel stage size r.1
    | _ => r

/-- How DECSEQ ends for the result that ended its loop (rule R176). -/
def sequenceEnding (e : Ending) : Ending :=
  match e.code with
  | .capacityExceeded => e
  | c => ⟨.ok, codeNumber c⟩

/-- DECSEQ (rules R174 to R176). CRC is left as scratch (U6; log 3). -/
def execDecseq (s : State) : Outcome :=
  if s.symOk ∧ s.dstOk then
    let s0 := { s.clearDiag with inCur := 0, outCur := 0, nblocks := 0, outLen := 0 }
    let r := decodeSequence (s.symLen.toNat + 1) .volume 0 s0
    let e := sequenceEnding r.2
    .next ({ r.1.scratchCrc with outLen := r.1.outCur }.finish e.code e.info)
  else .next s.illegal

end Sys2Proof.Machine
end

