-- ==== Sys2Proof/Machine/Framer.lean ====
section
/-! DEFINITION. Machine/Framer.lean: the block framer (spec/42_framer.md). -/

namespace Sys2Proof.Machine

/-- `FRAME(p)`: marker, payload, CRC low byte first, GAP_LEN zero bytes (rule R203, spec/30_encoding.md rule R95). -/
def frame (c : ConfRegs) (p : List Byte) : List Byte :=
  0x80 :: (p ++ le16 (crcGen c p) ++ List.replicate c.gapLen.toNat 0)

/-- The bytes a block of L payload bytes takes when framed: `L + 3 + GAP_LEN` (rule R202). -/
def framedLength (c : ConfRegs) (len : Nat) : Nat := len + 3 + c.gapLen.toNat

/-- FRBLK a, n: one block framed at OUT_CUR (rule R204). CRC is left as scratch (U6; log 3). -/
def execFrblk (a : BitVec 24) (n : Word) (s : State) : Outcome :=
  if blockLengthOk n ∧ s.srcOk ∧ s.dstOk ∧ a.toNat + n.toNat ≤ s.srcLen.toNat then
    let len := framedLength s.conf n.toNat
    let o := s.outCur.toNat
    if s.dstCap.toNat < o + len then .next (s.scratchCrc.finish .capacityExceeded (o + len - s.dstCap.toNat))
    else
      let image := frame s.conf (s.mem.src.readN a.toNat n.toNat)
      .next ({ (s.setBin (s.mem.bin.writeN o image)).scratchCrc with outCur := word32 (o + len) }.finish .ok 0)
  else .next s.illegal

/-- The file pairs of `WALK()` from SRC index i on, at most `fuel` of them: (address, length) pairs, or the index at
which the walk failed (rule R201). -/
def walkFiles (src : Memory 8) (n : Nat) : (fuel i : Nat) → Except Nat (List (Nat × Nat))
  | 0, _ => .ok []
  | fuel + 1, i =>
    if i < n ∧ src.read i = 0x03 then
      if n < i + 16 then .error i
      else
        let len4 := 1 + src.readLe16 (i + 13)
        if n < i + 16 + len4 then .error i
        else
          match walkFiles src n fuel (i + 16 + len4) with
          | .error f => .error f
          | .ok rest => .ok ((i, 16) :: (i + 16, len4) :: rest)
    else .ok []

/-- `WALK()` (rule R201). Each file takes at least 17 bytes, so n turns always reach the end. -/
def walk (src : Memory 8) (n : Nat) : Except Nat (List (Nat × Nat)) :=
  if n < 0x38 + 2 then .error 0
  else
    match walkFiles src n n 0x3A with
    | .error f => .error f
    | .ok files => .ok ((0, 0x38) :: (0x38, 2) :: files)

/-- `NEED(list)` (rule R202). -/
def framedNeed (c : ConfRegs) (blocks : List (Nat × Nat)) : Nat :=
  (blocks.map (fun b => framedLength c b.2)).sum

/-- The blocks framed one behind another from BIN index o on (rule R205). -/
def frameBlocks (c : ConfRegs) (src : Memory 8) : List (Nat × Nat) → (o : Nat) → Memory 8 → Memory 8
  | [], _, bin => bin
  | (a, len) :: rest, o, bin =>
    frameBlocks c src rest (o + framedLength c len) (bin.writeN o (frame c (src.readN a len)))

/-- FRSIDE (rules R205, R206). CRC is left as scratch (U6; log 3). -/
def execFrside (s : State) : Outcome :=
  if s.srcOk ∧ s.dstOk then
    match walk s.mem.src s.srcLen.toNat with
    | .error f => .next (s.scratchCrc.finish .formatError f)
    | .ok blocks =>
      let need := framedNeed s.conf blocks
      if s.dstCap.toNat < need then .next (s.scratchCrc.finish .capacityExceeded (need - s.dstCap.toNat))
      else
        let framed := frameBlocks s.conf s.mem.src blocks 0 s.mem.bin
        let filled := framed.zeroN need (s.dstCap.toNat - need)
        .next ({ (s.setBin filled).scratchCrc with
          outCur := word32 need, outLen := word32 need, nblocks := word32 blocks.length }.finish .ok need)
  else .next s.illegal

end Sys2Proof.Machine
end

