-- ==== Sys2Proof/Machine/Marking.lean ====
section
/-! DEFINITION. Machine/Marking.lean: the reconstructor's marking passes (spec/43_recon_marking.md). A pass is a
function of SYM and the configuration registers giving the marked SYM and the number of markers written. -/

namespace Sys2Proof.Machine

/-- Pass 1's loop over `fuel` symbols from index i (rule R232). `glitch` is g while the search is armed, `zeros` the
length of the current run of 0 symbols. -/
def pass1Scan (c : ConfRegs) : (fuel i : Nat) → (glitch : Option Nat) → (zeros marks : Nat) → Memory 8 →
    Memory 8 × Nat
  | 0, _, _, _, marks, sym => (sym, marks)
  | fuel + 1, i, glitch, zeros, marks, sym =>
    match sym.symAt i with
    | .s3 => pass1Scan c fuel (i + 1) (some i) 0 marks sym
    | .s0 =>
      match glitch with
      | some g =>
        if zeros + 1 = c.shortGap.toNat + 1 then
          if i - c.shortGap.toNat - g ≤ c.glitchWindow.toNat then
            pass1Scan c fuel (i + 1) none (zeros + 1) (marks + 1) (sym.mark (i - c.shortGap.toNat))
          else pass1Scan c fuel (i + 1) none (zeros + 1) marks sym
        else pass1Scan c fuel (i + 1) glitch (zeros + 1) marks sym
      | none => pass1Scan c fuel (i + 1) none (zeros + 1) marks sym
    | .s1 => pass1Scan c fuel (i + 1) glitch 0 marks sym
    | .s2 => pass1Scan c fuel (i + 1) glitch 0 marks sym

/-- SIG, the 32 symbols that begin every type-1 block (rule R236). -/
def signature : List Sym :=
  [.s1, .s0, .s1, .s0, .s0, .s0, .s0, .s0, .s0, .s1, .s2, .s2, .s1, .s0, .s1, .s0,
   .s0, .s1, .s1, .s2, .s1, .s1, .s1, .s1, .s1, .s1, .s0, .s0, .s1, .s1, .s1, .s0]

/-- `S(p + k) == pattern[k]` for all k. -/
def matchesAt (sym : Memory 8) (p : Nat) : List Sym → Bool
  | [] => true
  | g :: rest => sym.symAt p == g && matchesAt sym (p + 1) rest

/-- The least index from p on, among `fuel` of them, where the signature stands (rule R237). -/
def findSignature (sym : Memory 8) : (fuel p : Nat) → Option Nat
  | 0, _ => none
  | fuel + 1, p => if matchesAt sym p signature then some p else findSignature sym fuel (p + 1)

/-- `GAP_FOLLOWS(j, prev)` (rule R243); n is SYM_LEN. -/
def gapFollows (c : ConfRegs) (sym : Memory 8) (n j : Nat) (prev : Bool) : Bool :=
  let zerosFrom (k : Nat) : Bool :=
    (List.range (min n (k + c.minGap.toNat) - k)).all (fun d => sym.symAt (k + d) == .s0)
  if prev then
    if n ≤ j then true
    else if sym.symAt j ≠ .s1 then false
    else zerosFrom (j + 1)
  else zerosFrom j

/-- Where a block boundary was found: case A or case B of rule R244. -/
inductive Boundary where
  /-- The byte ends with the symbol: the marker goes to the next one. -/
  | afterSymbol
  /-- The byte ends inside a 0, 0 symbol: the marker replaces it. -/
  | insideSymbol
deriving DecidableEq, Repr

/-- The test at a byte boundary where the register is 0, after a bit of symbol i with `rest` the symbol's bits still to
come and np its new previous bit (rule R242). -/
def boundaryTest (c : ConfRegs) (sym : Memory 8) (n i : Nat) (np : Bool) : List Bool → Option Boundary
  | [] => if gapFollows c sym n (i + 1) np then some .afterSymbol else none
  | b :: _ => if b = false ∧ gapFollows c sym n (i + 1) false then some .insideSymbol else none

/-- One symbol's bits shifted into the CRC, with the boundary test after each until one succeeds (rule R241). It gives
the CRC, the bit count and the boundary. -/
def scanBits (c : ConfRegs) (sym : Memory 8) (n i : Nat) (np : Bool) :
    List Bool → CrcWord → (nbits : Nat) → Option Boundary → CrcWord × Nat × Option Boundary
  | [], crc, nbits, found => (crc, nbits, found)
  | b :: rest, crc, nbits, found =>
    let crc1 := crcBit crc b
    let nbits1 := nbits + 1
    let found1 :=
      if found = none ∧ nbits1 % 8 = 0 ∧ 24 ≤ nbits1 ∧ crc1 = 0 then boundaryTest c sym n i np rest else found
    scanBits c sym n i np rest crc1 nbits1 found1

/-- The scan state of one block (spec/10_state.md rule R50, RP3). `candidate` is (c1, c1z) once set. -/
structure BlockScan where
  prev : Bool
  crc : CrcWord
  nbits : Nat
  zb : Nat
  zstart : Nat
  candidate : Option (Nat × Nat)
deriving DecidableEq, Repr

/-- How the scan of one block ended (rules R241, R244). -/
inductive ScanEnd where
  /-- The capture ended. -/
  | capture (candidate : Option (Nat × Nat))
  /-- A marker or glitch stands at index i. -/
  | marker (i : Nat) (candidate : Option (Nat × Nat))
  /-- A boundary was found at symbol i. -/
  | hit (i : Nat) (b : Boundary)
deriving DecidableEq, Repr

/-- The candidate gap end noted before symbol i is taken: the first symbol 1 after MIN_GAP zero bits (rules R241,
R245). -/
def noteCandidate (c : ConfRegs) (sym : Memory 8) (i : Nat) (k : BlockScan) : Option (Nat × Nat) :=
  if k.prev = false ∧ sym.symAt i = .s1 ∧ c.minGap.toNat ≤ k.zb ∧ k.candidate = none then some (i, k.zstart)
  else k.candidate

/-- The scan of one block over `fuel` symbols from index i (rule R241). -/
def scanBlock (c : ConfRegs) (sym : Memory 8) (n : Nat) : (fuel i : Nat) → BlockScan → ScanEnd
  | 0, _, k => .capture k.candidate
  | fuel + 1, i, k =>
    let s := sym.symAt i
    if s = .s3 then .marker i k.candidate
    else
      let np := demodPrev k.prev s
      match scanBits c sym n i np (demodBits k.prev s) k.crc k.nbits none with
      | (_, _, some b) => .hit i b
      | (crc, nbits, none) =>
        let zero := k.prev = false ∧ s = .s0
        scanBlock c sym n fuel (i + 1) {
          prev := np, crc := crc, nbits := nbits
          zb := if zero then k.zb + 1 else 0
          zstart := if zero ∧ k.zb = 0 then i else k.zstart
          candidate := noteCandidate c sym i k }

/-- `GAPMODE_LOCATE` over `fuel` symbols from index i (rule R246). -/
def gapModeScan (shortGap : Nat) (sym : Memory 8) : (fuel i zsym : Nat) → Option Nat
  | 0, _, _ => none
  | fuel + 1, i, zsym =>
    match sym.symAt i with
    | .s3 => gapModeScan shortGap sym fuel (i + 1) zsym
    | .s0 => gapModeScan shortGap sym fuel (i + 1) (zsym + 1)
    | .s1 => if shortGap < zsym then some i else gapModeScan shortGap sym fuel (i + 1) 0
    | .s2 => gapModeScan shortGap sym fuel (i + 1) 0

/-- `GAPMODE_LOCATE(start)` (rule R246). -/
def gapModeLocate (c : ConfRegs) (sym : Memory 8) (n start : Nat) : Option Nat :=
  gapModeScan c.shortGap.toNat sym (n - start) start 0

/-- What one turn of pass 3 leaves: SYM, the markers written in it, and the next gap-end symbol. -/
structure Turn where
  sym : Memory 8
  marks : Nat
  next : Option Nat
deriving DecidableEq, Repr

/-- One turn of pass 3 from the gap-end symbol e: the scan, the boundary marker (rule R244), and the next gap end: the
candidate where the scan found no boundary but crossed a gap (rule R245), else the next one after the marker
(rule R247). -/
def pass3Turn (c : ConfRegs) (n e : Nat) (sym : Memory 8) : Turn :=
  match scanBlock c sym n (n - (e + 1)) (e + 1) ⟨true, crcStart c, 0, 0, 0, none⟩ with
  | .hit i .afterSymbol =>
    if i + 1 < n then ⟨sym.mark (i + 1), 1, gapModeLocate c (sym.mark (i + 1)) n (i + 2)⟩
    else ⟨sym, 0, gapModeLocate c sym n (i + 2)⟩
  | .hit i .insideSymbol => ⟨sym.mark i, 1, gapModeLocate c (sym.mark i) n (i + 1)⟩
  | .marker _ (some (c1, c1z)) => ⟨sym.mark c1z, 1, some c1⟩
  | .capture (some (c1, c1z)) => ⟨sym.mark c1z, 1, some c1⟩
  | .marker i none => ⟨sym, 0, gapModeLocate c sym n (i + 1)⟩
  | .capture none => ⟨sym, 0, none⟩

/-- Pass 3's loop over blocks (rule R240). Each turn starts at a larger index, so SYM_LEN + 1 turns always reach the end
(log 12). -/
def pass3Loop (c : ConfRegs) (n : Nat) : (fuel : Nat) → Option Nat → (marks : Nat) → Memory 8 → Memory 8 × Nat
  | 0, _, marks, sym => (sym, marks)
  | _ + 1, none, marks, sym => (sym, marks)
  | fuel + 1, some e, marks, sym =>
    let t := pass3Turn c n e sym
    pass3Loop c n fuel t.next (marks + t.marks) t.sym

/-- Pass 4's loop over `fuel` symbols from index i; `a` is the first index of the current run of 0 symbols
(rule R250). -/
def pass4Scan (c : ConfRegs) : (fuel i a marks : Nat) → Memory 8 → Memory 8 × Nat
  | 0, _, _, marks, sym => (sym, marks)
  | fuel + 1, i, a, marks, sym =>
    let s := sym.symAt i
    let a1 := if s = .s0 then a else i + 1
    if s = .s3 ∧ c.longGap.toNat < i - a then pass4Scan c fuel (i + 1) a1 (marks + 1) (sym.mark a)
    else pass4Scan c fuel (i + 1) a1 marks sym

/-- RP1 behind its bounds check: the marked state and INFO (rule R232). -/
def pass1 (s : State) : State × Nat :=
  let r := pass1Scan s.conf s.symLen.toNat 0 none 0 0 s.mem.sym
  (s.setSym r.1, r.2)

/-- RP2 behind its bounds check (rules R237, R238). -/
def pass2 (s : State) : State × Nat :=
  let lim := min s.symLen.toNat s.conf.sigLimit.toNat
  match findSignature s.mem.sym (lim - 31) 0 with
  | none => ({ s.setFlag .sigf false with sigPos := 0 }, 0)
  | some p =>
    let sym := if 1 ≤ p then s.mem.sym.mark (p - 1) else s.mem.sym
    ({ (s.setSym sym).setFlag .sigf true with sigPos := word32 p }, p)

/-- RP3 behind its bounds check (rule R240). CRC is left as scratch (U6; log 3). -/
def pass3 (s : State) : State × Nat :=
  if s.flag .sigf then
    let r := pass3Loop s.conf s.symLen.toNat (s.symLen.toNat + 1) (some s.sigPos.toNat) 0 s.mem.sym
    ((s.setSym r.1).scratchCrc, r.2)
  else (s.scratchCrc, 0)

/-- RP4 behind its bounds check (rule R250). -/
def pass4 (s : State) : State × Nat :=
  let r := pass4Scan s.conf s.symLen.toNat 0 0 0 s.mem.sym
  (s.setSym r.1, r.2)

/-- RP1 (rule R232). -/
def execRp1 (s : State) : Outcome :=
  if s.symOk then .next ((pass1 s).1.finish .ok (pass1 s).2) else .next s.illegal

/-- RP2 (rules R237, R238). -/
def execRp2 (s : State) : Outcome :=
  if s.symOk then .next ((pass2 s).1.finish .ok (pass2 s).2) else .next s.illegal

/-- RP3 (rules R240 to R247). -/
def execRp3 (s : State) : Outcome :=
  if s.symOk then .next ((pass3 s).1.finish .ok (pass3 s).2) else .next s.illegal

/-- RP4 (rule R250). -/
def execRp4 (s : State) : Outcome :=
  if s.symOk then .next ((pass4 s).1.finish .ok (pass4 s).2) else .next s.illegal

end Sys2Proof.Machine
end

