-- ==== Sys2Proof/Machine/Recon.lean ====
section
/-! DEFINITION. Machine/Recon.lean: the reconstructor's pass 5 (final decode and block verification) and RECON
(spec/44_recon_decode.md). -/

namespace Sys2Proof.Machine

/-- The scan state of pass 5 (spec/10_state.md rule R50, RP5): the walk's own and what VERIFY keeps from block to
block. -/
structure Walk where
  /-- The output bit cursor. -/
  out : Nat
  prev : Bool
  ingap : Bool
  zsym : Nat
  bstart : Nat
  /-- V_LAST_TYPE; 0 means no block yet. -/
  lastType : Nat
  /-- V_PREV_START. -/
  prevStart : Option Nat
  /-- V_PREV_DECL. -/
  prevDecl : Option Nat
  /-- V_FILE_SIZE. -/
  fileSize : Option Nat
deriving DecidableEq, Repr

/-- The start of the walk (rule R270): in the lead-in, so in gap mode. -/
def Walk.start : Walk := ⟨0, false, true, 0, 0, 0, none, none, none⟩

/-- `align8(x)` (spec/00_scope.md rule R7). -/
def align8 (x : Nat) : Nat := (x + 7) / 8 * 8

/-- `LEGAL_NEXT(type)` (rule R277). -/
def legalNext : Nat → Nat
  | 0 => 1
  | 1 => 2
  | 2 => 3
  | 3 => 4
  | 4 => 3
  | _ => 0

/-- The type byte VERIFY sees, 0 for a block without one (rule R277). -/
def blockType (s : State) (start n : Nat) : Nat := if 2 ≤ n then (s.mem.bin.read (start + 1)).toNat else 0

/-- The type transition check (rule R277). -/
def verifyType (start stop typ : Nat) (k : Walk) (s : State) : State :=
  let want := legalNext k.lastType
  if want = 0 ∨ typ ≠ want then s.pushDiag (diagRecord .blockTypeMismatch start ((want <<< 8) ||| typ) stop 0) else s

/-- The spacing check (rule R278): a signed integer, reported modulo 2^32. -/
def verifySpacing (start : Nat) (k : Walk) (s : State) : State :=
  match k.prevStart, k.prevDecl with
  | some pstart, some decl =>
    let spacing : Int := (start : Int) - ((pstart + decl + 3 : Nat) : Int)
    if spacing < (s.conf.gapBoundLo.toNat : Int) ∨ (s.conf.gapBoundHi.toNat : Int) < spacing then
      s.pushDiag ⟨codeByte .spacingMismatch, word32 start, BitVec.ofInt 32 spacing, word32 pstart, word32 decl⟩
    else s
  | _, _ => s

/-- The CRC check (rule R279). -/
def verifyCrc (start stop : Nat) (s : State) : State :=
  let n := stop - start
  if n < 4 then s.pushDiag (diagRecord .badCrc start 0 0 stop)
  else if crcResidual s.conf (s.mem.bin.readN (start + 1) (n - 1)) ≠ 0 then
    s.pushDiag (diagRecord .badCrc start (s.mem.bin.readLe16 (stop - 2))
      (crcGen s.conf (s.mem.bin.readN (start + 1) (n - 3))).toNat stop)
  else s

/-- The declared length of a block of this type (rule R280). -/
def declaredLength (typ : Nat) (k : Walk) : Option Nat :=
  match typ with
  | 1 => some 0x38
  | 2 => some 2
  | 3 => some 16
  | 4 => if k.lastType = 3 then k.fileSize.map (fun size => 1 + size) else none
  | _ => none

/-- What VERIFY keeps for the next block (rule R280). -/
def keepBlock (start n typ : Nat) (s : State) (k : Walk) : Walk :=
  { k with
    prevDecl := declaredLength typ k
    fileSize := if typ = 3 ∧ 16 ≤ n then some (s.mem.bin.readLe16 (start + 14)) else none
    prevStart := some start
    lastType := typ }

/-- `VERIFY(start, stop)`: the block in BIN[start .. stop-1] counted and checked, rules R281, R277, R278, R279, R280 in
that order (rule R276). -/
def verifyBlock (start stop : Nat) (s : State) (k : Walk) : State × Walk :=
  let n := stop - start
  let typ := blockType s start n
  let s1 := { s with nblocks := word32 (s.nblocks.toNat + 1) }
  (verifyCrc start stop (verifySpacing start k (verifyType start stop typ k s1)), keepBlock start n typ s k)

/-- A marker: the block end (rule R272). -/
def walkMarker (s : State) (k : Walk) : State × Walk :=
  let out := align8 k.out
  if k.ingap then (s, { k with out := out, prev := false })
  else
    let r := verifyBlock k.bstart (out / 8) s k
    (r.1, { r.2 with out := out, zsym := 0, ingap := true, prev := false })

/-- A gap end: the literal marker byte at bit 7 of the current byte (rule R273). -/
def walkGapEnd (s : State) (k : Walk) : State × Walk :=
  let out := k.out ||| 7
  (s.setBin (s.mem.bin.write (out / 8) 0x80),
    { k with out := out + 1, prev := true, ingap := false, zsym := 0, bstart := out / 8 })

/-- An ordinary symbol, with the phase correction of gap mode (rule R274). -/
def walkSymbol (shortGap : Nat) (sy : Sym) (s : State) (k : Walk) : State × Walk :=
  let bits := demodBits k.prev sy
  let prev := demodPrev k.prev sy
  let out := k.out + bits.length
  let bin := s.mem.bin.writeBits k.out bits
  if k.ingap then
    if sy = .s0 then
      let zsym := k.zsym + 1
      if zsym = shortGap + 1 ∧ prev = true then
        (s.setBin (bin.writeBits (out - zsym) (List.replicate zsym false)),
          { k with out := out, prev := false, zsym := zsym })
      else (s.setBin bin, { k with out := out, prev := prev, zsym := zsym })
    else (s.setBin bin, { k with out := out, prev := prev, zsym := 0 })
  else (s.setBin bin, { k with out := out, prev := prev })

/-- One symbol of the walk: a marker, a gap end or an ordinary symbol (rule R270). -/
def walkStep (sy : Sym) (s : State) (k : Walk) : State × Walk :=
  if sy = .s3 then walkMarker s k
  else if k.ingap = true ∧ sy = .s1 ∧ s.conf.shortGap.toNat < k.zsym then walkGapEnd s k
  else walkSymbol s.conf.shortGap.toNat sy s k

/-- The position map entry written after symbol i (rule R283). -/
def recordPosition (i : Nat) (s : State) (k : Walk) : State :=
  s.setPmap (s.mem.pmap.write (k.out / 8) (word32 i))

/-- The walk over `fuel` symbols from index i. It gives the state, the scan state and the index reached; the capacity
stop (rule R271) sets TRUNC, queues CapacityExceeded at once (log 18) and leaves the index where it is. -/
def walkLoop : (fuel i : Nat) → State → Walk → State × Walk × Nat
  | 0, i, s, k => (s, k, i)
  | fuel + 1, i, s, k =>
    if s.dstCap.toNat * 8 < k.out + 16 then
      ((s.setFlag .trunc true).pushDiag (diagRecord .capacityExceeded (k.out / 8) i 0 0), k, i)
    else
      let r := walkStep (s.mem.sym.symAt i) s k
      walkLoop fuel (i + 1) (recordPosition i r.1 r.2) r.2

/-- What pass 5 sets up before the walk (rule R270): the queue, BIN, PMAP, NBLOCKS and TRUNC cleared, NoSignature
queued where SIGF is 0. -/
def walkSetup (s : State) : State :=
  let s1 := { (s.clearDiag.setBin (s.mem.bin.zeroN 0 s.dstCap.toNat)).setPmap
      (s.mem.pmap.zeroN 0 (s.dstCap.toNat + 1)) with nblocks := 0 }
  let s2 := s1.setFlag .trunc false
  if s.flag .sigf then s2 else s2.pushDiag (diagRecord .noSignature 0 0 0 0)

/-- What pass 5 leaves after the walk (rule R275): the cursors, the block cut off by the end of the capture verified,
INGAP, and the result. CRC is left as scratch (U6; log 3). DESIGN CHOICE (log 18): where the capacity stop cuts a block
off, rules R271 and R275 queue CapacityExceeded before this VERIFY's reports, rule R290 lists it after each block's
reports; the model follows R271 and R275. -/
def walkFinish (n i : Nat) (s : State) (k : Walk) : State :=
  let len := (k.out + 7) / 8
  let s1 := { s with outBit := word32 k.out, outLen := word32 len }
  let s2 := if k.ingap then s1 else (verifyBlock k.bstart len s1 k).1
  let s3 := (s2.setFlag .ingap k.ingap).scratchCrc
  if s3.flag .trunc then s3.finish .capacityExceeded (n - i) else s3.finish .ok 0

/-- RP5 behind its bounds check (rules R270 to R283). -/
def pass5 (s : State) : State :=
  let n := s.symLen.toNat
  let r := walkLoop n 0 (walkSetup s) Walk.start
  walkFinish n r.2.2 r.1 r.2.1

/-- RP5 (rule R270). -/
def execRp5 (s : State) : Outcome :=
  if s.symOk ∧ s.dstOk then .next (pass5 s) else .next s.illegal

/-- RECON: the five passes in order on the same state (rule R285). -/
def execRecon (s : State) : Outcome :=
  if s.symOk ∧ s.dstOk then .next (pass5 (pass4 (pass3 (pass2 (pass1 s).1).1).1).1) else .next s.illegal

end Sys2Proof.Machine
end

