-- ==== Sys2Proof/Machine/System.lean ====
section
/-! DEFINITION. Machine/System.lean: the system operations (spec/45_system.md rules R360 to R364). -/

namespace Sys2Proof.Machine

/-- NOP (rule R360). -/
def execNop (s : State) : Outcome := .next (s.finish .ok 0)

/-- RDREG r: the response carries the register; a successful one changes no register, RESULT and INFO included
(rule R361, spec/90_conflicts.md C9). A reserved number is IllegalOp. -/
def execRdreg (r : BitVec 8) (s : State) : Outcome :=
  match regOfNumber r with
  | none => .next s.illegal
  | some reg => .next { s with response := some ⟨codeByte .ok, s.readReg reg⟩ }

/-- WRREG r, v (rule R362). -/
def execWrreg (r : BitVec 8) (v : Word) (s : State) : Outcome :=
  match wrregTarget r v with
  | none => .next s.illegal
  | some reg => .next ((s.writeReg reg v).finish .ok 0)

/-- DIAGRD: pops the oldest record into the DIAG registers; INFO tells whether there was one (rule R363). -/
def execDiagrd (s : State) : Outcome :=
  match s.diagQ with
  | [] => .next ({ s with diagRec := ⟨0, 0, 0, 0, 0⟩ }.finish .ok 0)
  | r :: rest => .next ({ s with diagRec := r, diagQ := rest }.finish .ok 1)

/-- DIAGCLR: the queue is emptied, the DIAG_CODE and DIAG_W registers keep their values (rule R364). -/
def execDiagclr (s : State) : Outcome := .next (s.clearDiag.finish .ok 0)

end Sys2Proof.Machine
end

