-- ==== Sys2Proof/Machine/Dispatch.lean ====
section
/-! DEFINITION. Machine/Dispatch.lean: one arm for each operation (spec/30_encoding.md rule R113). -/

namespace Sys2Proof.Machine

/-- What the block does with a decoded command. -/
def exec (i : Instr) (s : State) : Host.Outcome State Fault Refusal :=
  match i with
  | .nop => Sys2Proof.Machine.execNop s
  | .rdreg r => Sys2Proof.Machine.execRdreg r s
  | .wrreg r v => Sys2Proof.Machine.execWrreg r v s
  | .diagrd => Sys2Proof.Machine.execDiagrd s
  | .diagclr => Sys2Proof.Machine.execDiagclr s
  | .crcinit => Sys2Proof.Machine.execCrcinit s
  | .crcstart => Sys2Proof.Machine.execCrcstart s
  | .crcbit b => Sys2Proof.Machine.execCrcbit b s
  | .crcbyte v => Sys2Proof.Machine.execCrcbyte v s
  | .crcbuf a n => Sys2Proof.Machine.execCrcbuf a n s
  | .crcgen a n => Sys2Proof.Machine.execCrcgen a n s
  | .crcchk a n => Sys2Proof.Machine.execCrcchk a n s
  | .crcput a => Sys2Proof.Machine.execCrcput a s
  | .quant => Sys2Proof.Machine.execQuant s
  | .dinit b => Sys2Proof.Machine.execDinit b s
  | .dsym v => Sys2Proof.Machine.execDsym v s
  | .gapfind => Sys2Proof.Machine.execGapfind s
  | .decblk t n => Sys2Proof.Machine.execDecblk t n s
  | .decseq => Sys2Proof.Machine.execDecseq s
  | .frblk a n => Sys2Proof.Machine.execFrblk a n s
  | .frside => Sys2Proof.Machine.execFrside s
  | .rp1 => Sys2Proof.Machine.execRp1 s
  | .rp2 => Sys2Proof.Machine.execRp2 s
  | .rp3 => Sys2Proof.Machine.execRp3 s
  | .rp4 => Sys2Proof.Machine.execRp4 s
  | .rp5 => Sys2Proof.Machine.execRp5 s
  | .recon => Sys2Proof.Machine.execRecon s

end Sys2Proof.Machine
end

