-- ==== Sys2Proof/WellFormed.lean ====
section
/-! DEFINITION. WellFormed.lean: the operand limits of spec/30_encoding.md rule R112 that a bit mask cannot say. A
command outside them is illegal (rule R114); its operation answers IllegalOp itself. -/

namespace Sys2Proof

/-- The limits of rule R112: a defined register for RDREG, a host-writable register and a value that fits it for
WRREG, a length of 1 to 65536 for DECBLK and FRBLK. -/
def Instr.wellFormed : Instr → Bool
  | .nop => true
  | .rdreg r => (Machine.regOfNumber r).isSome
  | .wrreg r v => (Machine.wrregTarget r v).isSome
  | .diagrd => true
  | .diagclr => true
  | .crcinit => true
  | .crcstart => true
  | .crcbit _ => true
  | .crcbyte _ => true
  | .crcbuf _ _ => true
  | .crcgen _ _ => true
  | .crcchk _ _ => true
  | .crcput _ => true
  | .quant => true
  | .dinit _ => true
  | .dsym _ => true
  | .gapfind => true
  | .decblk _ n => Machine.blockLengthOk n
  | .decseq => true
  | .frblk _ n => Machine.blockLengthOk n
  | .frside => true
  | .rp1 => true
  | .rp2 => true
  | .rp3 => true
  | .rp4 => true
  | .rp5 => true
  | .recon => true

end Sys2Proof
end

