-- ==== Sys2Proof/Machine/Step.lean ====
section
/-! DEFINITION. Machine/Step.lean: one step: the host's next action, a command run to completion and answered, or a
buffer access, or a reset (spec/70_reset_and_hazards.md rules R340, R351). -/

namespace Sys2Proof.Machine

/-- A command word: decoded and run; a word that is no command is answered with IllegalOp (spec/30_encoding.md
rule R114). -/
def runCommand (w : CommandWord) (s : State) : Outcome :=
  match decode w with
  | .ok i => exec i s
  | .error _ => .next s.illegal

/-- One host action on the block. -/
def runAction (a : HostAction) (s : State) : Outcome :=
  match a with
  | .command w => runCommand w s
  | .read b i => hostRead b i s
  | .write b i v => hostWrite b i v s
  | .reset contents => hostReset contents s

/-- One step: the host's next action taken and carried out; with none pending the block waits and nothing changes
(spec/70_reset_and_hazards.md rules R331, R351). -/
def step (s : State) : Host.Outcome State Fault Refusal :=
  match s.host with
  | [] => .next s
  | a :: rest => runAction a { s with host := rest }

/-- The state with that command word next in line, so that the next step runs it (log 5). -/
def State.withFetchWord (s : State) (nbits w : Nat) : State :=
  { s with host := .command (tableWord nbits w) :: s.host }

end Sys2Proof.Machine
end

