-- ==== Sys2Proof/Safety.lean ====
section
/-! DEFINITION. Safety.lean: what counts as a safe run, the invariant of the block, and the terms the statements use. -/

namespace Sys2Proof.Machine

/-- The step ends in a next state. A run is safe while every step does: a fault or a refusal is always an access by the
host that the spec gives it no right to (spec/70_reset_and_hazards.md rule R351). -/
def State.stepsOn (s : State) : Prop := ∃ t, step s = .next t

/-- The codes that can be a result (spec/60_exceptions.md rule R300, column "as result"). -/
def resultCodes : List Nat := [0, 1, 2, 3, 4, 5, 7, 8]

/-- The codes that can be queued (spec/60_exceptions.md rule R300, column "queued"). -/
def queuedCodes : List Nat := [2, 4, 5, 9, 10]

/-- The invariant of the block: every buffer in its canonical form and within its capacity (spec/20_memory.md rules R60,
R70), the reserved bits of STATUS 0 (spec/10_state.md rule R30), only codes that can occur (spec/60_exceptions.md rules
R300, R302), and a queue no longer than DIAG_CAP (rule R306). -/
structure State.Inv (s : State) : Prop where
  symWf : s.mem.sym.wf
  binWf : s.mem.bin.wf
  srcWf : s.mem.src.wf
  pmapWf : s.mem.pmap.wf
  symBelow : s.mem.sym.below s.cfg.symCap
  binBelow : s.mem.bin.below s.cfg.binCap
  srcBelow : s.mem.src.below s.cfg.srcCap
  pmapBelow : s.mem.pmap.below (s.cfg.binCap + 1)
  statusReserved : s.status &&& 0xE0 = 0
  resultCode : s.result.toNat ∈ resultCodes
  responseCode : ∀ r, s.response = some r → r.result.toNat ∈ resultCodes
  queueRoom : s.diagQ.length ≤ s.cfg.diagCap
  queueCodes : ∀ r ∈ s.diagQ, r.code.toNat ∈ queuedCodes
  poppedCode : s.diagRec.code.toNat ∈ 0 :: queuedCodes

/-- RESULT, INFO and the response as an ended operation leaves them, everything else as in s
(spec/60_exceptions.md rule R304). -/
def State.answered (s : State) (code : BitVec 8) (info : Word) : State :=
  { s with result := code, info := info, response := some ⟨code, 0⟩ }

/-- t is u but for the CRC register and the count of free values: what an operation that uses CRC as scratch may leave
different (spec/93_implementation_defined.md U6). -/
def State.sameButCrc (t u : State) : Prop := { t with crc := u.crc, freeCount := u.freeCount } = u

/-- STATUS with Z telling whether the CRC is 0, its other bits unchanged (spec/10_state.md rule R30). -/
def zFlag (status : BitVec 8) (crc : CrcWord) : BitVec 8 := if crc = 0 then status ||| 0x01 else status &&& 0xFE

/-- STATUS with a bit of the mask set or cleared. -/
def withFlag (status mask : BitVec 8) (b : Bool) : BitVec 8 := if b then status ||| mask else status &&& ~~~mask

/-- The symbols at indices i to i + n - 1. -/
def symsAt (m : Memory 8) (i n : Nat) : List Sym := (m.readN i n).map symv

/-- The bits a sequence of symbols gives, read from a previous bit on (spec/41_demod.md rule R163). -/
def demodAll : Bool → List Sym → List Bool
  | _, [] => []
  | prev, y :: ys => demodBits prev y ++ demodAll (demodPrev prev y) ys

/-- The previous bit left after a sequence of symbols. -/
def demodEnd : Bool → List Sym → Bool
  | prev, [] => prev
  | prev, y :: ys => demodEnd (demodPrev prev y) ys

/-- `MOD03(bits, prev)`, the test bench's inverse of the demodulator (spec/92_eei_decisions.md D28). -/
def mod03 : Bool → List Bool → List Sym
  | _, [] => []
  | false, false :: bs => .s0 :: mod03 false bs
  | false, true :: bs => .s1 :: mod03 true bs
  | true, true :: bs => .s0 :: mod03 true bs
  | true, [false] => []
  | true, false :: false :: bs => .s1 :: mod03 false bs
  | true, false :: true :: bs => .s2 :: mod03 true bs

/-- The bits of bytes in stream order (spec/20_memory.md rule R62). -/
def bitsOfBytes (bs : List Byte) : List Bool := bs.flatMap bitsOfByte

/-- Index e ends a gap for a search from `start`: a symbol 1 directly behind at least MIN_GAP 0 symbols, none of them
before `start` (spec/41_demod.md rule R166). -/
def isGapEnd (s : State) (start e : Nat) : Prop :=
  start + s.conf.minGap.toNat ≤ e ∧ e < s.symLen.toNat ∧ s.mem.sym.symAt e = .s1 ∧
    ∀ k, e - s.conf.minGap.toNat ≤ k → k < e → s.mem.sym.symAt k = .s0

/-- The first gap end from `start` on. -/
def firstGapEnd (s : State) (start e : Nat) : Prop := isGapEnd s start e ∧ ∀ k, k < e → ¬ isGapEnd s start k

/-- What a DECBLK issued by the host would decode next, for as long as the fixed sequence 1, 2, (3, 4)* goes on
(spec/41_demod.md rules R174, R175): the state after the last DECBLK and the number of blocks accepted. The host reads
RESULT after each one. -/
def hostDecodes : (fuel : Nat) → Stage → (size blocks : Nat) → State → State × Nat
  | 0, _, _, blocks, s => (s, blocks)
  | fuel + 1, stage, size, blocks, s =>
    match exec (.decblk (expectBlock size stage).1 (BitVec.ofNat 32 (expectBlock size stage).2)) s with
    | .next t =>
      if t.result = 0 ∨ t.result = 5 then
        hostDecodes fuel (nextStage stage)
          (if stage = .header then t.mem.bin.readLe16 (t.outCur.toNat - 16 + 13) else size) (blocks + 1) t
      else if t.result = 4 then hostDecodes fuel stage size blocks t
      else (t, blocks)
    | _ => (s, blocks)

/-- The region from index j on looks like a gap behind a previous bit (`GAP_FOLLOWS`, spec/43_recon_marking.md rule
R243). -/
def State.looksLikeGap (s : State) (j : Nat) (prev : Bool) : Prop :=
  let zeros : Nat → Prop := fun a =>
    ∀ k, a ≤ k → k < s.symLen.toNat → k < a + s.conf.minGap.toNat → s.mem.sym.symAt k = .s0
  if prev then s.symLen.toNat ≤ j ∨ (s.mem.sym.symAt j = .s1 ∧ zeros (j + 1)) else zeros j

/-- The symbols behind the gap-end symbol e, up to and with index i, stand in the capture and hold no glitch and no
marker. -/
def State.scansTo (s : State) (e i : Nat) : Prop :=
  e < i ∧ i < s.symLen.toNat ∧ ∀ k, e < k → k ≤ i → s.mem.sym.symAt k ≠ .s3

/-- The previous bit with which symbol k is read in a scan from the gap-end symbol e. -/
def State.prevAt (s : State) (e k : Nat) : Bool := demodEnd true (symsAt s.mem.sym (e + 1) (k - (e + 1)))

/-- In a scan from e a block ends in symbol i, with the symbol's last bit, or (`inside`) with the bit before it, the
last one being the gap's first 0: a byte boundary at three bytes or more where the CRC is 0 and a gap follows
(spec/43_recon_marking.md rules R241, R242). -/
def State.blockEndsIn (s : State) (e i : Nat) (inside : Bool) : Prop :=
  let bits := demodAll true (symsAt s.mem.sym (e + 1) (i - e))
  let before := (demodAll true (symsAt s.mem.sym (e + 1) (i - (e + 1)))).length
  let n := bits.length - inside.toNat
  s.scansTo e i ∧ before < n ∧ n % 8 = 0 ∧ 24 ≤ n ∧ crcBits (crcStart s.conf) (bits.take n) = 0 ∧
    (inside = true → s.prevAt e (i + 1) = false) ∧ s.looksLikeGap (i + 1) (s.prevAt e (i + 1))

/-- The first block end of a scan from e. -/
def State.firstBlockEnd (s : State) (e i : Nat) (inside : Bool) : Prop :=
  s.blockEndsIn e i inside ∧ ∀ k, k < i → ∀ b, ¬ s.blockEndsIn e k b

/-- In a scan from e symbol k is a 0 symbol read with previous bit 0, which `zb` counts (spec/43_recon_marking.md rule
R241). -/
def State.zeroBitAt (s : State) (e k : Nat) : Prop := e < k ∧ s.mem.sym.symAt k = .s0 ∧ s.prevAt e k = false

/-- In a scan from e symbol c could be a gap end: a symbol 1 read with previous bit 0 behind MIN_GAP zero bits
(spec/43_recon_marking.md rules R241, R245). -/
def State.gapCandidate (s : State) (e c : Nat) : Prop :=
  s.scansTo e c ∧ s.mem.sym.symAt c = .s1 ∧ s.prevAt e c = false ∧
    ∀ k, k < c → c ≤ k + s.conf.minGap.toNat → s.zeroBitAt e k

/-- The last run of zero bits before c begins at z; where a scan from e has met none, z is 0, with which `zstart`
begins (spec/43_recon_marking.md rule R241). -/
def State.zeroRunStart (s : State) (e c z : Nat) : Prop :=
  (z < c ∧ s.zeroBitAt e z ∧ ¬ s.zeroBitAt e (z - 1) ∧
    ∀ k, z < k → k < c → s.zeroBitAt e k → s.zeroBitAt e (k - 1)) ∨
  (z = 0 ∧ ∀ k, k < c → ¬ s.zeroBitAt e k)

/-- Index i is a gap end by the short criterion for a search from `start`: a symbol 1 behind more than SHORT_GAP 0
symbols, none before `start` and nothing but markers among them (spec/43_recon_marking.md rule R246). -/
def State.shortGapEnd (s : State) (start i : Nat) : Prop :=
  i < s.symLen.toNat ∧ s.mem.sym.symAt i = .s1 ∧ ∃ a, start ≤ a ∧ a ≤ i ∧
    (∀ k, a ≤ k → k < i → s.mem.sym.symAt k = .s0 ∨ s.mem.sym.symAt k = .s3) ∧
    s.conf.shortGap.toNat < (symsAt s.mem.sym a (i - a)).count .s0

/-- `GAPMODE_LOCATE(start)` is `next`: the first gap end by the short criterion, or none. -/
def State.nextGapEnd (s : State) (start : Nat) : Option Nat → Prop
  | some i => s.shortGapEnd start i ∧ ∀ k, k < i → ¬ s.shortGapEnd start k
  | none => ∀ k, ¬ s.shortGapEnd start k

/-- Where pass 5's walk stands after some symbols, as far as the symbols alone decide it
(spec/44_recon_decode.md rule R270). -/
structure Cursor where
  out : Nat
  prev : Bool
  ingap : Bool
  zsym : Nat
deriving DecidableEq, Repr

/-- One symbol of the walk: a marker, a gap end or an ordinary symbol (spec/44_recon_decode.md rules R272 to R274). -/
def Cursor.next (shortGap : Nat) (c : Cursor) (y : Sym) : Cursor :=
  if y = .s3 then ⟨(c.out + 7) / 8 * 8, false, true, if c.ingap then c.zsym else 0⟩
  else if c.ingap = true ∧ y = .s1 ∧ shortGap < c.zsym then ⟨(c.out / 8 + 1) * 8, true, false, 0⟩
  else
    let zsym := if c.ingap = false then c.zsym else if y = .s0 then c.zsym + 1 else 0
    let corrected : Bool := c.ingap && zsym == shortGap + 1
    ⟨c.out + (demodBits c.prev y).length, demodPrev c.prev y && !corrected, c.ingap, zsym⟩

/-- The cursor after the first i symbols of SYM: the walk starts in gap mode with previous bit 0
(spec/44_recon_decode.md rule R270). -/
def State.cursorAfter (s : State) (i : Nat) : Cursor :=
  (symsAt s.mem.sym 0 i).foldl (Cursor.next s.conf.shortGap.toNat) ⟨0, false, true, 0⟩

/-- A file of the side layout (spec/30_encoding.md rule R99): the 16 bytes of its header payload and the bytes of its
data payload. -/
structure SideFile where
  header : List Byte
  data : List Byte
deriving DecidableEq, Repr

/-- The file is as rule R97 of spec/30_encoding.md has it: type 3, 16 bytes, and a data payload of 1 + size_field
bytes. -/
def SideFile.ok (f : SideFile) : Prop :=
  f.header.length = 16 ∧ f.header.getD 0 0 = 3 ∧
    f.data.length = 1 + ((f.header.getD 13 0).toNat ||| ((f.header.getD 14 0).toNat <<< 8))

/-- The bytes of files one behind another. -/
def sideBytes (fs : List SideFile) : List Byte := fs.flatMap (fun f => f.header ++ f.data)

/-- The (address, length) pairs of files that start at index i. -/
def sideBlocks : (i : Nat) → List SideFile → List (Nat × Nat)
  | _, [] => []
  | i, f :: fs => (i, 16) :: (i + 16, f.data.length) :: sideBlocks (i + 16 + f.data.length) fs

end Sys2Proof.Machine
end

