-- ==== Sys2Proof/Certificates/Slice0/Obligations.lean ====
section
/-! DEFINITION. Certificates/Slice0/Obligations.lean: the statements for the provers. A statement that gives the whole
next state says by it what the operation leaves unchanged. -/

open Sys2Proof Sys2Proof.Machine

/-! ## Encoding -/

/-- Decoding the word of an operation gives the operation back, every operand at every value
(spec/30_encoding.md rules R111, R113). -/
def Obligations.EncodeThenDecode : Prop := ∀ i : Instr, decode (encode i) = .ok i

/-- A word that decodes is the word of the operation it decodes to: no two words name one operation
(spec/30_encoding.md rules R111, R113, R115). -/
def Obligations.DecodeThenEncode : Prop := ∀ (w : CommandWord) (i : Instr), decode w = .ok i → encode i = w

/-- The word of OP, A, B is `OP | (A << 8) | (B << 32)` (spec/30_encoding.md rules R111, R116). -/
def Obligations.CommandWordLayout : Prop :=
  ∀ (op : BitVec 8) (a : BitVec 24) (b : Word),
    commandWord op a b = op.setWidth 64 ||| (a.setWidth 64 <<< 8) ||| (b.setWidth 64 <<< 32)

/-- Six words of spec/95_test_vectors.md section 8.1 decode to the operations listed there (spec/30_encoding.md rules
R111, R113). -/
def Obligations.ListedWordsDecode : Prop :=
  decode 0x0000000000000801 = .ok (.rdreg 0x08) ∧ decode 0x0000013200000A02 = .ok (.wrreg 0x0A 306) ∧
  decode 0x000000020000B515 = .ok (.crcgen 181 2) ∧ decode 0x0000003800000124 = .ok (.decblk 1 56) ∧
  decode 0x0000000200003830 = .ok (.frblk 56 2) ∧ decode 0x000000000000004F = .ok .recon

/-- A command that is not legal (reserved OP, unused field not 0, operand outside the limits of rule R112) is answered
with IllegalOp, INFO = 0, RDATA = 0, and no other register, flag, buffer or queue changes (spec/30_encoding.md rule
R114). -/
def Obligations.IllegalCommandRefused : Prop :=
  ∀ (s : State) (w : CommandWord) (rest : List HostAction), s.host = .command w :: rest →
    (∀ i, decode w = .ok i → i.wellFormed = false) →
    step s = .next ({ s with host := rest }.answered 8 0)

/-! ## The machine -/

/-- A step with a command next in line whose word decodes runs exactly that operation, with the command taken from the
host's list (the host's list is the model's own, log 5). -/
def Obligations.StepRunsDecoded : Prop :=
  ∀ (s : State) (w : CommandWord) (i : Instr) (rest : List HostAction),
    s.host = .command w :: rest → decode w = .ok i → step s = exec i { s with host := rest }

/-- With no host action pending the block waits and its state does not change (spec/70_reset_and_hazards.md rule
R351). -/
def Obligations.IdleBlockUnchanged : Prop := ∀ s : State, s.host = [] → step s = .next s

/-- Every operation, on any operands in any state, ends in a next state with a response; the sizes, the
configuration registers but for WRREG, and SRC are not changed by it (spec/70_reset_and_hazards.md rules R350, R351;
spec/20_memory.md rule R60). -/
def Obligations.EveryOperationAnswers : Prop :=
  ∀ (i : Instr) (s : State), ∃ t r, exec i s = .next t ∧ t.response = some r ∧ t.cfg = s.cfg ∧ t.host = s.host ∧
    t.mem.src = s.mem.src ∧ ((∀ r v, i ≠ .wrreg r v) → t.conf = s.conf)

/-- Right after reset the invariant holds. -/
def Obligations.ResetMeetsInvariant : Prop := State.reset.Inv

/-- Every step keeps the invariant: buffers canonical and within their capacities, reserved STATUS bits 0, only codes
that can occur, a queue within DIAG_CAP. -/
def Obligations.StepKeepsInvariant : Prop := ∀ s t : State, s.Inv → step s = .next t → t.Inv

/-- The registers after reset, with the values spec/10_state.md rule R55 and the table of rule R40 give, read by
number; the queue is empty. -/
def Obligations.ResetRegisterValues : Prop :=
  let s := State.reset
  let value : Nat → Option Nat := fun r => (regOfNumber (BitVec.ofNat 8 r)).map (fun reg => (s.readReg reg).toNat)
  value 0x00 = some 0x8000 ∧ (∀ r ∈ [0x01, 0x02, 0x03, 0x04, 0x05, 0x06, 0x07, 0x08, 0x09, 0x0A, 0x0B, 0x0C, 0x0D,
    0x10, 0x11, 0x12, 0x13, 0x14, 0x15], value r = some 0) ∧
  value 0x20 = some 0x8000 ∧ value 0x21 = some 0x10810 ∧ value 0x22 = some 1 ∧ value 0x23 = some 768 ∧
  value 0x24 = some 121 ∧ value 0x25 = some 16 ∧ value 0x26 = some 16 ∧ value 0x27 = some 900 ∧
  value 0x28 = some 65536 ∧ value 0x29 = some 96 ∧ value 0x2A = some 244 ∧ value 0x2B = some 0x30 ∧
  value 0x2C = some 0x50 ∧ value 0x2D = some 0x70 ∧ value 0x2E = some 0xA0 ∧ s.diagQ = []

/-- A reset by the host gives every register its reset value and empties the queue whatever the block held; the
buffers hold what the action says they happen to hold, at every index within their capacities
(spec/70_reset_and_hazards.md rules R330, R332; the contents carried by the action are the model's choice, log 8). -/
def Obligations.HostResetRestores : Prop :=
  ∀ (s : State) (contents : Buffers) (rest : List HostAction), s.host = .reset contents :: rest →
    contents.sym.wf → contents.bin.wf → contents.src.wf → contents.pmap.wf →
    ∃ mem : Buffers, step s = .next { State.reset with
        cfg := s.cfg, mem := mem, freeCount := s.freeCount, host := rest } ∧
      (∀ i, mem.sym.read i = if i < s.cfg.symCap then contents.sym.read i else unwritten) ∧
      (∀ i, mem.bin.read i = if i < s.cfg.binCap then contents.bin.read i else unwritten) ∧
      (∀ i, mem.src.read i = if i < s.cfg.srcCap then contents.src.read i else unwritten) ∧
      (∀ i, mem.pmap.read i = if i < s.cfg.binCap + 1 then contents.pmap.read i else unwritten)

/-- A host read gives the entry back and changes nothing else; a host write of SYM, BIN or SRC changes that entry and
nothing else, and a later read gives it back (spec/20_memory.md rules R60, R65). -/
def Obligations.HostAccessesBuffers : Prop :=
  (∀ (s : State) (i : Nat) (rest : List HostAction),
    (s.host = .read .sym i :: rest → i < s.cfg.symCap →
      step s = .next { s with host := rest, readback := some ((s.mem.sym.read i).setWidth 32) }) ∧
    (s.host = .read .bin i :: rest → i < s.cfg.binCap →
      step s = .next { s with host := rest, readback := some ((s.mem.bin.read i).setWidth 32) }) ∧
    (s.host = .read .src i :: rest → i < s.cfg.srcCap →
      step s = .next { s with host := rest, readback := some ((s.mem.src.read i).setWidth 32) }) ∧
    (s.host = .read .pmap i :: rest → i < s.cfg.binCap + 1 →
      step s = .next { s with host := rest, readback := some (s.mem.pmap.read i) })) ∧
  (∀ (s : State) (i : Nat) (v : Byte) (rest : List HostAction),
    (s.host = .write .sym i v :: rest → i < s.cfg.symCap → ∃ m : Memory 8,
      step s = .next { s with host := rest, mem := { s.mem with sym := m } } ∧
      ∀ k, m.read k = if k = i then v else s.mem.sym.read k) ∧
    (s.host = .write .bin i v :: rest → i < s.cfg.binCap → ∃ m : Memory 8,
      step s = .next { s with host := rest, mem := { s.mem with bin := m } } ∧
      ∀ k, m.read k = if k = i then v else s.mem.bin.read k) ∧
    (s.host = .write .src i v :: rest → i < s.cfg.srcCap → ∃ m : Memory 8,
      step s = .next { s with host := rest, mem := { s.mem with src := m } } ∧
      ∀ k, m.read k = if k = i then v else s.mem.src.read k))

/-- Only the operations the table of spec/20_memory.md rule R60 names write a buffer: SYM is written by QUANT, RP1 to
RP4 and RECON, BIN by CRCPUT, DSYM, DECBLK, DECSEQ, FRBLK, FRSIDE, RP5 and RECON, PMAP by RP5 and RECON. -/
def Obligations.OnlyNamedOperationsWriteBuffers : Prop :=
  ∀ (i : Instr) (s t : State), exec i s = .next t →
    (i ≠ .quant → i ≠ .rp1 → i ≠ .rp2 → i ≠ .rp3 → i ≠ .rp4 → i ≠ .recon → t.mem.sym = s.mem.sym) ∧
    ((∀ a, i ≠ .crcput a) → (∀ v, i ≠ .dsym v) → (∀ y n, i ≠ .decblk y n) → i ≠ .decseq → (∀ a n, i ≠ .frblk a n) →
      i ≠ .frside → i ≠ .rp5 → i ≠ .recon → t.mem.bin = s.mem.bin) ∧
    (i ≠ .rp5 → i ≠ .recon → t.mem.pmap = s.mem.pmap)

/-- Only the operations the table of spec/10_state.md rule R30 names change a flag: Z the CRC operations and WRREG, PREV
DINIT and DSYM, SIGF QUANT, RP2 and RECON, INGAP and TRUNC RP5 and RECON; no operation changes bits 7 to 5. -/
def Obligations.OnlyNamedOperationsChangeFlags : Prop :=
  ∀ (i : Instr) (s t : State), exec i s = .next t →
    ((∀ v, i ≠ .wrreg 0x00 v) → i ≠ .crcinit → i ≠ .crcstart → (∀ b, i ≠ .crcbit b) → (∀ v, i ≠ .crcbyte v) →
      (∀ a n, i ≠ .crcbuf a n) → (∀ a n, i ≠ .crcgen a n) → (∀ a n, i ≠ .crcchk a n) →
      t.status.getLsbD 0 = s.status.getLsbD 0) ∧
    ((∀ b, i ≠ .dinit b) → (∀ v, i ≠ .dsym v) → t.status.getLsbD 1 = s.status.getLsbD 1) ∧
    (i ≠ .quant → i ≠ .rp2 → i ≠ .recon → t.status.getLsbD 2 = s.status.getLsbD 2) ∧
    (i ≠ .rp5 → i ≠ .recon → t.status.getLsbD 3 = s.status.getLsbD 3 ∧ t.status.getLsbD 4 = s.status.getLsbD 4) ∧
    (∀ k, 5 ≤ k → t.status.getLsbD k = s.status.getLsbD k)

/-- Only the operations the table of spec/10_state.md rule R22 names write a working register: CRC the host (WRREG), the
CRC operations but CRCPUT, DECBLK, DECSEQ, FRBLK, FRSIDE, RP3, RP5 and RECON; RESULT and INFO every operation but a
successful RDREG; SYM_LEN, SRC_LEN and DST_CAP the host, IN_CUR also DECBLK and DECSEQ, OUT_CUR also those, FRBLK and
FRSIDE, OUT_BIT also DSYM, RP5 and RECON, OUT_LEN and NBLOCKS DECSEQ, FRSIDE, RP5 and RECON, SIG_POS RP2 and RECON,
GAP_END GAPFIND, DECBLK and DECSEQ, the DIAG registers DIAGRD, and the queue DIAG_COUNT counts DIAGRD, DIAGCLR, DECBLK,
DECSEQ, RP5 and RECON. STATUS is in OnlyNamedOperationsChangeFlags. -/
def Obligations.OnlyNamedOperationsWriteRegisters : Prop :=
  ∀ (i : Instr) (s t : State), exec i s = .next t →
    ((∀ r v, i ≠ .wrreg r v) → t.symLen = s.symLen ∧ t.srcLen = s.srcLen ∧ t.dstCap = s.dstCap) ∧
    ((∀ r v, i ≠ .wrreg r v) → (∀ y n, i ≠ .decblk y n) → i ≠ .decseq → t.inCur = s.inCur) ∧
    ((∀ r v, i ≠ .wrreg r v) → (∀ y n, i ≠ .decblk y n) → i ≠ .decseq → (∀ a n, i ≠ .frblk a n) → i ≠ .frside →
      t.outCur = s.outCur) ∧
    ((∀ r v, i ≠ .wrreg r v) → (∀ v, i ≠ .dsym v) → i ≠ .rp5 → i ≠ .recon → t.outBit = s.outBit) ∧
    (i ≠ .decseq → i ≠ .frside → i ≠ .rp5 → i ≠ .recon → t.outLen = s.outLen ∧ t.nblocks = s.nblocks) ∧
    (i ≠ .rp2 → i ≠ .recon → t.sigPos = s.sigPos) ∧
    (i ≠ .gapfind → (∀ y n, i ≠ .decblk y n) → i ≠ .decseq → t.gapEnd = s.gapEnd) ∧
    (i ≠ .diagrd → t.diagRec = s.diagRec) ∧
    (i ≠ .diagrd → i ≠ .diagclr → (∀ y n, i ≠ .decblk y n) → i ≠ .decseq → i ≠ .rp5 → i ≠ .recon →
      t.diagQ = s.diagQ) ∧
    ((∀ v, i ≠ .wrreg 0x00 v) → i ≠ .crcinit → i ≠ .crcstart → (∀ b, i ≠ .crcbit b) → (∀ v, i ≠ .crcbyte v) →
      (∀ a n, i ≠ .crcbuf a n) → (∀ a n, i ≠ .crcgen a n) → (∀ a n, i ≠ .crcchk a n) → (∀ y n, i ≠ .decblk y n) →
      i ≠ .decseq → (∀ a n, i ≠ .frblk a n) → i ≠ .frside → i ≠ .rp3 → i ≠ .rp5 → i ≠ .recon → t.crc = s.crc) ∧
    (∀ r reg, i = .rdreg r → regOfNumber r = some reg → t.result = s.result ∧ t.info = s.info)

/-! ## System operations -/

/-- NOP: RESULT <- OK, INFO <- 0, nothing else (spec/45_system.md rule R360). -/
def Obligations.NopEndsOk : Prop :=
  encode .nop = 0x0000000000000000 ∧ ∀ s : State, exec .nop s = .next (s.answered 0 0)

/-- RDREG of each register of spec/10_state.md rules R22, R40: the response carries OK and the register zero-extended to
32 bits and nothing else changes; a reserved number is IllegalOp (spec/45_system.md rule R361). -/
def Obligations.RdregReadsRegister : Prop :=
  (∀ r : BitVec 8, encode (.rdreg r) = commandWord 0x01 (r.setWidth 24) 0) ∧
  ∀ s : State,
    let reads : BitVec 8 → Word → Prop := fun r v => exec (.rdreg r) s = .next { s with response := some ⟨0, v⟩ }
    reads 0x00 (s.crc.setWidth 32) ∧ reads 0x01 ((s.status &&& 0x1F).setWidth 32) ∧
    reads 0x02 (s.result.setWidth 32) ∧ reads 0x03 s.info ∧ reads 0x04 s.symLen ∧ reads 0x05 s.inCur ∧
    reads 0x06 s.outCur ∧ reads 0x07 s.outBit ∧ reads 0x08 s.outLen ∧ reads 0x09 s.srcLen ∧ reads 0x0A s.dstCap ∧
    reads 0x0B s.nblocks ∧ reads 0x0C s.sigPos ∧ reads 0x0D s.gapEnd ∧ reads 0x10 (s.diagRec.code.setWidth 32) ∧
    reads 0x11 s.diagRec.w0 ∧ reads 0x12 s.diagRec.w1 ∧ reads 0x13 s.diagRec.w2 ∧ reads 0x14 s.diagRec.w3 ∧
    reads 0x15 (BitVec.ofNat 32 s.diagQ.length) ∧ reads 0x20 (s.conf.crcInit.setWidth 32) ∧ reads 0x21 0x10810 ∧
    reads 0x22 (s.conf.crcCoversMarker.setWidth 32) ∧ reads 0x23 s.conf.minGap ∧ reads 0x24 s.conf.gapLen ∧
    reads 0x25 s.conf.glitchWindow ∧ reads 0x26 s.conf.shortGap ∧ reads 0x27 s.conf.longGap ∧
    reads 0x28 s.conf.sigLimit ∧ reads 0x29 s.conf.gapBoundLo ∧ reads 0x2A s.conf.gapBoundHi ∧
    reads 0x2B (s.conf.qT0.setWidth 32) ∧ reads 0x2C (s.conf.qT1.setWidth 32) ∧ reads 0x2D (s.conf.qT2.setWidth 32) ∧
    reads 0x2E (s.conf.qT3.setWidth 32) ∧
    ∀ r : BitVec 8, (r = 0x0E ∨ r = 0x0F ∨ (0x16 ≤ r.toNat ∧ r.toNat ≤ 0x1F) ∨ r = 0x2F ∨ 0x30 ≤ r.toNat) →
      exec (.rdreg r) s = .next (s.answered 8 0)

/-- WRREG of each host-writable register: the register takes the value (CRC sets Z too), the operation ends OK and
nothing else changes. A value wider than the register, a reserved number and a register that is not host-writable are
IllegalOp (spec/45_system.md rule R362). -/
def Obligations.WrregWritesRegister : Prop :=
  (∀ (r : BitVec 8) (v : Word), encode (.wrreg r v) = commandWord 0x02 (r.setWidth 24) v) ∧
  ∀ (s : State) (v : Word),
    let writes : BitVec 8 → State → Prop := fun r t => exec (.wrreg r v) s = .next (t.answered 0 0)
    let refuses : BitVec 8 → Prop := fun r => exec (.wrreg r v) s = .next (s.answered 8 0)
    (v.toNat < 2 ^ 16 → writes 0x00 { s with crc := v.setWidth 16, status := zFlag s.status (v.setWidth 16) }) ∧
    writes 0x04 { s with symLen := v } ∧ writes 0x05 { s with inCur := v } ∧ writes 0x06 { s with outCur := v } ∧
    writes 0x07 { s with outBit := v } ∧ writes 0x09 { s with srcLen := v } ∧ writes 0x0A { s with dstCap := v } ∧
    (v.toNat < 2 ^ 16 → writes 0x20 { s with conf := { s.conf with crcInit := v.setWidth 16 } }) ∧
    (v.toNat < 2 → writes 0x22 { s with conf := { s.conf with crcCoversMarker := v.setWidth 1 } }) ∧
    writes 0x23 { s with conf := { s.conf with minGap := v } } ∧
    writes 0x24 { s with conf := { s.conf with gapLen := v } } ∧
    writes 0x25 { s with conf := { s.conf with glitchWindow := v } } ∧
    writes 0x26 { s with conf := { s.conf with shortGap := v } } ∧
    writes 0x27 { s with conf := { s.conf with longGap := v } } ∧
    writes 0x28 { s with conf := { s.conf with sigLimit := v } } ∧
    writes 0x29 { s with conf := { s.conf with gapBoundLo := v } } ∧
    writes 0x2A { s with conf := { s.conf with gapBoundHi := v } } ∧
    (v.toNat < 2 ^ 8 → writes 0x2B { s with conf := { s.conf with qT0 := v.setWidth 8 } } ∧
      writes 0x2C { s with conf := { s.conf with qT1 := v.setWidth 8 } } ∧
      writes 0x2D { s with conf := { s.conf with qT2 := v.setWidth 8 } } ∧
      writes 0x2E { s with conf := { s.conf with qT3 := v.setWidth 8 } }) ∧
    (2 ^ 16 ≤ v.toNat → refuses 0x00 ∧ refuses 0x20) ∧ (2 ≤ v.toNat → refuses 0x22) ∧
    (2 ^ 8 ≤ v.toNat → refuses 0x2B ∧ refuses 0x2C ∧ refuses 0x2D ∧ refuses 0x2E) ∧
    ∀ r : BitVec 8, (r.toNat ∈ [0x01, 0x02, 0x03, 0x08, 0x0B, 0x0C, 0x0D, 0x21] ∨ r = 0x0E ∨ r = 0x0F ∨
      (0x10 ≤ r.toNat ∧ r.toNat ≤ 0x1F) ∨ r = 0x2F ∨ 0x30 ≤ r.toNat) → refuses r

/-- DIAGRD: from an empty queue the DIAG registers become 0 and INFO is 0; else the oldest record is removed into them
and INFO is 1 (spec/45_system.md rule R363). DIAG_COUNT is the queue's length. -/
def Obligations.DiagrdPopsOldest : Prop :=
  encode .diagrd = 0x0000000000000003 ∧
  (∀ s : State, s.diagQ = [] → exec .diagrd s = .next ({ s with diagRec := ⟨0, 0, 0, 0, 0⟩ }.answered 0 0)) ∧
  (∀ (s : State) (r : DiagRecord) (rest : List DiagRecord), s.diagQ = r :: rest →
    exec .diagrd s = .next ({ s with diagRec := r, diagQ := rest }.answered 0 1))

/-- DIAGCLR: the queue is emptied, the DIAG_CODE and DIAG_W registers keep their values (spec/45_system.md rule R364).
-/
def Obligations.DiagclrEmptiesQueue : Prop :=
  encode .diagclr = 0x0000000000000004 ∧
  ∀ s : State, exec .diagclr s = .next ({ s with diagQ := [] }.answered 0 0)

/-! ## The CRC unit -/

/-- `CRC_BIT` in the 16-bit form the spec calls equivalent (spec/40_crc.md rule R131). -/
def Obligations.CrcBitHasSixteenBitForm : Prop :=
  ∀ (reg : CrcWord) (b : Bool),
    crcBit reg b =
      let shifted := (reg >>> 1) ||| (if b then 0x8000 else 0)
      if reg.getLsbD 0 then shifted ^^^ 0x8408 else shifted

/-- A payload followed by its generated CRC, low byte first, has residual 0, under every setting of CRC_INIT and
CRC_COVERS_MARKER (spec/40_crc.md rule R136 law 1). -/
def Obligations.CrcRoundTrip : Prop :=
  ∀ (c : ConfRegs) (p : List Byte),
    crcResidual c (p ++ [(crcGen c p).extractLsb' 0 8, (crcGen c p).extractLsb' 8 8]) = 0

/-- `CRC_BIT` is linear, and a register at 0 stays 0 through any number of zero bits and zero bytes (spec/40_crc.md rule
R136 laws 2, 3). -/
def Obligations.CrcLinearAndZeroStays : Prop :=
  (∀ (x y : CrcWord) (a b : Bool), crcBit (x ^^^ y) (a ^^ b) = crcBit x a ^^^ crcBit y b) ∧
  (∀ n : Nat, crcBits 0 (List.replicate n false) = 0) ∧
  (∀ n : Nat, crcStream 0 (List.replicate n 0) = 0)

/-- CRCINIT: CRC <- CRC_INIT, Z set from it (spec/40_crc.md rule R140). -/
def Obligations.CrcinitLoadsInit : Prop :=
  encode .crcinit = 0x0000000000000010 ∧
  ∀ s : State, exec .crcinit s =
    .next ({ s with crc := s.conf.crcInit, status := zFlag s.status s.conf.crcInit }.answered 0 0)

/-- CRCSTART: CRC <- CRC_START(), which is CRC_INIT after the byte 0x80 where CRC_COVERS_MARKER is 1 and CRC_INIT
where it is 0; 0x8080 with the defaults (spec/40_crc.md rules R133, R141). -/
def Obligations.CrcstartLoadsStart : Prop :=
  encode .crcstart = 0x0000000000000011 ∧
  (∀ s : State, s.conf.crcCoversMarker = 1 → exec .crcstart s =
    .next ({ s with
      crc := crcByte s.conf.crcInit 0x80
      status := zFlag s.status (crcByte s.conf.crcInit 0x80) }.answered 0 0)) ∧
  (∀ s : State, s.conf.crcCoversMarker = 0 → exec .crcstart s =
    .next ({ s with crc := s.conf.crcInit, status := zFlag s.status s.conf.crcInit }.answered 0 0)) ∧
  crcByte 0x8000 0x80 = 0x8080

/-- CRCBIT b: CRC <- CRC_BIT(CRC, b), Z set from it; a word whose A is greater than 1 is IllegalOp
(spec/40_crc.md rule R142). -/
def Obligations.CrcbitShiftsBit : Prop :=
  (∀ b : Bool, encode (.crcbit b) = if b then 0x0000000000000112 else 0x0000000000000012) ∧
  (∀ (s : State) (b : Bool), exec (.crcbit b) s =
    .next ({ s with crc := crcBit s.crc b, status := zFlag s.status (crcBit s.crc b) }.answered 0 0)) ∧
  (∀ (s : State) (w : CommandWord), fieldOp w = 0x12 → 1 < (fieldA w).toNat → runCommand w s = .next (s.answered 8 0)) ∧
  crcBit 0x8000 true = 0xC000 ∧ crcBit 0x0001 false = 0x8408 ∧ crcBit 0 false = 0

/-- CRCBYTE v: the eight bits of v shifted in, least significant first, Z set (spec/40_crc.md rules R132, R143). -/
def Obligations.CrcbyteShiftsByte : Prop :=
  (∀ v : Byte, encode (.crcbyte v) = commandWord 0x13 (v.setWidth 24) 0) ∧
  (∀ (s : State) (v : Byte),
    let c := (List.range 8).foldl (fun c i => crcBit c (v.getLsbD i)) s.crc
    exec (.crcbyte v) s = .next ({ s with crc := c, status := zFlag s.status c }.answered 0 0))

/-- CRCBUF a, n: the n bytes of BIN from a shifted into CRC as it stands, Z set; IllegalOp where a + n passes BIN_CAP
(spec/40_crc.md rule R144). -/
def Obligations.CrcbufShiftsBytes : Prop :=
  (∀ (a : BitVec 24) (n : Word), encode (.crcbuf a n) = commandWord 0x14 a n) ∧
  (∀ (s : State) (a : BitVec 24) (n : Word), s.cfg.binCap < a.toNat + n.toNat →
    exec (.crcbuf a n) s = .next (s.answered 8 0)) ∧
  (∀ (s : State) (a : BitVec 24) (n : Word), a.toNat + n.toNat ≤ s.cfg.binCap →
    let c := (List.range n.toNat).foldl (fun c i => crcByte c (s.mem.bin.read (a.toNat + i))) s.crc
    exec (.crcbuf a n) s = .next ({ s with crc := c, status := zFlag s.status c }.answered 0 0))

/-- CRCGEN a, n: CRC <- CRC_GEN of the n bytes of BIN from a, which is the running CRC from CRC_START over them and two
zero bytes; Z set, BIN not written; IllegalOp where a + n passes BIN_CAP (spec/40_crc.md rules R134, R145). -/
def Obligations.CrcgenGenerates : Prop :=
  (∀ (a : BitVec 24) (n : Word), encode (.crcgen a n) = commandWord 0x15 a n) ∧
  (∀ (s : State) (a : BitVec 24) (n : Word), s.cfg.binCap < a.toNat + n.toNat →
    exec (.crcgen a n) s = .next (s.answered 8 0)) ∧
  (∀ (s : State) (a : BitVec 24) (n : Word), a.toNat + n.toNat ≤ s.cfg.binCap →
    let run := (List.range n.toNat).foldl (fun c i => crcByte c (s.mem.bin.read (a.toNat + i))) (crcStart s.conf)
    let c := crcByte (crcByte run 0) 0
    exec (.crcgen a n) s = .next ({ s with crc := c, status := zFlag s.status c }.answered 0 0))

/-- CRCCHK a, n: CRC <- the residual of the n bytes of BIN from a; OK where it is 0, else BadCrc with INFO = the
residual; Z set; IllegalOp where a + n passes BIN_CAP (spec/40_crc.md rules R135, R146). -/
def Obligations.CrcchkChecks : Prop :=
  (∀ (a : BitVec 24) (n : Word), encode (.crcchk a n) = commandWord 0x16 a n) ∧
  (∀ (s : State) (a : BitVec 24) (n : Word), s.cfg.binCap < a.toNat + n.toNat →
    exec (.crcchk a n) s = .next (s.answered 8 0)) ∧
  (∀ (s : State) (a : BitVec 24) (n : Word), a.toNat + n.toNat ≤ s.cfg.binCap →
    let r := (List.range n.toNat).foldl (fun c i => crcByte c (s.mem.bin.read (a.toNat + i))) (crcStart s.conf)
    let t := { s with crc := r, status := zFlag s.status r }
    exec (.crcchk a n) s = .next (if r = 0 then t.answered 0 0 else t.answered 5 (r.setWidth 32)))

/-- CRCPUT a: BIN[a] and BIN[a + 1] take the low and the high byte of CRC and every other entry reads as before, CRC and
Z unchanged; IllegalOp where a + 2 passes BIN_CAP (spec/40_crc.md rule R147). -/
def Obligations.CrcputStoresCrc : Prop :=
  (∀ a : BitVec 24, encode (.crcput a) = commandWord 0x17 a 0) ∧
  (∀ (s : State) (a : BitVec 24), s.cfg.binCap < a.toNat + 2 → exec (.crcput a) s = .next (s.answered 8 0)) ∧
  (∀ (s : State) (a : BitVec 24), a.toNat + 2 ≤ s.cfg.binCap → ∃ bin : Memory 8,
    exec (.crcput a) s = .next ({ s with mem := { s.mem with bin := bin } }.answered 0 0) ∧
    bin.read a.toNat = s.crc.extractLsb' 0 8 ∧ bin.read (a.toNat + 1) = s.crc.extractLsb' 8 8 ∧
    ∀ k, k ≠ a.toNat → k ≠ a.toNat + 1 → bin.read k = s.mem.bin.read k)

/-- The pseudo-operation CRCBLK a, n, run as its two commands, leaves the payload with its CRC behind it: CRCCHK a, n
+ 2 then ends OK (spec/30_encoding.md rule R116; spec/40_crc.md rules R136, R145, R146, R147). -/
def Obligations.CrcblkStoresGoodCrc : Prop :=
  ∀ (s : State) (a : BitVec 24) (n : Word), a.toNat + n.toNat < 2 ^ 24 → a.toNat + n.toNat + 2 ≤ s.cfg.binCap →
    n.toNat + 2 < 2 ^ 32 →
    ∃ (g p : Instr) (t u v : State), pseudoCrcblk a n = some [g, p] ∧ exec g s = .next t ∧ exec p t = .next u ∧
      exec (.crcchk a (n + 2)) u = .next v ∧ v.result = 0 ∧ v.crc = 0

/-! ## The quantiser, the demodulator and the block decoder -/

/-- QUANT: each valid entry becomes 3, 0, 1, 2 or 3 by the four thresholds in order, every other entry reads as before,
SIGF is cleared; IllegalOp where SYM_LEN passes SYM_CAP (spec/41_demod.md rules R160, R161). -/
def Obligations.QuantQuantises : Prop :=
  encode .quant = 0x0000000000000020 ∧
  (∀ s : State, s.cfg.symCap < s.symLen.toNat → exec .quant s = .next (s.answered 8 0)) ∧
  (∀ s : State, s.symLen.toNat ≤ s.cfg.symCap → ∃ sym : Memory 8,
    exec .quant s = .next ({ s with mem := { s.mem with sym := sym }, status := s.status &&& 0xFB }.answered 0 0) ∧
    (∀ i, i < s.symLen.toNat → sym.read i =
      let v := s.mem.sym.read i
      if v < s.conf.qT0 then 3 else if v < s.conf.qT1 then 0 else if v < s.conf.qT2 then 1
      else if v < s.conf.qT3 then 2 else 3) ∧
    ∀ i, s.symLen.toNat ≤ i → sym.read i = s.mem.sym.read i)

/-- The demodulator's table, row by row; an entry of 3 or more is symbol 3 (spec/41_demod.md rules R162, R163). -/
def Obligations.DemodulatorTable : Prop :=
  demodBits false .s0 = [false] ∧ demodBits false .s1 = [true] ∧ demodBits true .s0 = [true] ∧
  demodBits true .s1 = [false, false] ∧ demodBits true .s2 = [false, true] ∧ demodBits false .s2 = [false] ∧
  (∀ b, demodBits b .s3 = [false]) ∧
  (∀ (b : Bool) (y : Sym), (demodBits b y).getLast? = some (demodPrev b y)) ∧
  symv 0 = .s0 ∧ symv 1 = .s1 ∧ symv 2 = .s2 ∧ (∀ v : Byte, 3 ≤ v.toNat → symv v = .s3)

/-- The demodulator gives back the bits the test bench's modulator encoded, less a trailing lone 0 after a 1
(spec/92_eei_decisions.md D28; spec/95_test_vectors.md S3). -/
def Obligations.DemodulatorInvertsModulator : Prop :=
  ∀ (prev : Bool) (bs : List Bool), ∃ tail : List Bool,
    demodAll prev (mod03 prev bs) ++ tail = bs ∧ (tail = [] ∨ tail = [false])

/-- SIG, demodulated from a previous bit 0, is the gap-end bit, the bytes 01 2A 4E 49 4E and the two low bits of 54
(spec/43_recon_marking.md rule R236). -/
def Obligations.SignatureDemodulates : Prop :=
  signature.length = 32 ∧
  demodAll false signature = [true] ++ bitsOfBytes [0x01, 0x2A, 0x4E, 0x49, 0x4E] ++ (bitsOfByte 0x54).take 2

/-- DINIT b: PREV <- b (spec/41_demod.md rule R164). -/
def Obligations.DinitSetsPrev : Prop :=
  (∀ b : Bool, encode (.dinit b) = if b then 0x0000000000000121 else 0x0000000000000021) ∧
  ∀ (s : State) (b : Bool), exec (.dinit b) s = .next ({ s with status := withFlag s.status 0x02 b }.answered 0 0)

/-- DSYM v: where the bits of the symbol fit below DST_CAP, they are written at the bit cursor, which moves past them,
PREV takes the new previous bit and INFO counts them; every other bit of BIN reads as before. Where they do not fit,
CapacityExceeded with INFO = 1 and nothing changed; IllegalOp where DST_CAP passes BIN_CAP (spec/41_demod.md rule
R165). The bit index does not wrap (spec/20_memory.md rule R61); that the register alone is reduced modulo 2^32 is the
model's reading (log 11). -/
def Obligations.DsymAppendsBits : Prop :=
  (∀ v : Byte, encode (.dsym v) = commandWord 0x22 (v.setWidth 24) 0) ∧
  ∀ (s : State) (v : Byte),
    let prev := s.status.getLsbD 1
    let bits := demodBits prev (symv v)
    (s.cfg.binCap < s.dstCap.toNat → exec (.dsym v) s = .next (s.answered 8 0)) ∧
    (s.dstCap.toNat ≤ s.cfg.binCap → s.dstCap.toNat * 8 < s.outBit.toNat + bits.length →
      exec (.dsym v) s = .next (s.answered 2 1)) ∧
    (s.dstCap.toNat ≤ s.cfg.binCap → s.outBit.toNat + bits.length ≤ s.dstCap.toNat * 8 → ∃ bin : Memory 8,
      exec (.dsym v) s = .next ({ s with
        mem := { s.mem with bin := bin }
        outBit := s.outBit + BitVec.ofNat 32 bits.length
        status := withFlag s.status 0x02 (demodPrev prev (symv v)) }.answered 0 (BitVec.ofNat 32 bits.length)) ∧
      ∀ k, bin.readBit k =
        if k = s.outBit.toNat then bits.getD 0 false
        else if k = s.outBit.toNat + 1 ∧ bits.length = 2 then bits.getD 1 false
        else s.mem.bin.readBit k)

/-- GAPFIND: OK with INFO and GAP_END at the first symbol 1 that stands directly behind at least MIN_GAP 0 symbols
counted from IN_CUR on; GapNotFound where there is none; nothing else changes, IN_CUR included; IllegalOp where SYM_LEN
passes SYM_CAP (spec/41_demod.md rules R166, R177). -/
def Obligations.GapfindFindsFirstGapEnd : Prop :=
  encode .gapfind = 0x0000000000000023 ∧
  (∀ s : State, s.cfg.symCap < s.symLen.toNat → exec .gapfind s = .next (s.answered 8 0)) ∧
  (∀ s : State, s.symLen.toNat ≤ s.cfg.symCap → (∀ e, ¬ isGapEnd s s.inCur.toNat e) →
    exec .gapfind s = .next (s.answered 3 0)) ∧
  (∀ (s : State) (e : Nat), s.symLen.toNat ≤ s.cfg.symCap → firstGapEnd s s.inCur.toNat e →
    exec .gapfind s = .next ({ s with gapEnd := BitVec.ofNat 32 e }.answered 0 (BitVec.ofNat 32 e)))

/-- DECBLK t, n where it decodes nothing: IllegalOp for a length outside 1 to 65536 or a length register beyond its
buffer, with nothing changed; GapNotFound where no gap ends behind IN_CUR; CapacityExceeded with the shortfall,
GAP_END set, where the block and its CRC pass DST_CAP. Cursors and buffers are unchanged in all of them
(spec/41_demod.md rules R167, R168, R169). -/
def Obligations.DecblkDecodesNothing : Prop :=
  (∀ (t : Byte) (n : Word), encode (.decblk t n) = commandWord 0x24 (t.setWidth 24) n) ∧
  (∀ (s : State) (y : Byte) (n : Word), (n.toNat = 0 ∨ 65536 < n.toNat ∨ s.cfg.symCap < s.symLen.toNat ∨
    s.cfg.binCap < s.dstCap.toNat) → exec (.decblk y n) s = .next (s.answered 8 0)) ∧
  (∀ (s : State) (y : Byte) (n : Word), 1 ≤ n.toNat → n.toNat ≤ 65536 → s.symLen.toNat ≤ s.cfg.symCap →
    s.dstCap.toNat ≤ s.cfg.binCap →
    ((∀ e, ¬ isGapEnd s s.inCur.toNat e) → ∃ t, exec (.decblk y n) s = .next t ∧ t.sameButCrc (s.answered 3 0)) ∧
    (∀ e, firstGapEnd s s.inCur.toNat e → s.dstCap.toNat < s.outCur.toNat + n.toNat + 2 →
      ∃ t, exec (.decblk y n) s = .next t ∧ t.sameButCrc ({ s with gapEnd := BitVec.ofNat 32 e }.answered 2
        (BitVec.ofNat 32 (s.outCur.toNat + n.toNat + 2 - s.dstCap.toNat)))))

/-- DECBLK t, n where the block is there: behind the first gap end e, the symbols up to index i demodulate, from a
previous bit 1, to the bits of `block`, n payload bytes and two CRC bytes, perhaps with one more bit that is dropped.
- Its first byte is not t: BlockTypeMismatch with the type found, a record, IN_CUR past the block, OUT_CUR unchanged,
  the bytes at OUT_CUR.
- Its residual is 0: OK, the payload at OUT_CUR, two zero bytes behind it, both cursors advanced.
- Else BadCrc with the computed CRC, the same and a record (spec/41_demod.md rules R169 to R173). -/
def Obligations.DecblkDecodesBlock : Prop :=
  ∀ (s : State) (y : Byte) (n : Word) (e i : Nat) (block : List Byte) (extra : List Bool),
    1 ≤ n.toNat → n.toNat ≤ 65536 → s.symLen.toNat ≤ s.cfg.symCap → s.dstCap.toNat ≤ s.cfg.binCap →
    firstGapEnd s s.inCur.toNat e → s.outCur.toNat + n.toNat + 2 ≤ s.dstCap.toNat →
    block.length = n.toNat + 2 → e + 1 < i → i ≤ s.symLen.toNat →
    demodAll true (symsAt s.mem.sym (e + 1) (i - (e + 1))) = bitsOfBytes block ++ extra → extra.length ≤ 1 →
    (demodAll true (symsAt s.mem.sym (e + 1) (i - 1 - (e + 1)))).length < (n.toNat + 2) * 8 →
    let o := s.outCur.toNat
    let payload := block.take n.toNat
    let stored := (block.getD n.toNat 0).toNat ||| ((block.getD (n.toNat + 1) 0).toNat <<< 8)
    let queued : DiagRecord → List DiagRecord :=
      fun r => if s.diagQ.length < s.cfg.diagCap then s.diagQ ++ [r] else s.diagQ
    (block.getD 0 0 ≠ y → ∃ (t : State) (bin : Memory 8), exec (.decblk y n) s = .next t ∧
      t.sameButCrc ({ s with
        gapEnd := BitVec.ofNat 32 e, inCur := BitVec.ofNat 32 i, mem := { s.mem with bin := bin }
        diagQ := queued ⟨4, s.outCur, BitVec.ofNat 32 ((y.toNat <<< 8) ||| (block.getD 0 0).toNat), BitVec.ofNat 32 e,
          BitVec.ofNat 32 i⟩ }.answered 4 ((block.getD 0 0).setWidth 32)) ∧
      ∀ k, bin.read k = if o ≤ k ∧ k < o + n.toNat + 2 then block.getD (k - o) 0 else s.mem.bin.read k) ∧
    (block.getD 0 0 = y → ∃ (t : State) (bin : Memory 8), exec (.decblk y n) s = .next t ∧
      (∀ k, bin.read k = if o ≤ k ∧ k < o + n.toNat then block.getD (k - o) 0
        else if k = o + n.toNat ∨ k = o + n.toNat + 1 then 0 else s.mem.bin.read k) ∧
      let u := { s with
        gapEnd := BitVec.ofNat 32 e, inCur := BitVec.ofNat 32 i, outCur := BitVec.ofNat 32 (o + n.toNat)
        mem := { s.mem with bin := bin } }
      (crcResidual s.conf block = 0 → t.sameButCrc (u.answered 0 0)) ∧
      (crcResidual s.conf block ≠ 0 → t.sameButCrc ({ u with
        diagQ := queued ⟨5, s.outCur, BitVec.ofNat 32 stored, (crcGen s.conf payload).setWidth 32,
          BitVec.ofNat 32 e⟩ }.answered 5 ((crcGen s.conf payload).setWidth 32))))

/-- DECBLK t, n where the capture ends inside the block: EndOfCapture, GAP_END set, the cursors unchanged, the region of
the block holding the bits decoded over zeros (spec/41_demod.md rules R169, R170). -/
def Obligations.DecblkEndOfCapture : Prop :=
  ∀ (s : State) (y : Byte) (n : Word) (e : Nat),
    1 ≤ n.toNat → n.toNat ≤ 65536 → s.symLen.toNat ≤ s.cfg.symCap → s.dstCap.toNat ≤ s.cfg.binCap →
    firstGapEnd s s.inCur.toNat e → s.outCur.toNat + n.toNat + 2 ≤ s.dstCap.toNat →
    let bits := demodAll true (symsAt s.mem.sym (e + 1) (s.symLen.toNat - (e + 1)))
    bits.length < (n.toNat + 2) * 8 →
    let o := s.outCur.toNat
    ∃ (t : State) (bin : Memory 8), exec (.decblk y n) s = .next t ∧
      t.sameButCrc ({ s with gapEnd := BitVec.ofNat 32 e, mem := { s.mem with bin := bin } }.answered 7 0) ∧
      ∀ k, bin.readBit k =
        if o * 8 ≤ k ∧ k < (o + n.toNat + 2) * 8 then bits.getD (k - o * 8) false else s.mem.bin.readBit k

/-- DECSEQ decodes what the host would decode by issuing DECBLK after DECBLK for the sequence 1, 2, (3, 4)*, from an
empty queue and both cursors at 0, going on after OK, BadCrc and BlockTypeMismatch: the same BIN, cursors, GAP_END and
queue; OUT_LEN is OUT_CUR, NBLOCKS the blocks accepted, the result CapacityExceeded with its shortfall or OK with INFO
3 or 7 (spec/41_demod.md rules R174, R175, R176). IllegalOp where a length register passes its buffer. -/
def Obligations.DecseqIsHostLoop : Prop :=
  encode .decseq = 0x0000000000000025 ∧
  (∀ s : State, (s.cfg.symCap < s.symLen.toNat ∨ s.cfg.binCap < s.dstCap.toNat) →
    exec .decseq s = .next (s.answered 8 0)) ∧
  (∀ s : State, s.symLen.toNat ≤ s.cfg.symCap → s.dstCap.toNat ≤ s.cfg.binCap →
    let h := hostDecodes (s.symLen.toNat + 1) .volume 0 0 { s with diagQ := [], inCur := 0, outCur := 0 }
    ∃ t, exec .decseq s = .next t ∧
      (h.1.result = 2 ∨ h.1.result = 3 ∨ h.1.result = 7) ∧
      t.sameButCrc ({ s with
        mem := { s.mem with bin := h.1.mem.bin }
        inCur := h.1.inCur, outCur := h.1.outCur, gapEnd := h.1.gapEnd, diagQ := h.1.diagQ
        outLen := h.1.outCur, nblocks := BitVec.ofNat 32 h.2 }.answered
          (if h.1.result = 2 then 2 else 0) (if h.1.result = 2 then h.1.info else h.1.result.setWidth 32)))

/-- DECSEQ's turns never run out: with more than SYM_LEN turns allowed, the loop gives the same state and the same
ending (spec/41_demod.md rule R175, "so the loop ends"; spec/70_reset_and_hazards.md rule R350; log 12). -/
def Obligations.DecseqTurnsSuffice : Prop :=
  ∀ (s : State) (stage : Stage) (size extra : Nat),
    decodeSequence (s.symLen.toNat + 1 + extra) stage size s = decodeSequence (s.symLen.toNat + 1) stage size s

/-! ## The framer -/

/-- FRBLK a, n: at OUT_CUR the marker 0x80, the n payload bytes of SRC from a, the CRC of them low byte first, GAP_LEN
zero bytes; every other entry reads as before; OUT_CUR moves past it. CapacityExceeded with the shortfall and nothing
written where it passes DST_CAP; IllegalOp for a length outside 1 to 65536, a length register beyond its buffer or a +
n beyond SRC_LEN (spec/42_framer.md rules R203, R204). -/
def Obligations.FrblkFramesBlock : Prop :=
  (∀ (a : BitVec 24) (n : Word), encode (.frblk a n) = commandWord 0x30 a n) ∧
  (∀ (s : State) (a : BitVec 24) (n : Word), (n.toNat = 0 ∨ 65536 < n.toNat ∨ s.cfg.srcCap < s.srcLen.toNat ∨
    s.cfg.binCap < s.dstCap.toNat ∨ s.srcLen.toNat < a.toNat + n.toNat) →
    exec (.frblk a n) s = .next (s.answered 8 0)) ∧
  (∀ (s : State) (a : BitVec 24) (n : Word), 1 ≤ n.toNat → n.toNat ≤ 65536 → s.srcLen.toNat ≤ s.cfg.srcCap →
    s.dstCap.toNat ≤ s.cfg.binCap → a.toNat + n.toNat ≤ s.srcLen.toNat →
    let o := s.outCur.toNat
    let len := n.toNat + 3 + s.conf.gapLen.toNat
    let crc := crcGen s.conf (s.mem.src.readN a.toNat n.toNat)
    (s.dstCap.toNat < o + len → ∃ t, exec (.frblk a n) s = .next t ∧
      t.sameButCrc (s.answered 2 (BitVec.ofNat 32 (o + len - s.dstCap.toNat)))) ∧
    (o + len ≤ s.dstCap.toNat → ∃ (t : State) (bin : Memory 8), exec (.frblk a n) s = .next t ∧
      t.sameButCrc ({ s with
        mem := { s.mem with bin := bin }, outCur := BitVec.ofNat 32 (o + len) }.answered 0 0) ∧
      bin.read o = 0x80 ∧ (∀ k, k < n.toNat → bin.read (o + 1 + k) = s.mem.src.read (a.toNat + k)) ∧
      bin.read (o + 1 + n.toNat) = crc.extractLsb' 0 8 ∧ bin.read (o + 2 + n.toNat) = crc.extractLsb' 8 8 ∧
      (∀ k, o + 3 + n.toNat ≤ k → k < o + len → bin.read k = 0) ∧
      ∀ k, (k < o ∨ o + len ≤ k) → bin.read k = s.mem.bin.read k))

/-- A block framed by FRBLK has a good CRC: CRCCHK of its payload and CRC bytes ends OK with CRC 0
(spec/42_framer.md rule R203; spec/40_crc.md rules R136, R146). -/
def Obligations.FramedBlockChecksGood : Prop :=
  ∀ (s t : State) (a : BitVec 24) (n : Word), exec (.frblk a n) s = .next t → t.result = 0 →
    s.outCur.toNat + 1 < 2 ^ 24 →
    ∃ u, exec (.crcchk (BitVec.ofNat 24 (s.outCur.toNat + 1)) (n + 2)) t = .next u ∧ u.result = 0 ∧ u.crc = 0

/-- The walk of a side: the fixed blocks 1 and 2, then one pair for each file, where the files stand one behind another
from index 0x3A and no further file header follows (spec/42_framer.md rule R201; spec/30_encoding.md rules R97, R99). -/
def Obligations.WalkListsFiles : Prop :=
  ∀ (src : Memory 8) (n : Nat) (fs : List SideFile), (∀ f ∈ fs, f.ok) →
    src.readN 0x3A (sideBytes fs).length = sideBytes fs → 0x3A + (sideBytes fs).length ≤ n →
    (0x3A + (sideBytes fs).length = n ∨ src.read (0x3A + (sideBytes fs).length) ≠ 3) →
    walk src n = .ok ((0, 0x38) :: (0x38, 2) :: sideBlocks 0x3A fs)

/-- The walk fails at the index of the file header whose header or data runs past the end, after files that do not; and
at 0 for a side shorter than 58 bytes (spec/42_framer.md rule R201). -/
def Obligations.WalkFailsAtCutFile : Prop :=
  (∀ (src : Memory 8) (n : Nat), n < 0x3A → walk src n = .error 0) ∧
  (∀ (src : Memory 8) (n : Nat) (fs : List SideFile), (∀ f ∈ fs, f.ok) →
    src.readN 0x3A (sideBytes fs).length = sideBytes fs →
    let i := 0x3A + (sideBytes fs).length
    i < n → src.read i = 3 → (n < i + 16 ∨ n < i + 16 + (1 + src.readLe16 (i + 13))) →
    walk src n = .error i)

/-- FRSIDE: FormatError with the offset where the walk failed and CapacityExceeded with the shortfall leave BIN as it
was; else BIN holds the framed blocks one behind another from index 0, zeros behind them up to DST_CAP, every entry
from DST_CAP on as before, and OUT_CUR, OUT_LEN, NBLOCKS and INFO tell the length and the blocks; IllegalOp where a
length register passes its buffer (spec/42_framer.md rules R202, R203, R205, R206). -/
def Obligations.FrsideFramesSide : Prop :=
  encode .frside = 0x0000000000000031 ∧
  (∀ s : State, (s.cfg.srcCap < s.srcLen.toNat ∨ s.cfg.binCap < s.dstCap.toNat) →
    exec .frside s = .next (s.answered 8 0)) ∧
  (∀ s : State, s.srcLen.toNat ≤ s.cfg.srcCap → s.dstCap.toNat ≤ s.cfg.binCap →
    (∀ f, walk s.mem.src s.srcLen.toNat = .error f → ∃ t, exec .frside s = .next t ∧
      t.sameButCrc (s.answered 1 (BitVec.ofNat 32 f))) ∧
    (∀ blocks, walk s.mem.src s.srcLen.toNat = .ok blocks →
      let framed := blocks.flatMap (fun b =>
        let p := s.mem.src.readN b.1 b.2
        let c := crcGen s.conf p
        [0x80] ++ p ++ [c.extractLsb' 0 8, c.extractLsb' 8 8] ++ List.replicate s.conf.gapLen.toNat 0)
      let need := (blocks.map (fun b => b.2 + 3 + s.conf.gapLen.toNat)).sum
      (s.dstCap.toNat < need → ∃ t, exec .frside s = .next t ∧
        t.sameButCrc (s.answered 2 (BitVec.ofNat 32 (need - s.dstCap.toNat)))) ∧
      (need ≤ s.dstCap.toNat → ∃ (t : State) (bin : Memory 8), exec .frside s = .next t ∧
        t.sameButCrc ({ s with
          mem := { s.mem with bin := bin }, outCur := BitVec.ofNat 32 need, outLen := BitVec.ofNat 32 need
          nblocks := BitVec.ofNat 32 blocks.length }.answered 0 (BitVec.ofNat 32 need)) ∧
        ∀ k, bin.read k = if k < need then framed.getD k 0 else if k < s.dstCap.toNat then 0
          else s.mem.bin.read k)))

/-! ## The reconstructor -/

/-- RP1: symbol a becomes a marker exactly where a run of more than SHORT_GAP 0 symbols starts that is the first such
run after a glitch g and starts at most GLITCH_WINDOW symbols after it, no other glitch between; INFO counts the
markers, every other entry reads as before and nothing else changes but the result; IllegalOp where SYM_LEN passes
SYM_CAP (spec/43_recon_marking.md rule R232). -/
def Obligations.Rp1MarksGapAfterGlitch : Prop :=
  encode .rp1 = 0x0000000000000040 ∧
  (∀ s : State, s.cfg.symCap < s.symLen.toNat → exec .rp1 s = .next (s.answered 8 0)) ∧
  (∀ s : State, s.symLen.toNat ≤ s.cfg.symCap →
    let sg := s.conf.shortGap.toNat
    let zeroRun : Nat → Prop := fun b =>
      b + sg < s.symLen.toNat ∧ ∀ k, b ≤ k → k ≤ b + sg → s.mem.sym.symAt k = .s0
    let marked : Nat → Prop := fun a => zeroRun a ∧ ∃ g, g < a ∧ a - g ≤ s.conf.glitchWindow.toNat ∧
      s.mem.sym.symAt g = .s3 ∧ (∀ k, g < k → k < a → s.mem.sym.symAt k ≠ .s3) ∧ ∀ b, g < b → b < a → ¬ zeroRun b
    ∃ (sym : Memory 8) (marks : List Nat), marks.Pairwise (· < ·) ∧ (∀ a, a ∈ marks ↔ marked a) ∧
      exec .rp1 s = .next ({ s with mem := { s.mem with sym := sym } }.answered 0 (BitVec.ofNat 32 marks.length)) ∧
      ∀ k, (marked k → sym.read k = 3) ∧ (¬ marked k → sym.read k = s.mem.sym.read k))

/-- RP2: with p the least index at which the 32 symbols of SIG stand wholly inside the first SIG_LIMIT symbols, SIGF
is set, SIG_POS and INFO are p and the entry before p, if there is one, becomes a marker; where there is no such
index, SIGF is cleared, SIG_POS and INFO are 0; IllegalOp where SYM_LEN passes SYM_CAP (spec/43_recon_marking.md rules
R236, R237, R238). -/
def Obligations.Rp2FindsSignature : Prop :=
  encode .rp2 = 0x0000000000000041 ∧
  (∀ s : State, s.cfg.symCap < s.symLen.toNat → exec .rp2 s = .next (s.answered 8 0)) ∧
  (∀ s : State, s.symLen.toNat ≤ s.cfg.symCap →
    let stands : Nat → Prop := fun p =>
      p + 32 ≤ s.symLen.toNat ∧ p + 32 ≤ s.conf.sigLimit.toNat ∧
        ∀ k, k < 32 → s.mem.sym.symAt (p + k) = signature.getD k .s3
    ((∀ p, ¬ stands p) →
      exec .rp2 s = .next ({ s with status := s.status &&& 0xFB, sigPos := 0 }.answered 0 0)) ∧
    (∀ p, stands p → (∀ q, q < p → ¬ stands q) → ∃ sym : Memory 8,
      exec .rp2 s = .next ({ s with
        mem := { s.mem with sym := sym }, status := s.status ||| 0x04
        sigPos := BitVec.ofNat 32 p }.answered 0 (BitVec.ofNat 32 p)) ∧
      ∀ k, sym.read k = if k + 1 = p then 3 else s.mem.sym.read k))

/-- RP3: with SIGF = 0 nothing is marked. With SIGF = 1 only valid entries change, each to a marker, and nothing but
SYM, the scratch CRC and the result changes; IllegalOp where SYM_LEN passes SYM_CAP (spec/43_recon_marking.md rules
R231, R240). -/
def Obligations.Rp3OnlyMarks : Prop :=
  encode .rp3 = 0x0000000000000042 ∧
  (∀ s : State, s.cfg.symCap < s.symLen.toNat → exec .rp3 s = .next (s.answered 8 0)) ∧
  (∀ s : State, s.symLen.toNat ≤ s.cfg.symCap → s.status.getLsbD 2 = false →
    ∃ t, exec .rp3 s = .next t ∧ t.sameButCrc (s.answered 0 0)) ∧
  (∀ s : State, s.symLen.toNat ≤ s.cfg.symCap → s.status.getLsbD 2 = true →
    ∃ (t : State) (sym : Memory 8) (info : Word), exec .rp3 s = .next t ∧
      t.sameButCrc ({ s with mem := { s.mem with sym := sym } }.answered 0 info) ∧
      ∀ k, sym.read k = s.mem.sym.read k ∨ (k < s.symLen.toNat ∧ sym.read k = 3))

/-- RP3, SIGF set, turn by turn from the gap-end symbol e = SIG_POS. It goes on from the next gap end as RP3 would
with SIG_POS there, and INFO counts the markers of both; without one it ends.
- A block ends in symbol i: the symbol behind i, if there is one, or i itself where the block ends inside it, becomes a
  marker; the next gap end is the first by the short criterion behind it.
- No block ends but the scan crosses a gap: the start of its zeros becomes a marker; its gap end is the next.
- Neither, and the scan meets a marker: none is written; the next gap end is the first by the short criterion behind it.
- Neither, and the scan reaches the end of the capture: it ends.
So on a good block, m symbols without a glitch whose bits are whole bytes, at least three, that bring the CRC to 0, no
earlier byte boundary doing so, and behind them a gap to the end of the capture, the first symbol of that gap becomes
the only marker written and INFO is 1 (spec/43_recon_marking.md rules R240 to R247). -/
def Obligations.Rp3MarksBlockEnd : Prop :=
  (∀ s : State, s.symLen.toNat ≤ s.cfg.symCap → s.status.getLsbD 2 = true →
    let e := s.sigPos.toNat
    let n := s.symLen.toNat
    let goesOn : Memory 8 → Word → Option Nat → Prop := fun sym marks next =>
      ∃ t, exec .rp3 s = .next t ∧
        t.sameButCrc ({ s with mem := { s.mem with sym := t.mem.sym } }.answered 0 t.info) ∧
        (next = none → t.mem.sym = sym ∧ t.info = marks) ∧
        ∀ e1, next = some e1 → ∃ u,
          exec .rp3 { s with mem := { s.mem with sym := sym }, sigPos := BitVec.ofNat 32 e1 } = .next u ∧
          t.mem.sym = u.mem.sym ∧ t.info = u.info + marks
    (∀ i inside next, s.firstBlockEnd e i inside →
      let m := if inside then i else i + 1
      s.nextGapEnd (m + 1) next →
      goesOn (if m < n then s.mem.sym.mark m else s.mem.sym) (if m < n then 1 else 0) next) ∧
    ((∀ i b, ¬ s.blockEndsIn e i b) →
      (∀ c z, s.gapCandidate e c → (∀ k, k < c → ¬ s.gapCandidate e k) → s.zeroRunStart e c z →
        goesOn (s.mem.sym.mark z) 1 (some c)) ∧
      ((∀ c, ¬ s.gapCandidate e c) →
        (∀ i next, e < i → i < n → s.mem.sym.symAt i = .s3 → (∀ k, e < k → k < i → s.mem.sym.symAt k ≠ .s3) →
          s.nextGapEnd (i + 1) next → goesOn s.mem.sym 0 next) ∧
        ((∀ k, e < k → k < n → s.mem.sym.symAt k ≠ .s3) → goesOn s.mem.sym 0 none)))) ∧
  (∀ (s : State) (m : Nat),
    let e := s.sigPos.toNat
    let n := s.symLen.toNat
    let syms := symsAt s.mem.sym (e + 1) m
    let bits := demodAll true syms
    n ≤ s.cfg.symCap → s.status.getLsbD 2 = true → e + 1 + m < n →
    (∀ y ∈ syms, y ≠ .s3) → bits.length % 8 = 0 → 24 ≤ bits.length → crcBits (crcStart s.conf) bits = 0 →
    (∀ j, j < bits.length → 24 ≤ j → j % 8 = 0 → crcBits (crcStart s.conf) (bits.take j) ≠ 0) →
    (∀ k, e + 1 + m ≤ k → k < n → s.mem.sym.symAt k =
      if k = e + 1 + m ∧ demodEnd true syms = true then .s1 else .s0) →
    ∃ (t : State) (sym : Memory 8), exec .rp3 s = .next t ∧
      t.sameButCrc ({ s with mem := { s.mem with sym := sym } }.answered 0 1) ∧
      ∀ k, sym.read k = if k = e + 1 + m then 3 else s.mem.sym.read k)

/-- RP4: the first index of a run of 0 symbols becomes a marker exactly where the run is longer than LONG_GAP and a
marker stands directly behind it; INFO counts the markers and every other entry reads as before; IllegalOp where
SYM_LEN passes SYM_CAP (spec/43_recon_marking.md rule R250). -/
def Obligations.Rp4MarksLongGapStart : Prop :=
  encode .rp4 = 0x0000000000000043 ∧
  (∀ s : State, s.cfg.symCap < s.symLen.toNat → exec .rp4 s = .next (s.answered 8 0)) ∧
  (∀ s : State, s.symLen.toNat ≤ s.cfg.symCap →
    let marked : Nat → Prop := fun a =>
      (a = 0 ∨ s.mem.sym.symAt (a - 1) ≠ .s0) ∧
      ∃ i, a + s.conf.longGap.toNat < i ∧ i < s.symLen.toNat ∧ s.mem.sym.symAt i = .s3 ∧
        ∀ k, a ≤ k → k < i → s.mem.sym.symAt k = .s0
    ∃ (sym : Memory 8) (marks : List Nat), marks.Pairwise (· < ·) ∧ (∀ a, a ∈ marks ↔ marked a) ∧
      exec .rp4 s = .next ({ s with mem := { s.mem with sym := sym } }.answered 0 (BitVec.ofNat 32 marks.length)) ∧
      ∀ k, (marked k → sym.read k = 3) ∧ (¬ marked k → sym.read k = s.mem.sym.read k))

/-- RP5, for DST_CAP within BIN_CAP and below 2^29. It walks the symbols up to the first before which fewer than 16 bits
are free, or all N: where it stops at symbol n, TRUNC is set, the result is CapacityExceeded with INFO = N - n and, where
the queue has room to spare, CapacityExceeded(out div 8, n, 0, 0) is queued, last where the walk stands in a gap, else
with only VERIFY's reports of the block cut off behind it (that order is log 18); where it does not, TRUNC is clear, the
result OK with INFO = 0 and no such record is queued. OUT_BIT and INGAP are the cursor's, NBLOCKS counts the gap ends,
OUT_LEN is OUT_BIT rounded up to bytes and within DST_CAP. PMAP[b] is the last symbol after which the cursor stood in
byte b, 0 where there is none. Every byte of BIN from OUT_LEN to DST_CAP and every entry of PMAP behind OUT_LEN up to
DST_CAP is 0, all beyond as before; where SIGF was 0 and the queue can hold a record, the first is NoSignature.
IllegalOp where a length register passes its buffer; only BIN, PMAP, OUT_BIT, OUT_LEN, NBLOCKS, INGAP, TRUNC, the queue,
the scratch CRC and the result change (spec/44_recon_decode.md rules R270 to R275, R283, R290). -/
def Obligations.Rp5LeavesImage : Prop :=
  encode .rp5 = 0x0000000000000044 ∧
  (∀ s : State, (s.cfg.symCap < s.symLen.toNat ∨ s.cfg.binCap < s.dstCap.toNat) →
    exec .rp5 s = .next (s.answered 8 0)) ∧
  (∀ s : State, s.symLen.toNat ≤ s.cfg.symCap → s.dstCap.toNat ≤ s.cfg.binCap → s.dstCap.toNat * 8 < 2 ^ 32 →
    ∃ (t : State) (n : Nat),
      let out := (s.cursorAfter n).out
      let ingap := (s.cursorAfter n).ingap
      let trunc := decide (n < s.symLen.toNat)
      let blocks := (List.range n).countP (fun i => (s.cursorAfter i).ingap && !(s.cursorAfter (i + 1)).ingap)
      exec .rp5 s = .next t ∧
      n ≤ s.symLen.toNat ∧ (∀ i, i < n → (s.cursorAfter i).out + 16 ≤ s.dstCap.toNat * 8) ∧
      (trunc = true → s.dstCap.toNat * 8 < out + 16) ∧
      t.sameButCrc ({ s with
        mem := { s.mem with bin := t.mem.bin, pmap := t.mem.pmap }
        outBit := BitVec.ofNat 32 out, outLen := t.outLen, nblocks := BitVec.ofNat 32 blocks, diagQ := t.diagQ
        status := withFlag (withFlag s.status 0x10 trunc) 0x08 ingap }.answered (if trunc then 2 else 0)
          (BitVec.ofNat 32 (s.symLen.toNat - n))) ∧
      t.outLen.toNat = (out + 7) / 8 ∧ t.outLen.toNat ≤ s.dstCap.toNat ∧
      (trunc = true → t.diagQ.length < s.cfg.diagCap → ∃ older newer,
        t.diagQ = older ++ ⟨2, BitVec.ofNat 32 (out / 8), BitVec.ofNat 32 n, 0, 0⟩ :: newer ∧
        (∀ r ∈ older ++ newer, r.code ≠ 2) ∧ (∀ r ∈ newer, r.code = 4 ∨ r.code = 9 ∨ r.code = 5) ∧
        (ingap = true → newer = [])) ∧
      (trunc = false → ∀ r ∈ t.diagQ, r.code ≠ 2) ∧
      (∀ b i, i < n → (s.cursorAfter (i + 1)).out / 8 = b →
        (∀ j, i < j → j < n → (s.cursorAfter (j + 1)).out / 8 ≠ b) → t.mem.pmap.read b = BitVec.ofNat 32 i) ∧
      (∀ b, b ≤ s.dstCap.toNat → (∀ i, i < n → (s.cursorAfter (i + 1)).out / 8 ≠ b) → t.mem.pmap.read b = 0) ∧
      (∀ k, t.outLen.toNat ≤ k → k < s.dstCap.toNat → t.mem.bin.read k = 0) ∧
      (∀ k, s.dstCap.toNat ≤ k → t.mem.bin.read k = s.mem.bin.read k) ∧
      (∀ k, t.outLen.toNat < k → k ≤ s.dstCap.toNat → t.mem.pmap.read k = 0) ∧
      (∀ k, s.dstCap.toNat < k → t.mem.pmap.read k = s.mem.pmap.read k) ∧
      (s.status.getLsbD 2 = false → 0 < s.cfg.diagCap → t.diagQ.head? = some ⟨10, 0, 0, 0, 0⟩) ∧
      t.diagQ.length ≤ s.cfg.diagCap)

/-- RP5 recovers a block: a lead-in of z 0 symbols, z above SHORT_GAP, the gap-end symbol, symbols without a glitch
that demodulate to the bits of `block`, and a marker or the end of the capture. BIN then holds zeros, the marker byte
0x80 at byte z / 8, the bytes of the block behind it, and zeros; OUT_LEN ends behind the block, one block is verified,
INGAP tells the marker and nothing is cut off. PMAP holds for a byte the last symbol after which the cursor stood in
it: 8 b + 6 for a byte b of the lead-in, z - 1 for the marker byte, for a byte of the block the last symbol that does
not complete it, and the last symbol of all behind the block. The queue holds, as far as it has room, NoSignature where
SIGF is 0 and VERIFY's reports of the bytes from the marker byte to OUT_LEN: the type where it is not 1, the CRC where
it is not good (spec/44_recon_decode.md rules R270, R272 to R277, R279, R283). -/
def Obligations.Rp5RecoversBlock : Prop :=
  ∀ (s : State) (z m : Nat) (block : List Byte) (marked : Bool),
    let start := z / 8
    let stop := start + 1 + block.length
    let bitsTo : Nat → Nat := fun c => (demodAll true (symsAt s.mem.sym (z + 1) c)).length
    s.symLen.toNat ≤ s.cfg.symCap → s.dstCap.toNat ≤ s.cfg.binCap → s.dstCap.toNat * 8 < 2 ^ 32 →
    start + 3 + block.length ≤ s.dstCap.toNat →
    s.conf.shortGap.toNat < z → s.symLen.toNat = z + 1 + m + marked.toNat →
    (∀ k, k < z → s.mem.sym.symAt k = .s0) → s.mem.sym.symAt z = .s1 →
    (∀ y ∈ symsAt s.mem.sym (z + 1) m, y ≠ .s3) →
    demodAll true (symsAt s.mem.sym (z + 1) m) = bitsOfBytes block →
    (marked = true → s.mem.sym.symAt (z + 1 + m) = .s3) →
    let signatureReport : List DiagRecord := if s.status.getLsbD 2 then [] else [⟨10, 0, 0, 0, 0⟩]
    let typeReport : List DiagRecord :=
      if block.getD 0 0 = 1 then []
      else [⟨4, BitVec.ofNat 32 start, 0x100 ||| (block.getD 0 0).setWidth 32, BitVec.ofNat 32 stop, 0⟩]
    let crcReport : List DiagRecord :=
      if block.length < 3 then [⟨5, BitVec.ofNat 32 start, 0, 0, BitVec.ofNat 32 stop⟩]
      else if crcResidual s.conf block = 0 then []
      else [⟨5, BitVec.ofNat 32 start,
        (block.getD (block.length - 2) 0).setWidth 32 ||| ((block.getD (block.length - 1) 0).setWidth 32 <<< 8),
        (crcGen s.conf (block.take (block.length - 2))).setWidth 32, BitVec.ofNat 32 stop⟩]
    ∃ t, exec .rp5 s = .next t ∧ t.result = 0 ∧ t.info = 0 ∧ t.outLen.toNat = stop ∧
      t.nblocks = 1 ∧ t.status.getLsbD 3 = marked ∧ t.status.getLsbD 4 = false ∧
      t.diagQ = (signatureReport ++ typeReport ++ crcReport).take s.cfg.diagCap ∧
      (∀ b, b < start → t.mem.pmap.read b = BitVec.ofNat 32 (8 * b + 6)) ∧
      t.mem.pmap.read start = BitVec.ofNat 32 (z - 1) ∧
      (∀ c, c < m → bitsTo c / 8 < bitsTo (c + 1) / 8 →
        t.mem.pmap.read (start + 1 + bitsTo c / 8) = BitVec.ofNat 32 (z + c)) ∧
      t.mem.pmap.read stop = BitVec.ofNat 32 (z + m + marked.toNat) ∧
      (∀ k, k < s.dstCap.toNat → t.mem.bin.read k =
        if k = start then 0x80 else if start < k ∧ k < stop then block.getD (k - start - 1) 0 else 0)

/-- VERIFY of a block, in the order type, spacing, CRC, each check queuing at most one record: the type must be the
legal successor of the last one, the bytes between the declared end of the block before and this one's marker must lie
within the bounds, and the block must have a type byte and a good CRC. The block is counted and its start, type,
declared length and file size are kept for the next (spec/44_recon_decode.md rules R276 to R281). -/
def Obligations.VerifyReportsInOrder : Prop :=
  ∀ (start stop : Nat) (s : State) (k : Walk), s.diagQ.length + 3 ≤ s.cfg.diagCap →
    let n := stop - start
    let typ := if 2 ≤ n then (s.mem.bin.read (start + 1)).toNat else 0
    let want := if k.lastType = 0 then 1 else if k.lastType = 1 then 2 else if k.lastType = 2 then 3
      else if k.lastType = 3 then 4 else if k.lastType = 4 then 3 else 0
    let spacing : Nat → Nat → Int := fun pstart decl => (start : Int) - (pstart + decl + 3)
    let outside : Int → Bool := fun x => x < s.conf.gapBoundLo.toNat || x > s.conf.gapBoundHi.toNat
    let typeReport : List DiagRecord :=
      if want = 0 ∨ typ ≠ want then
        [⟨4, BitVec.ofNat 32 start, BitVec.ofNat 32 ((want <<< 8) ||| typ), BitVec.ofNat 32 stop, 0⟩] else []
    let spacingReport : List DiagRecord :=
      match k.prevStart, k.prevDecl with
      | some pstart, some decl =>
        if outside (spacing pstart decl) then
          [⟨9, BitVec.ofNat 32 start, BitVec.ofInt 32 (spacing pstart decl), BitVec.ofNat 32 pstart,
            BitVec.ofNat 32 decl⟩]
        else []
      | _, _ => []
    let crcReport : List DiagRecord :=
      if n < 4 then [⟨5, BitVec.ofNat 32 start, 0, 0, BitVec.ofNat 32 stop⟩]
      else if crcResidual s.conf (s.mem.bin.readN (start + 1) (n - 1)) = 0 then []
      else [⟨5, BitVec.ofNat 32 start,
        BitVec.ofNat 32 ((s.mem.bin.read (stop - 2)).toNat ||| ((s.mem.bin.read (stop - 1)).toNat <<< 8)),
        (crcGen s.conf (s.mem.bin.readN (start + 1) (n - 3))).setWidth 32, BitVec.ofNat 32 stop⟩]
    let decl := if typ = 1 then some 0x38 else if typ = 2 then some 2 else if typ = 3 then some 16
      else if typ = 4 ∧ k.lastType = 3 then k.fileSize.map (1 + ·) else none
    let size := if typ = 3 ∧ 16 ≤ n then
      some ((s.mem.bin.read (start + 14)).toNat ||| ((s.mem.bin.read (start + 15)).toNat <<< 8)) else none
    verifyBlock start stop s k =
      ({ s with nblocks := s.nblocks + 1, diagQ := s.diagQ ++ typeReport ++ spacingReport ++ crcReport },
        { k with prevStart := some start, prevDecl := decl, fileSize := size, lastType := typ })

/-- RECON is the five passes: issuing RP1, RP2, RP3, RP4 and RP5 one after another gives the same end state, and so the
RESULT and INFO of RP5; IllegalOp where a length register passes its buffer (spec/44_recon_decode.md rule R285). -/
def Obligations.ReconIsFivePasses : Prop :=
  encode .recon = 0x000000000000004F ∧
  (∀ s : State, (s.cfg.symCap < s.symLen.toNat ∨ s.cfg.binCap < s.dstCap.toNat) →
    exec .recon s = .next (s.answered 8 0)) ∧
  (∀ s : State, s.symLen.toNat ≤ s.cfg.symCap → s.dstCap.toNat ≤ s.cfg.binCap →
    ∃ s1 s2 s3 s4 t, exec .rp1 s = .next s1 ∧ exec .rp2 s1 = .next s2 ∧ exec .rp3 s2 = .next s3 ∧
      exec .rp4 s3 = .next s4 ∧ exec .rp5 s4 = .next t ∧ exec .recon s = .next t)

/-- What the operations do with the lengths at 0 as reset leaves them, whatever the buffers hold: QUANT and RP1 to RP4
end OK, DSYM CapacityExceeded with INFO = 1, GAPFIND and DECBLK GapNotFound, DECSEQ OK with INFO = 3, FRSIDE
FormatError, FRBLK IllegalOp, RP5 and RECON OK with OUT_LEN = 0, a NoSignature record, no byte of BIN written and
PMAP[0] 0 (spec/70_reset_and_hazards.md rule R331). -/
def Obligations.OperationsAfterReset : Prop :=
  ∀ (cfg : Config) (mem : Buffers) (host : List HostAction) (free : Nat), 0 < cfg.diagCap →
    let s := State.afterReset cfg mem free host
    let ends : Instr → BitVec 8 → Word → Prop := fun i code info =>
      ∃ t, exec i s = .next t ∧ t.result = code ∧ t.info = info ∧ t.mem.sym = mem.sym ∧ t.mem.bin = mem.bin
    ends .quant 0 0 ∧ ends .rp1 0 0 ∧ ends .rp2 0 0 ∧ ends .rp3 0 0 ∧ ends .rp4 0 0 ∧
    (∀ v, ends (.dsym v) 2 1) ∧ ends .gapfind 3 0 ∧
    (∀ (y : Byte) (n : Word), 1 ≤ n.toNat → n.toNat ≤ 65536 → ends (.decblk y n) 3 0) ∧
    ends .decseq 0 3 ∧ ends .frside 1 0 ∧ (∀ a n, ends (.frblk a n) 8 0) ∧ ends .rp5 0 0 ∧ ends .recon 0 0 ∧
    (∀ i, i = .rp5 ∨ i = .recon → ∀ t, exec i s = .next t →
      t.outLen = 0 ∧ t.diagQ = [⟨10, 0, 0, 0, 0⟩] ∧ t.mem.pmap.read 0 = 0)
end

