-- ==== Sys2Proof/Laws/Memory.lean ====
section
/-! SUPPORT. Laws/Memory.lean: what every buffer operation does, once: a read after a write, and that each write keeps
the canonical form and the capacity. -/

namespace Sys2Proof.Machine

variable {w : Nat}

@[simp] theorem Memory.read_nil (k : Nat) : Memory.read ([] : Memory w) k = unwritten := rfl

theorem Memory.read_cons (b : Nat) (v : BitVec w) (m : Memory w) (k : Nat) :
    Memory.read ((b, v) :: m) k = if b = k then v else m.read k := rfl

theorem Memory.read_of_not_listed (m : Memory w) (k : Nat) (h : ∀ c ∈ m, c.1 ≠ k) : m.read k = unwritten := by
  induction m with
  | nil => rfl
  | cons c m ih =>
    obtain ⟨b, v⟩ := c
    rw [Memory.read_cons, if_neg (h (b, v) (by simp))]
    exact ih (fun c hc => h c (by simp [hc]))

theorem Memory.read_append_left (m1 m2 : Memory w) (k : Nat) (h : ∀ c ∈ m2, c.1 ≠ k) :
    Memory.read (m1 ++ m2) k = m1.read k := by
  induction m1 with
  | nil => exact Memory.read_of_not_listed m2 k h
  | cons c m ih =>
    obtain ⟨b, v⟩ := c
    simp only [List.cons_append, Memory.read_cons, ih]

theorem Memory.read_append_right (m1 m2 : Memory w) (k : Nat) (h : ∀ c ∈ m1, c.1 ≠ k) :
    Memory.read (m1 ++ m2) k = m2.read k := by
  induction m1 with
  | nil => rfl
  | cons c m ih =>
    obtain ⟨b, v⟩ := c
    rw [List.cons_append, Memory.read_cons, if_neg (h (b, v) (by simp))]
    exact ih (fun c hc => h c (by simp [hc]))

theorem Memory.read_filter (p : Nat × BitVec w → Bool) (m : Memory w) (k : Nat) (h : ∀ v, p (k, v) = true) :
    Memory.read (m.filter p) k = m.read k := by
  induction m with
  | nil => rfl
  | cons c m ih =>
    obtain ⟨b, v⟩ := c
    by_cases hb : b = k
    · subst hb
      simp [h v, Memory.read_cons]
    · rw [Memory.read_cons, if_neg hb, ← ih, List.filter_cons]
      split
      · rw [Memory.read_cons, if_neg hb]
      · rfl

theorem Memory.mem_listed (a : Nat) (vs : List (BitVec w)) :
    ∀ c ∈ Memory.listed a vs, a ≤ c.1 ∧ c.1 < a + vs.length ∧ c.2 ≠ unwritten := by
  induction vs generalizing a with
  | nil => simp [Memory.listed]
  | cons v vs ih =>
    intro c hc
    rw [Memory.listed] at hc
    have step : c ∈ Memory.listed (a + 1) vs → a ≤ c.1 ∧ c.1 < a + (v :: vs).length ∧ c.2 ≠ unwritten := by
      intro h
      obtain ⟨h1, h2, h3⟩ := ih (a + 1) c h
      refine ⟨by omega, ?_, h3⟩
      simp only [List.length_cons]
      omega
    split at hc
    · exact step hc
    · rename_i hv
      rcases List.mem_cons.mp hc with rfl | hc
      · exact ⟨le_refl _, by simp, hv⟩
      · exact step hc

theorem Memory.read_listed (a : Nat) (vs : List (BitVec w)) (k : Nat) :
    Memory.read (Memory.listed a vs) k =
      if a ≤ k ∧ k < a + vs.length then vs.getD (k - a) unwritten else unwritten := by
  induction vs generalizing a with
  | nil => simp [Memory.listed]
  | cons v vs ih =>
    rw [Memory.listed]
    by_cases hk : k = a
    · subst hk
      split
      · rename_i hv
        rw [ih]
        simp [hv]
      · simp [Memory.read_cons]
    · have hne : ¬ a = k := fun h => hk h.symm
      have key : Memory.read (Memory.listed (a + 1) vs) k =
          if a ≤ k ∧ k < a + (v :: vs).length then (v :: vs).getD (k - a) unwritten else unwritten := by
        rw [ih]
        by_cases hlt : a + 1 ≤ k
        · obtain ⟨d, rfl⟩ := Nat.exists_eq_add_of_le hlt
          have e1 : a + 1 + d - (a + 1) = d := by omega
          have e2 : a + 1 + d - a = d + 1 := by omega
          simp only [e1, e2, List.length_cons, List.getD_cons_succ]
          congr 1
          simp only [eq_iff_iff]
          omega
        · rw [if_neg (by omega), if_neg (by omega)]
      split
      · exact key
      · rw [Memory.read_cons, if_neg hne, key]

theorem Memory.read_writeN (m : Memory w) (a : Nat) (vs : List (BitVec w)) (k : Nat) :
    (m.writeN a vs).read k = if a ≤ k ∧ k < a + vs.length then vs.getD (k - a) unwritten else m.read k := by
  unfold Memory.writeN
  by_cases h1 : k < a
  · rw [if_neg (by omega), List.append_assoc, Memory.read_append_left, Memory.read_filter _ _ _ (by simp [h1])]
    intro c hc
    rcases List.mem_append.mp hc with h | h
    · have := (Memory.mem_listed a vs c h).1
      omega
    · have := (List.mem_filter.mp h).2
      simp only [decide_eq_true_eq] at this
      omega
  · have hleft : ∀ c ∈ m.filter (fun c => decide (c.1 < a)), c.1 ≠ k := by
      intro c h
      have := (List.mem_filter.mp h).2
      simp only [decide_eq_true_eq] at this
      omega
    rw [List.append_assoc, Memory.read_append_right _ _ _ hleft]
    by_cases h2 : k < a + vs.length
    · rw [if_pos ⟨by omega, h2⟩, Memory.read_append_left, Memory.read_listed, if_pos ⟨by omega, h2⟩]
      intro c h
      have := (List.mem_filter.mp h).2
      simp only [decide_eq_true_eq] at this
      omega
    · rw [if_neg (by omega), Memory.read_append_right, Memory.read_filter _ _ _ (by simp; omega)]
      intro c h
      have := (Memory.mem_listed a vs c h).2.1
      omega

theorem Memory.read_write (m : Memory w) (a : Nat) (v : BitVec w) (k : Nat) :
    (m.write a v).read k = if k = a then v else m.read k := by
  unfold Memory.write
  rw [Memory.read_writeN]
  by_cases h : k = a
  · subst h
    simp
  · rw [if_neg (by simp; omega), if_neg h]

@[simp] theorem Memory.read_write_self (m : Memory w) (a : Nat) (v : BitVec w) : (m.write a v).read a = v := by
  rw [Memory.read_write, if_pos rfl]

theorem Memory.read_write_other (m : Memory w) (a : Nat) (v : BitVec w) (k : Nat) (h : k ≠ a) :
    (m.write a v).read k = m.read k := by
  rw [Memory.read_write, if_neg h]

theorem Memory.read_zeroN (m : Memory w) (a n k : Nat) :
    (m.zeroN a n).read k = if a ≤ k ∧ k < a + n then unwritten else m.read k := by
  unfold Memory.zeroN
  split
  · apply Memory.read_of_not_listed
    intro c h
    have := (List.mem_filter.mp h).2
    simp only [decide_eq_true_eq] at this
    omega
  · rw [Memory.read_filter]
    intro v
    simp only [decide_eq_true_eq]
    omega

theorem Memory.mem_writeN (m : Memory w) (a : Nat) (vs : List (BitVec w)) (c : Nat × BitVec w)
    (h : c ∈ m.writeN a vs) : c ∈ m ∨ (a ≤ c.1 ∧ c.1 < a + vs.length ∧ c.2 ≠ unwritten) := by
  unfold Memory.writeN at h
  rcases List.mem_append.mp h with h | h
  · rcases List.mem_append.mp h with h | h
    · exact .inl (List.mem_filter.mp h).1
    · exact .inr (Memory.mem_listed a vs c h)
  · exact .inl (List.mem_filter.mp h).1

theorem Memory.pairwise_listed (a : Nat) (vs : List (BitVec w)) :
    (Memory.listed a vs).Pairwise (fun c d => c.1 < d.1) := by
  induction vs generalizing a with
  | nil => exact List.Pairwise.nil
  | cons v vs ih =>
    rw [Memory.listed]
    split
    · exact ih (a + 1)
    · refine List.Pairwise.cons ?_ (ih (a + 1))
      intro d hd
      have := (Memory.mem_listed (a + 1) vs d hd).1
      show a < d.1
      omega

/-- A write keeps the canonical form. -/
theorem Memory.wf_writeN (m : Memory w) (a : Nat) (vs : List (BitVec w)) (h : m.wf) : (m.writeN a vs).wf := by
  refine ⟨?_, ?_⟩
  · unfold Memory.writeN
    rw [List.pairwise_append, List.pairwise_append]
    refine ⟨⟨h.1.filter _, Memory.pairwise_listed a vs, ?_⟩, h.1.filter _, ?_⟩
    · intro c hc d hd
      have h1 := (List.mem_filter.mp hc).2
      have h2 := (Memory.mem_listed a vs d hd).1
      simp only [decide_eq_true_eq] at h1
      omega
    · intro c hc d hd
      have h2 := (List.mem_filter.mp hd).2
      simp only [decide_eq_true_eq] at h2
      rcases List.mem_append.mp hc with hc | hc
      · have h1 := (List.mem_filter.mp hc).2
        simp only [decide_eq_true_eq] at h1
        omega
      · have h1 := (Memory.mem_listed a vs c hc).2.1
        omega
  · intro c hc
    rcases Memory.mem_writeN m a vs c hc with hm | hm
    · exact h.2 c hm
    · exact hm.2.2

theorem Memory.wf_write (m : Memory w) (a : Nat) (v : BitVec w) (h : m.wf) : (m.write a v).wf :=
  Memory.wf_writeN m a [v] h

/-- Zeroing keeps the canonical form. -/
theorem Memory.wf_zeroN (m : Memory w) (a n : Nat) (h : m.wf) : (m.zeroN a n).wf :=
  ⟨h.1.filter _, fun c hc => h.2 c (List.mem_filter.mp hc).1⟩

/-- A write below the capacity keeps every listed index below it. -/
theorem Memory.below_writeN (m : Memory w) (a cap : Nat) (vs : List (BitVec w)) (h : m.below cap)
    (ha : a + vs.length ≤ cap) : (m.writeN a vs).below cap := by
  intro c hc
  rcases Memory.mem_writeN m a vs c hc with hm | hm
  · exact h c hm
  · omega

theorem Memory.below_write (m : Memory w) (a cap : Nat) (v : BitVec w) (h : m.below cap) (ha : a < cap) :
    (m.write a v).below cap :=
  Memory.below_writeN m a cap [v] h (by simpa using ha)

theorem Memory.below_zeroN (m : Memory w) (a n cap : Nat) (h : m.below cap) : (m.zeroN a n).below cap :=
  fun c hc => h c (List.mem_filter.mp hc).1

theorem Memory.wf_nil : Memory.wf ([] : Memory w) := ⟨List.Pairwise.nil, by simp⟩

theorem Memory.normalise_keeps (cap : Nat) (cells m : Memory w) (hw : m.wf) (hb : m.below cap) :
    Memory.wf (cells.foldl (fun m c => if c.1 < cap then m.write c.1 c.2 else m) m) ∧
      Memory.below (cells.foldl (fun m c => if c.1 < cap then m.write c.1 c.2 else m) m) cap := by
  induction cells generalizing m with
  | nil => exact ⟨hw, hb⟩
  | cons c cells ih =>
    rw [List.foldl_cons]
    split
    · rename_i hc
      exact ih _ (Memory.wf_write m _ _ hw) (Memory.below_write m _ _ _ hb hc)
    · exact ih m hw hb

/-- Normalised contents are canonical. -/
theorem Memory.wf_normalise (cap : Nat) (cells : Memory w) : (Memory.normalise cap cells).wf :=
  (Memory.normalise_keeps cap cells [] Memory.wf_nil (by simp)).1

/-- Normalised contents lie below the capacity. -/
theorem Memory.below_normalise (cap : Nat) (cells : Memory w) : (Memory.normalise cap cells).below cap :=
  (Memory.normalise_keeps cap cells [] Memory.wf_nil (by simp)).2

theorem Memory.read_of_lt (m : Memory w) (k : Nat) (h : ∀ c ∈ m, k < c.1) : m.read k = unwritten :=
  Memory.read_of_not_listed m k (fun c hc => Nat.ne_of_gt (h c hc))

/-- Equal memories are equal data: canonical contents that read alike are the same list. -/
theorem Memory.ext_of_wf (m1 m2 : Memory w) (h1 : m1.wf) (h2 : m2.wf) (h : ∀ k, m1.read k = m2.read k) :
    m1 = m2 := by
  induction m1 generalizing m2 with
  | nil =>
    cases m2 with
    | nil => rfl
    | cons c m2 =>
      obtain ⟨b, v⟩ := c
      have := h b
      rw [Memory.read_nil, Memory.read_cons, if_pos rfl] at this
      exact absurd this.symm (h2.2 (b, v) (by simp))
  | cons c m1 ih =>
    obtain ⟨a, u⟩ := c
    have ha : ∀ d ∈ m1, a < d.1 := fun d hd => List.rel_of_pairwise_cons h1.1 hd
    have hu : u ≠ unwritten := h1.2 (a, u) (by simp)
    cases m2 with
    | nil =>
      have := h a
      rw [Memory.read_nil, Memory.read_cons, if_pos rfl] at this
      exact absurd this hu
    | cons d m2 =>
      obtain ⟨b, v⟩ := d
      have hb : ∀ d ∈ m2, b < d.1 := fun d hd => List.rel_of_pairwise_cons h2.1 hd
      have hv : v ≠ unwritten := h2.2 (b, v) (by simp)
      have hab : a = b := by
        rcases Nat.lt_trichotomy a b with hlt | heq | hgt
        · have := h a
          rw [Memory.read_cons, if_pos rfl, Memory.read_cons, if_neg (by omega),
            Memory.read_of_lt m2 a (fun d hd => by have := hb d hd; omega)] at this
          exact absurd this hu
        · exact heq
        · have := h b
          rw [Memory.read_cons, if_neg (by omega), Memory.read_cons, if_pos rfl,
            Memory.read_of_lt m1 b (fun d hd => by have := ha d hd; omega)] at this
          exact absurd this.symm hv
      subst hab
      have huv : u = v := by
        have := h a
        rwa [Memory.read_cons, if_pos rfl, Memory.read_cons, if_pos rfl] at this
      subst huv
      congr 1
      refine ih m2 ⟨h1.1.of_cons, fun c hc => h1.2 c (by simp [hc])⟩
        ⟨h2.1.of_cons, fun c hc => h2.2 c (by simp [hc])⟩ (fun k => ?_)
      by_cases hk : a = k
      · subst hk
        rw [Memory.read_of_lt m1 a ha, Memory.read_of_lt m2 a hb]
      · have := h k
        rwa [Memory.read_cons, if_neg hk, Memory.read_cons, if_neg hk] at this

@[simp] theorem Memory.readN_length (m : Memory w) (a n : Nat) : (m.readN a n).length = n := by
  induction n generalizing a with
  | zero => rfl
  | succ n ih => simp [Memory.readN, ih]

theorem Memory.readN_getD (m : Memory w) (a n i : Nat) (v : BitVec w) :
    (m.readN a n).getD i v = if i < n then m.read (a + i) else v := by
  induction n generalizing a i with
  | zero => simp [Memory.readN]
  | succ n ih =>
    cases i with
    | zero => simp [Memory.readN]
    | succ i =>
      rw [Memory.readN, List.getD_cons_succ, ih]
      have : a + 1 + i = a + (i + 1) := by omega
      simp [this]

theorem Memory.readN_add (m : Memory w) (a n k : Nat) :
    m.readN a (n + k) = m.readN a n ++ m.readN (a + n) k := by
  induction n generalizing a with
  | zero => simp [Memory.readN]
  | succ n ih =>
    have : n + 1 + k = (n + k) + 1 := by omega
    rw [this, Memory.readN, ih, Memory.readN, List.cons_append]
    congr 3
    omega

/-- Entries that read alike are read alike in sequence. -/
theorem Memory.readN_congr (m1 m2 : Memory w) (a n : Nat) (h : ∀ i, i < n → m1.read (a + i) = m2.read (a + i)) :
    m1.readN a n = m2.readN a n := by
  induction n generalizing a with
  | zero => rfl
  | succ n ih =>
    rw [Memory.readN, Memory.readN]
    refine List.cons_eq_cons.mpr ⟨h 0 (by omega), ih (a + 1) (fun i hi => ?_)⟩
    have := h (i + 1) (by omega)
    have e : a + (i + 1) = a + 1 + i := by omega
    rwa [e] at this

/-- What was stored is read back in sequence. -/
theorem Memory.readN_writeN (m : Memory w) (a : Nat) (vs : List (BitVec w)) :
    (m.writeN a vs).readN a vs.length = vs := by
  apply List.ext_getElem?
  intro i
  have h1 := Memory.readN_getD (m.writeN a vs) a vs.length i unwritten
  by_cases hi : i < vs.length
  · rw [if_pos hi, Memory.read_writeN, if_pos ⟨by omega, by omega⟩] at h1
    have e : a + i - a = i := by omega
    rw [e] at h1
    have l1 : i < ((m.writeN a vs).readN a vs.length).length := by simpa using hi
    rw [List.getElem?_eq_getElem l1, List.getElem?_eq_getElem hi]
    simpa [List.getD_eq_getElem?_getD, List.getElem?_eq_getElem l1, List.getElem?_eq_getElem hi] using h1
  · rw [List.getElem?_eq_none (by simpa using hi), List.getElem?_eq_none (by simpa using hi)]

theorem getLsbD_putBit (v : BitVec w) (k : Nat) (b : Bool) (j : Nat) (hj : j < w) :
    (putBit v k b).getLsbD j = if j = k then b else v.getLsbD j := by
  unfold putBit
  cases b
  · by_cases h : j = k
    · subst h
      simp [hj]
    · rcases Nat.lt_or_ge j k with hlt | hge
      · simp [hj, h, hlt]
      · have e : j - k ≠ 0 := by omega
        simp [hj, h, e]
  · by_cases h : j = k
    · subst h
      simp [hj]
    · rcases Nat.lt_or_ge j k with hlt | hge
      · simp [h, hlt]
      · have e : j - k ≠ 0 := by omega
        simp [h, e]

/-- A bit written reads back, every other bit reads as before (spec/20_memory.md rule R65). -/
theorem Memory.readBit_writeBit (m : Memory 8) (k : Nat) (b : Bool) (j : Nat) :
    (m.writeBit k b).readBit j = if j = k then b else m.readBit j := by
  unfold Memory.readBit Memory.writeBit
  rw [Memory.read_write]
  by_cases hd : j / 8 = k / 8
  · rw [if_pos hd, getLsbD_putBit _ _ _ _ (by omega), hd]
    by_cases h : j = k
    · rw [if_pos h, if_pos (by omega)]
    · rw [if_neg h, if_neg (by omega)]
  · rw [if_neg hd, if_neg (by omega)]

theorem Memory.readBit_writeBits (m : Memory 8) (k : Nat) (bs : List Bool) (j : Nat) :
    (m.writeBits k bs).readBit j = if k ≤ j ∧ j < k + bs.length then bs.getD (j - k) false else m.readBit j := by
  induction bs generalizing m k with
  | nil =>
    rw [Memory.writeBits, if_neg (by simp)]
  | cons b bs ih =>
    rw [Memory.writeBits, ih, Memory.readBit_writeBit]
    by_cases h : j = k
    · subst h
      rw [if_neg (by omega), if_pos rfl, if_pos (by simp)]
      simp
    · rw [if_neg h]
      by_cases hr : k + 1 ≤ j ∧ j < k + 1 + bs.length
      · obtain ⟨d, hd⟩ := Nat.exists_eq_add_of_le hr.1
        rw [if_pos hr, if_pos (by simp; omega)]
        have e1 : j - (k + 1) = d := by omega
        have e2 : j - k = d + 1 := by omega
        rw [e1, e2, List.getD_cons_succ]
      · rw [if_neg hr, if_neg (by simp; omega)]

theorem Memory.wf_writeBit (m : Memory 8) (k : Nat) (b : Bool) (h : m.wf) : (m.writeBit k b).wf :=
  Memory.wf_write m _ _ h

theorem Memory.below_writeBit (m : Memory 8) (k cap : Nat) (b : Bool) (h : m.below cap) (hk : k < cap * 8) :
    (m.writeBit k b).below cap :=
  Memory.below_write m _ _ _ h (by omega)

theorem Memory.wf_writeBits (m : Memory 8) (k : Nat) (bs : List Bool) (h : m.wf) : (m.writeBits k bs).wf := by
  induction bs generalizing m k with
  | nil => exact h
  | cons b bs ih => exact ih _ _ (Memory.wf_writeBit m k b h)

theorem Memory.below_writeBits (m : Memory 8) (k cap : Nat) (bs : List Bool) (h : m.below cap)
    (hk : k + bs.length ≤ cap * 8) : (m.writeBits k bs).below cap := by
  induction bs generalizing m k with
  | nil => exact h
  | cons b bs ih =>
    simp only [List.length_cons] at hk
    exact ih _ _ (Memory.below_writeBit m k cap b h (by omega)) (by omega)

/-- Two bytes are equal when their bits are: a byte read bit by bit. -/
theorem Memory.read_eq_of_readBit (m1 m2 : Memory 8) (a : Nat)
    (h : ∀ j, j < 8 → m1.readBit (8 * a + j) = m2.readBit (8 * a + j)) : m1.read a = m2.read a := by
  apply BitVec.eq_of_getLsbD_eq
  intro j hj
  have := h j hj
  unfold Memory.readBit at this
  have e1 : (8 * a + j) / 8 = a := by omega
  have e2 : (8 * a + j) % 8 = j := by omega
  rwa [e1, e2] at this

end Sys2Proof.Machine
end

