-- ==== Sys2Proof/Laws/Crc.lean ====
section
/-! SUPPORT. Laws/Crc.lean: the CRC unit over sequences. -/

namespace Sys2Proof.Machine

@[simp] theorem crcBits_nil (reg : CrcWord) : crcBits reg [] = reg := rfl

theorem crcBits_cons (reg : CrcWord) (b : Bool) (bs : List Bool) :
    crcBits reg (b :: bs) = crcBits (crcBit reg b) bs := rfl

theorem crcBits_append (reg : CrcWord) (xs ys : List Bool) :
    crcBits reg (xs ++ ys) = crcBits (crcBits reg xs) ys := List.foldl_append

@[simp] theorem crcStream_nil (reg : CrcWord) : crcStream reg [] = reg := rfl

theorem crcStream_cons (reg : CrcWord) (v : Byte) (vs : List Byte) :
    crcStream reg (v :: vs) = crcStream (crcByte reg v) vs := rfl

theorem crcStream_append (reg : CrcWord) (xs ys : List Byte) :
    crcStream reg (xs ++ ys) = crcStream (crcStream reg xs) ys := List.foldl_append

/-- Bytes are their bits, least significant first (spec/40_crc.md rule R132, spec/20_memory.md rule R62). -/
theorem crcStream_eq_crcBits (reg : CrcWord) (vs : List Byte) :
    crcStream reg vs = crcBits reg (vs.flatMap bitsOfByte) := by
  induction vs generalizing reg with
  | nil => rfl
  | cons v vs ih =>
    rw [crcStream_cons, ih, List.flatMap_cons, crcBits_append]
    rfl

theorem crcGen_eq (c : ConfRegs) (p : List Byte) :
    crcGen c p = crcByte (crcByte (crcStream (crcStart c) p) 0) 0 := by
  rw [crcGen, crcStream_append]
  rfl

/-- The bytes of a buffer shifted in are the entries read one after another. -/
theorem crcStream_readN (reg : CrcWord) (m : Memory 8) (a n : Nat) :
    crcStream reg (m.readN a n) = (List.range n).foldl (fun c i => crcByte c (m.read (a + i))) reg := by
  induction n with
  | zero => rfl
  | succ n ih =>
    rw [Memory.readN_add m a n 1, crcStream_append, ih, List.range_succ, List.foldl_append]
    rfl

end Sys2Proof.Machine
end

