-- ==== Sys2Proof/Laws/State.lean ====
section
/-! SUPPORT. Laws/State.lean: one lemma per field per shared update, so that no later proof unfolds a record update. -/

namespace Sys2Proof.Machine

@[simp] theorem State.setFlag_cfg (s : State) (f : Flag) (b : Bool) : (s.setFlag f b).cfg = s.cfg := rfl
@[simp] theorem State.setFlag_conf (s : State) (f : Flag) (b : Bool) : (s.setFlag f b).conf = s.conf := rfl
@[simp] theorem State.setFlag_crc (s : State) (f : Flag) (b : Bool) : (s.setFlag f b).crc = s.crc := rfl
@[simp] theorem State.setFlag_status (s : State) (f : Flag) (b : Bool) :
    (s.setFlag f b).status = putBit s.status (flagBit f) b := rfl
@[simp] theorem State.setFlag_result (s : State) (f : Flag) (b : Bool) : (s.setFlag f b).result = s.result := rfl
@[simp] theorem State.setFlag_info (s : State) (f : Flag) (b : Bool) : (s.setFlag f b).info = s.info := rfl
@[simp] theorem State.setFlag_symLen (s : State) (f : Flag) (b : Bool) : (s.setFlag f b).symLen = s.symLen := rfl
@[simp] theorem State.setFlag_inCur (s : State) (f : Flag) (b : Bool) : (s.setFlag f b).inCur = s.inCur := rfl
@[simp] theorem State.setFlag_outCur (s : State) (f : Flag) (b : Bool) : (s.setFlag f b).outCur = s.outCur := rfl
@[simp] theorem State.setFlag_outBit (s : State) (f : Flag) (b : Bool) : (s.setFlag f b).outBit = s.outBit := rfl
@[simp] theorem State.setFlag_outLen (s : State) (f : Flag) (b : Bool) : (s.setFlag f b).outLen = s.outLen := rfl
@[simp] theorem State.setFlag_srcLen (s : State) (f : Flag) (b : Bool) : (s.setFlag f b).srcLen = s.srcLen := rfl
@[simp] theorem State.setFlag_dstCap (s : State) (f : Flag) (b : Bool) : (s.setFlag f b).dstCap = s.dstCap := rfl
@[simp] theorem State.setFlag_nblocks (s : State) (f : Flag) (b : Bool) : (s.setFlag f b).nblocks = s.nblocks := rfl
@[simp] theorem State.setFlag_sigPos (s : State) (f : Flag) (b : Bool) : (s.setFlag f b).sigPos = s.sigPos := rfl
@[simp] theorem State.setFlag_gapEnd (s : State) (f : Flag) (b : Bool) : (s.setFlag f b).gapEnd = s.gapEnd := rfl
@[simp] theorem State.setFlag_diagRec (s : State) (f : Flag) (b : Bool) : (s.setFlag f b).diagRec = s.diagRec := rfl
@[simp] theorem State.setFlag_diagQ (s : State) (f : Flag) (b : Bool) : (s.setFlag f b).diagQ = s.diagQ := rfl
@[simp] theorem State.setFlag_mem (s : State) (f : Flag) (b : Bool) : (s.setFlag f b).mem = s.mem := rfl
@[simp] theorem State.setFlag_freeCount (s : State) (f : Flag) (b : Bool) :
    (s.setFlag f b).freeCount = s.freeCount := rfl
@[simp] theorem State.setFlag_host (s : State) (f : Flag) (b : Bool) : (s.setFlag f b).host = s.host := rfl
@[simp] theorem State.setFlag_response (s : State) (f : Flag) (b : Bool) :
    (s.setFlag f b).response = s.response := rfl
@[simp] theorem State.setFlag_readback (s : State) (f : Flag) (b : Bool) :
    (s.setFlag f b).readback = s.readback := rfl

@[simp] theorem State.setCrc_cfg (s : State) (v : CrcWord) : (s.setCrc v).cfg = s.cfg := rfl
@[simp] theorem State.setCrc_conf (s : State) (v : CrcWord) : (s.setCrc v).conf = s.conf := rfl
@[simp] theorem State.setCrc_crc (s : State) (v : CrcWord) : (s.setCrc v).crc = v := rfl
@[simp] theorem State.setCrc_status (s : State) (v : CrcWord) :
    (s.setCrc v).status = putBit s.status 0 (v == 0) := rfl
@[simp] theorem State.setCrc_result (s : State) (v : CrcWord) : (s.setCrc v).result = s.result := rfl
@[simp] theorem State.setCrc_info (s : State) (v : CrcWord) : (s.setCrc v).info = s.info := rfl
@[simp] theorem State.setCrc_symLen (s : State) (v : CrcWord) : (s.setCrc v).symLen = s.symLen := rfl
@[simp] theorem State.setCrc_inCur (s : State) (v : CrcWord) : (s.setCrc v).inCur = s.inCur := rfl
@[simp] theorem State.setCrc_outCur (s : State) (v : CrcWord) : (s.setCrc v).outCur = s.outCur := rfl
@[simp] theorem State.setCrc_outBit (s : State) (v : CrcWord) : (s.setCrc v).outBit = s.outBit := rfl
@[simp] theorem State.setCrc_outLen (s : State) (v : CrcWord) : (s.setCrc v).outLen = s.outLen := rfl
@[simp] theorem State.setCrc_srcLen (s : State) (v : CrcWord) : (s.setCrc v).srcLen = s.srcLen := rfl
@[simp] theorem State.setCrc_dstCap (s : State) (v : CrcWord) : (s.setCrc v).dstCap = s.dstCap := rfl
@[simp] theorem State.setCrc_nblocks (s : State) (v : CrcWord) : (s.setCrc v).nblocks = s.nblocks := rfl
@[simp] theorem State.setCrc_sigPos (s : State) (v : CrcWord) : (s.setCrc v).sigPos = s.sigPos := rfl
@[simp] theorem State.setCrc_gapEnd (s : State) (v : CrcWord) : (s.setCrc v).gapEnd = s.gapEnd := rfl
@[simp] theorem State.setCrc_diagRec (s : State) (v : CrcWord) : (s.setCrc v).diagRec = s.diagRec := rfl
@[simp] theorem State.setCrc_diagQ (s : State) (v : CrcWord) : (s.setCrc v).diagQ = s.diagQ := rfl
@[simp] theorem State.setCrc_mem (s : State) (v : CrcWord) : (s.setCrc v).mem = s.mem := rfl
@[simp] theorem State.setCrc_freeCount (s : State) (v : CrcWord) : (s.setCrc v).freeCount = s.freeCount := rfl
@[simp] theorem State.setCrc_host (s : State) (v : CrcWord) : (s.setCrc v).host = s.host := rfl
@[simp] theorem State.setCrc_response (s : State) (v : CrcWord) : (s.setCrc v).response = s.response := rfl
@[simp] theorem State.setCrc_readback (s : State) (v : CrcWord) : (s.setCrc v).readback = s.readback := rfl

@[simp] theorem State.finish_cfg (s : State) (c : ResultCode) (n : Nat) : (s.finish c n).cfg = s.cfg := rfl
@[simp] theorem State.finish_conf (s : State) (c : ResultCode) (n : Nat) : (s.finish c n).conf = s.conf := rfl
@[simp] theorem State.finish_crc (s : State) (c : ResultCode) (n : Nat) : (s.finish c n).crc = s.crc := rfl
@[simp] theorem State.finish_status (s : State) (c : ResultCode) (n : Nat) : (s.finish c n).status = s.status := rfl
@[simp] theorem State.finish_result (s : State) (c : ResultCode) (n : Nat) : (s.finish c n).result = codeByte c := rfl
@[simp] theorem State.finish_info (s : State) (c : ResultCode) (n : Nat) : (s.finish c n).info = word32 n := rfl
@[simp] theorem State.finish_symLen (s : State) (c : ResultCode) (n : Nat) : (s.finish c n).symLen = s.symLen := rfl
@[simp] theorem State.finish_inCur (s : State) (c : ResultCode) (n : Nat) : (s.finish c n).inCur = s.inCur := rfl
@[simp] theorem State.finish_outCur (s : State) (c : ResultCode) (n : Nat) : (s.finish c n).outCur = s.outCur := rfl
@[simp] theorem State.finish_outBit (s : State) (c : ResultCode) (n : Nat) : (s.finish c n).outBit = s.outBit := rfl
@[simp] theorem State.finish_outLen (s : State) (c : ResultCode) (n : Nat) : (s.finish c n).outLen = s.outLen := rfl
@[simp] theorem State.finish_srcLen (s : State) (c : ResultCode) (n : Nat) : (s.finish c n).srcLen = s.srcLen := rfl
@[simp] theorem State.finish_dstCap (s : State) (c : ResultCode) (n : Nat) : (s.finish c n).dstCap = s.dstCap := rfl
@[simp] theorem State.finish_nblocks (s : State) (c : ResultCode) (n : Nat) :
    (s.finish c n).nblocks = s.nblocks := rfl
@[simp] theorem State.finish_sigPos (s : State) (c : ResultCode) (n : Nat) : (s.finish c n).sigPos = s.sigPos := rfl
@[simp] theorem State.finish_gapEnd (s : State) (c : ResultCode) (n : Nat) : (s.finish c n).gapEnd = s.gapEnd := rfl
@[simp] theorem State.finish_diagRec (s : State) (c : ResultCode) (n : Nat) :
    (s.finish c n).diagRec = s.diagRec := rfl
@[simp] theorem State.finish_diagQ (s : State) (c : ResultCode) (n : Nat) : (s.finish c n).diagQ = s.diagQ := rfl
@[simp] theorem State.finish_mem (s : State) (c : ResultCode) (n : Nat) : (s.finish c n).mem = s.mem := rfl
@[simp] theorem State.finish_freeCount (s : State) (c : ResultCode) (n : Nat) :
    (s.finish c n).freeCount = s.freeCount := rfl
@[simp] theorem State.finish_host (s : State) (c : ResultCode) (n : Nat) : (s.finish c n).host = s.host := rfl
@[simp] theorem State.finish_response (s : State) (c : ResultCode) (n : Nat) :
    (s.finish c n).response = some ⟨codeByte c, 0⟩ := rfl
@[simp] theorem State.finish_readback (s : State) (c : ResultCode) (n : Nat) :
    (s.finish c n).readback = s.readback := rfl

@[simp] theorem State.illegal_cfg (s : State) : s.illegal.cfg = s.cfg := rfl
@[simp] theorem State.illegal_conf (s : State) : s.illegal.conf = s.conf := rfl
@[simp] theorem State.illegal_crc (s : State) : s.illegal.crc = s.crc := rfl
@[simp] theorem State.illegal_status (s : State) : s.illegal.status = s.status := rfl
@[simp] theorem State.illegal_result (s : State) : s.illegal.result = codeByte .illegalOp := rfl
@[simp] theorem State.illegal_info (s : State) : s.illegal.info = word32 0 := rfl
@[simp] theorem State.illegal_symLen (s : State) : s.illegal.symLen = s.symLen := rfl
@[simp] theorem State.illegal_inCur (s : State) : s.illegal.inCur = s.inCur := rfl
@[simp] theorem State.illegal_outCur (s : State) : s.illegal.outCur = s.outCur := rfl
@[simp] theorem State.illegal_outBit (s : State) : s.illegal.outBit = s.outBit := rfl
@[simp] theorem State.illegal_outLen (s : State) : s.illegal.outLen = s.outLen := rfl
@[simp] theorem State.illegal_srcLen (s : State) : s.illegal.srcLen = s.srcLen := rfl
@[simp] theorem State.illegal_dstCap (s : State) : s.illegal.dstCap = s.dstCap := rfl
@[simp] theorem State.illegal_nblocks (s : State) : s.illegal.nblocks = s.nblocks := rfl
@[simp] theorem State.illegal_sigPos (s : State) : s.illegal.sigPos = s.sigPos := rfl
@[simp] theorem State.illegal_gapEnd (s : State) : s.illegal.gapEnd = s.gapEnd := rfl
@[simp] theorem State.illegal_diagRec (s : State) : s.illegal.diagRec = s.diagRec := rfl
@[simp] theorem State.illegal_diagQ (s : State) : s.illegal.diagQ = s.diagQ := rfl
@[simp] theorem State.illegal_mem (s : State) : s.illegal.mem = s.mem := rfl
@[simp] theorem State.illegal_freeCount (s : State) : s.illegal.freeCount = s.freeCount := rfl
@[simp] theorem State.illegal_host (s : State) : s.illegal.host = s.host := rfl
@[simp] theorem State.illegal_response (s : State) : s.illegal.response = some ⟨codeByte .illegalOp, 0⟩ := rfl
@[simp] theorem State.illegal_readback (s : State) : s.illegal.readback = s.readback := rfl

@[simp] theorem State.pushDiag_cfg (s : State) (r : DiagRecord) : (s.pushDiag r).cfg = s.cfg := rfl
@[simp] theorem State.pushDiag_conf (s : State) (r : DiagRecord) : (s.pushDiag r).conf = s.conf := rfl
@[simp] theorem State.pushDiag_crc (s : State) (r : DiagRecord) : (s.pushDiag r).crc = s.crc := rfl
@[simp] theorem State.pushDiag_status (s : State) (r : DiagRecord) : (s.pushDiag r).status = s.status := rfl
@[simp] theorem State.pushDiag_result (s : State) (r : DiagRecord) : (s.pushDiag r).result = s.result := rfl
@[simp] theorem State.pushDiag_info (s : State) (r : DiagRecord) : (s.pushDiag r).info = s.info := rfl
@[simp] theorem State.pushDiag_symLen (s : State) (r : DiagRecord) : (s.pushDiag r).symLen = s.symLen := rfl
@[simp] theorem State.pushDiag_inCur (s : State) (r : DiagRecord) : (s.pushDiag r).inCur = s.inCur := rfl
@[simp] theorem State.pushDiag_outCur (s : State) (r : DiagRecord) : (s.pushDiag r).outCur = s.outCur := rfl
@[simp] theorem State.pushDiag_outBit (s : State) (r : DiagRecord) : (s.pushDiag r).outBit = s.outBit := rfl
@[simp] theorem State.pushDiag_outLen (s : State) (r : DiagRecord) : (s.pushDiag r).outLen = s.outLen := rfl
@[simp] theorem State.pushDiag_srcLen (s : State) (r : DiagRecord) : (s.pushDiag r).srcLen = s.srcLen := rfl
@[simp] theorem State.pushDiag_dstCap (s : State) (r : DiagRecord) : (s.pushDiag r).dstCap = s.dstCap := rfl
@[simp] theorem State.pushDiag_nblocks (s : State) (r : DiagRecord) : (s.pushDiag r).nblocks = s.nblocks := rfl
@[simp] theorem State.pushDiag_sigPos (s : State) (r : DiagRecord) : (s.pushDiag r).sigPos = s.sigPos := rfl
@[simp] theorem State.pushDiag_gapEnd (s : State) (r : DiagRecord) : (s.pushDiag r).gapEnd = s.gapEnd := rfl
@[simp] theorem State.pushDiag_diagRec (s : State) (r : DiagRecord) : (s.pushDiag r).diagRec = s.diagRec := rfl
theorem State.pushDiag_diagQ (s : State) (r : DiagRecord) :
    (s.pushDiag r).diagQ = if s.diagQ.length < s.cfg.diagCap then s.diagQ ++ [r] else s.diagQ := rfl
@[simp] theorem State.pushDiag_mem (s : State) (r : DiagRecord) : (s.pushDiag r).mem = s.mem := rfl
@[simp] theorem State.pushDiag_freeCount (s : State) (r : DiagRecord) : (s.pushDiag r).freeCount = s.freeCount := rfl
@[simp] theorem State.pushDiag_host (s : State) (r : DiagRecord) : (s.pushDiag r).host = s.host := rfl
@[simp] theorem State.pushDiag_response (s : State) (r : DiagRecord) : (s.pushDiag r).response = s.response := rfl
@[simp] theorem State.pushDiag_readback (s : State) (r : DiagRecord) : (s.pushDiag r).readback = s.readback := rfl

@[simp] theorem State.clearDiag_cfg (s : State) : s.clearDiag.cfg = s.cfg := rfl
@[simp] theorem State.clearDiag_conf (s : State) : s.clearDiag.conf = s.conf := rfl
@[simp] theorem State.clearDiag_crc (s : State) : s.clearDiag.crc = s.crc := rfl
@[simp] theorem State.clearDiag_status (s : State) : s.clearDiag.status = s.status := rfl
@[simp] theorem State.clearDiag_result (s : State) : s.clearDiag.result = s.result := rfl
@[simp] theorem State.clearDiag_info (s : State) : s.clearDiag.info = s.info := rfl
@[simp] theorem State.clearDiag_symLen (s : State) : s.clearDiag.symLen = s.symLen := rfl
@[simp] theorem State.clearDiag_inCur (s : State) : s.clearDiag.inCur = s.inCur := rfl
@[simp] theorem State.clearDiag_outCur (s : State) : s.clearDiag.outCur = s.outCur := rfl
@[simp] theorem State.clearDiag_outBit (s : State) : s.clearDiag.outBit = s.outBit := rfl
@[simp] theorem State.clearDiag_outLen (s : State) : s.clearDiag.outLen = s.outLen := rfl
@[simp] theorem State.clearDiag_srcLen (s : State) : s.clearDiag.srcLen = s.srcLen := rfl
@[simp] theorem State.clearDiag_dstCap (s : State) : s.clearDiag.dstCap = s.dstCap := rfl
@[simp] theorem State.clearDiag_nblocks (s : State) : s.clearDiag.nblocks = s.nblocks := rfl
@[simp] theorem State.clearDiag_sigPos (s : State) : s.clearDiag.sigPos = s.sigPos := rfl
@[simp] theorem State.clearDiag_gapEnd (s : State) : s.clearDiag.gapEnd = s.gapEnd := rfl
@[simp] theorem State.clearDiag_diagRec (s : State) : s.clearDiag.diagRec = s.diagRec := rfl
@[simp] theorem State.clearDiag_diagQ (s : State) : s.clearDiag.diagQ = [] := rfl
@[simp] theorem State.clearDiag_mem (s : State) : s.clearDiag.mem = s.mem := rfl
@[simp] theorem State.clearDiag_freeCount (s : State) : s.clearDiag.freeCount = s.freeCount := rfl
@[simp] theorem State.clearDiag_host (s : State) : s.clearDiag.host = s.host := rfl
@[simp] theorem State.clearDiag_response (s : State) : s.clearDiag.response = s.response := rfl
@[simp] theorem State.clearDiag_readback (s : State) : s.clearDiag.readback = s.readback := rfl

@[simp] theorem State.scratchCrc_cfg (s : State) : s.scratchCrc.cfg = s.cfg := rfl
@[simp] theorem State.scratchCrc_conf (s : State) : s.scratchCrc.conf = s.conf := rfl
@[simp] theorem State.scratchCrc_crc (s : State) : s.scratchCrc.crc = Config.freeCrc s.freeCount := rfl
@[simp] theorem State.scratchCrc_status (s : State) : s.scratchCrc.status = s.status := rfl
@[simp] theorem State.scratchCrc_result (s : State) : s.scratchCrc.result = s.result := rfl
@[simp] theorem State.scratchCrc_info (s : State) : s.scratchCrc.info = s.info := rfl
@[simp] theorem State.scratchCrc_symLen (s : State) : s.scratchCrc.symLen = s.symLen := rfl
@[simp] theorem State.scratchCrc_inCur (s : State) : s.scratchCrc.inCur = s.inCur := rfl
@[simp] theorem State.scratchCrc_outCur (s : State) : s.scratchCrc.outCur = s.outCur := rfl
@[simp] theorem State.scratchCrc_outBit (s : State) : s.scratchCrc.outBit = s.outBit := rfl
@[simp] theorem State.scratchCrc_outLen (s : State) : s.scratchCrc.outLen = s.outLen := rfl
@[simp] theorem State.scratchCrc_srcLen (s : State) : s.scratchCrc.srcLen = s.srcLen := rfl
@[simp] theorem State.scratchCrc_dstCap (s : State) : s.scratchCrc.dstCap = s.dstCap := rfl
@[simp] theorem State.scratchCrc_nblocks (s : State) : s.scratchCrc.nblocks = s.nblocks := rfl
@[simp] theorem State.scratchCrc_sigPos (s : State) : s.scratchCrc.sigPos = s.sigPos := rfl
@[simp] theorem State.scratchCrc_gapEnd (s : State) : s.scratchCrc.gapEnd = s.gapEnd := rfl
@[simp] theorem State.scratchCrc_diagRec (s : State) : s.scratchCrc.diagRec = s.diagRec := rfl
@[simp] theorem State.scratchCrc_diagQ (s : State) : s.scratchCrc.diagQ = s.diagQ := rfl
@[simp] theorem State.scratchCrc_mem (s : State) : s.scratchCrc.mem = s.mem := rfl
@[simp] theorem State.scratchCrc_freeCount (s : State) : s.scratchCrc.freeCount = s.freeCount + 1 := rfl
@[simp] theorem State.scratchCrc_host (s : State) : s.scratchCrc.host = s.host := rfl
@[simp] theorem State.scratchCrc_response (s : State) : s.scratchCrc.response = s.response := rfl
@[simp] theorem State.scratchCrc_readback (s : State) : s.scratchCrc.readback = s.readback := rfl

@[simp] theorem State.setSym_cfg (s : State) (m : Memory 8) : (s.setSym m).cfg = s.cfg := rfl
@[simp] theorem State.setSym_conf (s : State) (m : Memory 8) : (s.setSym m).conf = s.conf := rfl
@[simp] theorem State.setSym_crc (s : State) (m : Memory 8) : (s.setSym m).crc = s.crc := rfl
@[simp] theorem State.setSym_status (s : State) (m : Memory 8) : (s.setSym m).status = s.status := rfl
@[simp] theorem State.setSym_result (s : State) (m : Memory 8) : (s.setSym m).result = s.result := rfl
@[simp] theorem State.setSym_info (s : State) (m : Memory 8) : (s.setSym m).info = s.info := rfl
@[simp] theorem State.setSym_symLen (s : State) (m : Memory 8) : (s.setSym m).symLen = s.symLen := rfl
@[simp] theorem State.setSym_inCur (s : State) (m : Memory 8) : (s.setSym m).inCur = s.inCur := rfl
@[simp] theorem State.setSym_outCur (s : State) (m : Memory 8) : (s.setSym m).outCur = s.outCur := rfl
@[simp] theorem State.setSym_outBit (s : State) (m : Memory 8) : (s.setSym m).outBit = s.outBit := rfl
@[simp] theorem State.setSym_outLen (s : State) (m : Memory 8) : (s.setSym m).outLen = s.outLen := rfl
@[simp] theorem State.setSym_srcLen (s : State) (m : Memory 8) : (s.setSym m).srcLen = s.srcLen := rfl
@[simp] theorem State.setSym_dstCap (s : State) (m : Memory 8) : (s.setSym m).dstCap = s.dstCap := rfl
@[simp] theorem State.setSym_nblocks (s : State) (m : Memory 8) : (s.setSym m).nblocks = s.nblocks := rfl
@[simp] theorem State.setSym_sigPos (s : State) (m : Memory 8) : (s.setSym m).sigPos = s.sigPos := rfl
@[simp] theorem State.setSym_gapEnd (s : State) (m : Memory 8) : (s.setSym m).gapEnd = s.gapEnd := rfl
@[simp] theorem State.setSym_diagRec (s : State) (m : Memory 8) : (s.setSym m).diagRec = s.diagRec := rfl
@[simp] theorem State.setSym_diagQ (s : State) (m : Memory 8) : (s.setSym m).diagQ = s.diagQ := rfl
@[simp] theorem State.setSym_mem (s : State) (m : Memory 8) : (s.setSym m).mem = { s.mem with sym := m } := rfl
@[simp] theorem State.setSym_freeCount (s : State) (m : Memory 8) : (s.setSym m).freeCount = s.freeCount := rfl
@[simp] theorem State.setSym_host (s : State) (m : Memory 8) : (s.setSym m).host = s.host := rfl
@[simp] theorem State.setSym_response (s : State) (m : Memory 8) : (s.setSym m).response = s.response := rfl
@[simp] theorem State.setSym_readback (s : State) (m : Memory 8) : (s.setSym m).readback = s.readback := rfl

@[simp] theorem State.setBin_cfg (s : State) (m : Memory 8) : (s.setBin m).cfg = s.cfg := rfl
@[simp] theorem State.setBin_conf (s : State) (m : Memory 8) : (s.setBin m).conf = s.conf := rfl
@[simp] theorem State.setBin_crc (s : State) (m : Memory 8) : (s.setBin m).crc = s.crc := rfl
@[simp] theorem State.setBin_status (s : State) (m : Memory 8) : (s.setBin m).status = s.status := rfl
@[simp] theorem State.setBin_result (s : State) (m : Memory 8) : (s.setBin m).result = s.result := rfl
@[simp] theorem State.setBin_info (s : State) (m : Memory 8) : (s.setBin m).info = s.info := rfl
@[simp] theorem State.setBin_symLen (s : State) (m : Memory 8) : (s.setBin m).symLen = s.symLen := rfl
@[simp] theorem State.setBin_inCur (s : State) (m : Memory 8) : (s.setBin m).inCur = s.inCur := rfl
@[simp] theorem State.setBin_outCur (s : State) (m : Memory 8) : (s.setBin m).outCur = s.outCur := rfl
@[simp] theorem State.setBin_outBit (s : State) (m : Memory 8) : (s.setBin m).outBit = s.outBit := rfl
@[simp] theorem State.setBin_outLen (s : State) (m : Memory 8) : (s.setBin m).outLen = s.outLen := rfl
@[simp] theorem State.setBin_srcLen (s : State) (m : Memory 8) : (s.setBin m).srcLen = s.srcLen := rfl
@[simp] theorem State.setBin_dstCap (s : State) (m : Memory 8) : (s.setBin m).dstCap = s.dstCap := rfl
@[simp] theorem State.setBin_nblocks (s : State) (m : Memory 8) : (s.setBin m).nblocks = s.nblocks := rfl
@[simp] theorem State.setBin_sigPos (s : State) (m : Memory 8) : (s.setBin m).sigPos = s.sigPos := rfl
@[simp] theorem State.setBin_gapEnd (s : State) (m : Memory 8) : (s.setBin m).gapEnd = s.gapEnd := rfl
@[simp] theorem State.setBin_diagRec (s : State) (m : Memory 8) : (s.setBin m).diagRec = s.diagRec := rfl
@[simp] theorem State.setBin_diagQ (s : State) (m : Memory 8) : (s.setBin m).diagQ = s.diagQ := rfl
@[simp] theorem State.setBin_mem (s : State) (m : Memory 8) : (s.setBin m).mem = { s.mem with bin := m } := rfl
@[simp] theorem State.setBin_freeCount (s : State) (m : Memory 8) : (s.setBin m).freeCount = s.freeCount := rfl
@[simp] theorem State.setBin_host (s : State) (m : Memory 8) : (s.setBin m).host = s.host := rfl
@[simp] theorem State.setBin_response (s : State) (m : Memory 8) : (s.setBin m).response = s.response := rfl
@[simp] theorem State.setBin_readback (s : State) (m : Memory 8) : (s.setBin m).readback = s.readback := rfl

@[simp] theorem State.setSrc_cfg (s : State) (m : Memory 8) : (s.setSrc m).cfg = s.cfg := rfl
@[simp] theorem State.setSrc_conf (s : State) (m : Memory 8) : (s.setSrc m).conf = s.conf := rfl
@[simp] theorem State.setSrc_crc (s : State) (m : Memory 8) : (s.setSrc m).crc = s.crc := rfl
@[simp] theorem State.setSrc_status (s : State) (m : Memory 8) : (s.setSrc m).status = s.status := rfl
@[simp] theorem State.setSrc_result (s : State) (m : Memory 8) : (s.setSrc m).result = s.result := rfl
@[simp] theorem State.setSrc_info (s : State) (m : Memory 8) : (s.setSrc m).info = s.info := rfl
@[simp] theorem State.setSrc_symLen (s : State) (m : Memory 8) : (s.setSrc m).symLen = s.symLen := rfl
@[simp] theorem State.setSrc_inCur (s : State) (m : Memory 8) : (s.setSrc m).inCur = s.inCur := rfl
@[simp] theorem State.setSrc_outCur (s : State) (m : Memory 8) : (s.setSrc m).outCur = s.outCur := rfl
@[simp] theorem State.setSrc_outBit (s : State) (m : Memory 8) : (s.setSrc m).outBit = s.outBit := rfl
@[simp] theorem State.setSrc_outLen (s : State) (m : Memory 8) : (s.setSrc m).outLen = s.outLen := rfl
@[simp] theorem State.setSrc_srcLen (s : State) (m : Memory 8) : (s.setSrc m).srcLen = s.srcLen := rfl
@[simp] theorem State.setSrc_dstCap (s : State) (m : Memory 8) : (s.setSrc m).dstCap = s.dstCap := rfl
@[simp] theorem State.setSrc_nblocks (s : State) (m : Memory 8) : (s.setSrc m).nblocks = s.nblocks := rfl
@[simp] theorem State.setSrc_sigPos (s : State) (m : Memory 8) : (s.setSrc m).sigPos = s.sigPos := rfl
@[simp] theorem State.setSrc_gapEnd (s : State) (m : Memory 8) : (s.setSrc m).gapEnd = s.gapEnd := rfl
@[simp] theorem State.setSrc_diagRec (s : State) (m : Memory 8) : (s.setSrc m).diagRec = s.diagRec := rfl
@[simp] theorem State.setSrc_diagQ (s : State) (m : Memory 8) : (s.setSrc m).diagQ = s.diagQ := rfl
@[simp] theorem State.setSrc_mem (s : State) (m : Memory 8) : (s.setSrc m).mem = { s.mem with src := m } := rfl
@[simp] theorem State.setSrc_freeCount (s : State) (m : Memory 8) : (s.setSrc m).freeCount = s.freeCount := rfl
@[simp] theorem State.setSrc_host (s : State) (m : Memory 8) : (s.setSrc m).host = s.host := rfl
@[simp] theorem State.setSrc_response (s : State) (m : Memory 8) : (s.setSrc m).response = s.response := rfl
@[simp] theorem State.setSrc_readback (s : State) (m : Memory 8) : (s.setSrc m).readback = s.readback := rfl

@[simp] theorem State.setPmap_cfg (s : State) (m : Memory 32) : (s.setPmap m).cfg = s.cfg := rfl
@[simp] theorem State.setPmap_conf (s : State) (m : Memory 32) : (s.setPmap m).conf = s.conf := rfl
@[simp] theorem State.setPmap_crc (s : State) (m : Memory 32) : (s.setPmap m).crc = s.crc := rfl
@[simp] theorem State.setPmap_status (s : State) (m : Memory 32) : (s.setPmap m).status = s.status := rfl
@[simp] theorem State.setPmap_result (s : State) (m : Memory 32) : (s.setPmap m).result = s.result := rfl
@[simp] theorem State.setPmap_info (s : State) (m : Memory 32) : (s.setPmap m).info = s.info := rfl
@[simp] theorem State.setPmap_symLen (s : State) (m : Memory 32) : (s.setPmap m).symLen = s.symLen := rfl
@[simp] theorem State.setPmap_inCur (s : State) (m : Memory 32) : (s.setPmap m).inCur = s.inCur := rfl
@[simp] theorem State.setPmap_outCur (s : State) (m : Memory 32) : (s.setPmap m).outCur = s.outCur := rfl
@[simp] theorem State.setPmap_outBit (s : State) (m : Memory 32) : (s.setPmap m).outBit = s.outBit := rfl
@[simp] theorem State.setPmap_outLen (s : State) (m : Memory 32) : (s.setPmap m).outLen = s.outLen := rfl
@[simp] theorem State.setPmap_srcLen (s : State) (m : Memory 32) : (s.setPmap m).srcLen = s.srcLen := rfl
@[simp] theorem State.setPmap_dstCap (s : State) (m : Memory 32) : (s.setPmap m).dstCap = s.dstCap := rfl
@[simp] theorem State.setPmap_nblocks (s : State) (m : Memory 32) : (s.setPmap m).nblocks = s.nblocks := rfl
@[simp] theorem State.setPmap_sigPos (s : State) (m : Memory 32) : (s.setPmap m).sigPos = s.sigPos := rfl
@[simp] theorem State.setPmap_gapEnd (s : State) (m : Memory 32) : (s.setPmap m).gapEnd = s.gapEnd := rfl
@[simp] theorem State.setPmap_diagRec (s : State) (m : Memory 32) : (s.setPmap m).diagRec = s.diagRec := rfl
@[simp] theorem State.setPmap_diagQ (s : State) (m : Memory 32) : (s.setPmap m).diagQ = s.diagQ := rfl
@[simp] theorem State.setPmap_mem (s : State) (m : Memory 32) : (s.setPmap m).mem = { s.mem with pmap := m } := rfl
@[simp] theorem State.setPmap_freeCount (s : State) (m : Memory 32) : (s.setPmap m).freeCount = s.freeCount := rfl
@[simp] theorem State.setPmap_host (s : State) (m : Memory 32) : (s.setPmap m).host = s.host := rfl
@[simp] theorem State.setPmap_response (s : State) (m : Memory 32) : (s.setPmap m).response = s.response := rfl
@[simp] theorem State.setPmap_readback (s : State) (m : Memory 32) : (s.setPmap m).readback = s.readback := rfl

end Sys2Proof.Machine
end

