-- ==== Sys2Proof/Laws/Flags.lean ====
section
/-! SUPPORT. Laws/Flags.lean: the flags of STATUS: one flag written, the others as they were, the reserved bits kept. -/

namespace Sys2Proof.Machine

theorem flagBit_lt (f : Flag) : flagBit f < 5 := by
  cases f <;> decide

theorem flagBit_injective (f g : Flag) (h : flagBit f = flagBit g) : f = g := by
  cases f <;> cases g <;> first | rfl | (simp [flagBit] at h)

/-- What a write of a flag does to every bit of STATUS. -/
theorem State.setFlag_bit (s : State) (f : Flag) (b : Bool) (k : Nat) (hk : k < 8) :
    (s.setFlag f b).status.getLsbD k = if k = flagBit f then b else s.status.getLsbD k := by
  rw [State.setFlag_status, getLsbD_putBit _ _ _ _ hk]

/-- A flag written reads back, every other flag reads as before (spec/10_state.md rule R30). -/
theorem State.flag_setFlag (s : State) (f g : Flag) (b : Bool) :
    (s.setFlag f b).flag g = if g = f then b else s.flag g := by
  unfold State.flag
  rw [State.setFlag_bit _ _ _ _ (by have := flagBit_lt g; omega)]
  by_cases h : g = f
  · rw [if_pos h, if_pos (by rw [h])]
  · rw [if_neg h, if_neg (fun e => h (flagBit_injective g f e))]

/-- A write of a bit below 5 keeps the reserved bits of STATUS (rule R30). -/
theorem putBit_reserved (v : BitVec 8) (k : Nat) (b : Bool) (hk : k < 5) (h : v &&& 0xE0 = 0) :
    putBit v k b &&& 0xE0 = 0 := by
  apply BitVec.eq_of_getLsbD_eq
  intro j hj
  have hv : (v &&& 0xE0).getLsbD j = (0 : BitVec 8).getLsbD j := by rw [h]
  rw [BitVec.getLsbD_and] at hv ⊢
  rw [getLsbD_putBit _ _ _ _ hj]
  by_cases e : j = k
  · subst e
    have low : (0xE0 : BitVec 8).getLsbD j = false := by
      interval_cases j <;> rfl
    rw [if_pos rfl, low, Bool.and_false, BitVec.ofNat_eq_ofNat, BitVec.getLsbD_zero]
  · rw [if_neg e]
    exact hv

theorem putBit_zero (v : BitVec 8) (b : Bool) : putBit v 0 b = if b then v ||| 0x01 else v &&& 0xFE := rfl

theorem putBit_one (v : BitVec 8) (b : Bool) : putBit v 1 b = if b then v ||| 0x02 else v &&& 0xFD := rfl

theorem putBit_two (v : BitVec 8) (b : Bool) : putBit v 2 b = if b then v ||| 0x04 else v &&& 0xFB := rfl

theorem putBit_three (v : BitVec 8) (b : Bool) : putBit v 3 b = if b then v ||| 0x08 else v &&& 0xF7 := rfl

theorem putBit_four (v : BitVec 8) (b : Bool) : putBit v 4 b = if b then v ||| 0x10 else v &&& 0xEF := rfl

end Sys2Proof.Machine
end

