-- ==== Sys2Proof/Laws/Ops.lean ====
section
/-! SUPPORT. Laws/Ops.lean: for each shared operation of Machine/Ops.lean one lemma that says what it can do. -/

namespace Sys2Proof.Machine

theorem State.finish_eq_answered (s : State) (c : ResultCode) (n : Nat) :
    s.finish c n = s.answered (codeByte c) (word32 n) := rfl

theorem State.illegal_eq_answered (s : State) : s.illegal = s.answered 8 0 := rfl

/-- `answered` does not look at what it replaces. -/
theorem State.answered_answered (s : State) (c d : BitVec 8) (m n : Word) :
    (s.answered c m).answered d n = s.answered d n := rfl

theorem State.sameButCrc_refl (s : State) : s.sameButCrc s := rfl

/-- An operation that used CRC as scratch is the one that did not, but for CRC. -/
theorem State.scratchCrc_sameButCrc (s : State) : s.scratchCrc.sameButCrc s := rfl

theorem State.sameButCrc_finish (s t : State) (h : t.sameButCrc s) (c : ResultCode) (n : Nat) :
    (t.finish c n).sameButCrc (s.finish c n) := by
  unfold State.sameButCrc at h ⊢
  rw [← h]
  rfl

theorem word32_toNat (n : Nat) : (word32 n).toNat = n % 2 ^ 32 := BitVec.toNat_ofNat n 32

theorem word32_toNat_of_lt (n : Nat) (h : n < 2 ^ 32) : (word32 n).toNat = n := by
  rw [word32_toNat, Nat.mod_eq_of_lt h]

@[simp] theorem word32_toNat_self (v : Word) : word32 v.toNat = v := by
  apply BitVec.eq_of_toNat_eq
  rw [word32_toNat_of_lt _ v.isLt]

/-- Both things `pushDiag` can do (spec/60_exceptions.md rule R306). -/
theorem State.pushDiag_cases (s : State) (r : DiagRecord) :
    (s.diagQ.length < s.cfg.diagCap ∧ s.pushDiag r = { s with diagQ := s.diagQ ++ [r] }) ∨
    (s.cfg.diagCap ≤ s.diagQ.length ∧ s.pushDiag r = s) := by
  unfold State.pushDiag
  by_cases h : s.diagQ.length < s.cfg.diagCap
  · rw [if_pos h]
    exact .inl ⟨h, rfl⟩
  · rw [if_neg h]
    exact .inr ⟨by omega, rfl⟩

/-- Where the queue is within DIAG_CAP, it takes the record as far as there is room. -/
theorem State.pushDiag_take (s : State) (r : DiagRecord) (q : List DiagRecord) (h : s.diagQ = q.take s.cfg.diagCap) :
    (s.pushDiag r).diagQ = (q ++ [r]).take s.cfg.diagCap := by
  rcases s.pushDiag_cases r with ⟨h1, h2⟩ | ⟨h1, h2⟩ <;> rw [h2] <;> rw [h, List.length_take] at h1
  · dsimp only
    rw [h, List.take_of_length_le (i := s.cfg.diagCap) (l := q) (by omega), List.take_of_length_le]
    rw [List.length_append, List.length_singleton]
    omega
  · rw [h, List.take_append_of_le_length (by omega)]

/-- The queue never passes DIAG_CAP. -/
theorem State.pushDiag_room (s : State) (r : DiagRecord) (h : s.diagQ.length ≤ s.cfg.diagCap) :
    (s.pushDiag r).diagQ.length ≤ s.cfg.diagCap := by
  rcases s.pushDiag_cases r with ⟨h1, h2⟩ | ⟨-, h2⟩ <;> rw [h2]
  · simp
    omega
  · exact h

/-- Every record in the queue afterwards was there or is the new one. -/
theorem State.mem_pushDiag (s : State) (r x : DiagRecord) (h : x ∈ (s.pushDiag r).diagQ) : x ∈ s.diagQ ∨ x = r := by
  rcases s.pushDiag_cases r with ⟨-, h2⟩ | ⟨-, h2⟩ <;> rw [h2] at h
  · simpa using h
  · exact .inl h

/-- The oldest record stays the oldest. -/
theorem State.head_pushDiag (s : State) (r x : DiagRecord) (h : s.diagQ.head? = some x) :
    (s.pushDiag r).diagQ.head? = some x := by
  rcases s.pushDiag_cases r with ⟨-, h2⟩ | ⟨-, h2⟩ <;> rw [h2]
  · simp [h]
  · exact h

/-- t is s with records of codes that can be queued appended to the queue, within DIAG_CAP if s was. -/
structure OnlyQueues (s t : State) : Prop where
  frame : t = { s with diagQ := t.diagQ }
  room : s.diagQ.length ≤ s.cfg.diagCap → t.diagQ.length ≤ s.cfg.diagCap
  codes : ∀ r ∈ t.diagQ, r ∈ s.diagQ ∨ r.code.toNat ∈ queuedCodes
  head : ∀ r, s.diagQ.head? = some r → t.diagQ.head? = some r

theorem OnlyQueues.refl (s : State) : OnlyQueues s s :=
  ⟨rfl, id, fun _ => .inl, fun _ => id⟩

theorem OnlyQueues.trans {s t u : State} (h1 : OnlyQueues s t) (h2 : OnlyQueues t u) : OnlyQueues s u := by
  have hc : t.cfg = s.cfg := by rw [h1.frame]
  refine ⟨?_, fun h => hc ▸ h2.room (hc ▸ h1.room h), fun r hr => ?_, fun r hr => h2.head r (h1.head r hr)⟩
  · have e := h2.frame
    rw [h1.frame] at e
    exact e
  · rcases h2.codes r hr with h | h
    · exact h1.codes r h
    · exact .inr h

theorem State.pushDiag_onlyQueues (s : State) (r : DiagRecord) (h : r.code.toNat ∈ queuedCodes) :
    OnlyQueues s (s.pushDiag r) := by
  refine ⟨rfl, s.pushDiag_room r, fun x hx => ?_, fun x hx => s.head_pushDiag r x hx⟩
  rcases s.mem_pushDiag r x hx with hx | rfl
  · exact .inl hx
  · exact .inr h

/-- What a register write leaves: only the registers and the Z flag can differ. -/
theorem State.writeReg_frame (s : State) (r : Reg) (v : Word) :
    (s.writeReg r v).cfg = s.cfg ∧ (s.writeReg r v).result = s.result ∧ (s.writeReg r v).info = s.info ∧
      (s.writeReg r v).mem = s.mem ∧ (s.writeReg r v).diagQ = s.diagQ ∧ (s.writeReg r v).diagRec = s.diagRec ∧
      (s.writeReg r v).freeCount = s.freeCount ∧ (s.writeReg r v).host = s.host ∧
      (s.writeReg r v).response = s.response ∧ (s.writeReg r v).readback = s.readback ∧
      (∀ k, 0 < k → k < 8 → (s.writeReg r v).status.getLsbD k = s.status.getLsbD k) := by
  cases r <;> refine ⟨rfl, rfl, rfl, rfl, rfl, rfl, rfl, rfl, rfl, rfl, fun k h1 h2 => ?_⟩ <;> first
    | rfl
    | exact (State.setFlag_bit _ _ _ _ h2).trans (if_neg (by simp [flagBit]; omega))

/-- A host-writable register written reads back the value where it fits the register (spec/45_system.md rule R362). -/
theorem State.readReg_writeReg (s : State) (r : Reg) (v : Word) (hw : regHostWritable r = true)
    (hv : v.toNat < 2 ^ regWidth r) : (s.writeReg r v).readReg r = v := by
  cases r <;> first
    | rfl
    | exact absurd hw (by decide)
    | (apply BitVec.eq_of_toNat_eq
       simp only [regWidth] at hv
       simp [State.writeReg, State.readReg, State.setCrc]
       omega)

/-- Everything a host read can do. -/
theorem hostRead_cases (b : BufferName) (i : Nat) (s : State) :
    (capacity s.cfg b ≤ i ∧ hostRead b i s = .fault (.noSuchEntry b i)) ∨
    (i < capacity s.cfg b ∧ ∃ v, hostRead b i s = .next { s with readback := some v }) := by
  unfold hostRead
  by_cases h : capacity s.cfg b ≤ i
  · rw [if_pos h]
    exact .inl ⟨h, rfl⟩
  · rw [if_neg h]
    exact .inr ⟨by omega, _, rfl⟩

/-- Everything a host write can do. -/
theorem hostWrite_cases (b : BufferName) (i : Nat) (v : Byte) (s : State) :
    (b = .pmap ∧ hostWrite b i v s = .refused .hostWritesPmap) ∨
    (b ≠ .pmap ∧ capacity s.cfg b ≤ i ∧ hostWrite b i v s = .fault (.noSuchEntry b i)) ∨
    (b = .sym ∧ i < s.cfg.symCap ∧ hostWrite b i v s = .next (s.setSym (s.mem.sym.write i v))) ∨
    (b = .bin ∧ i < s.cfg.binCap ∧ hostWrite b i v s = .next (s.setBin (s.mem.bin.write i v))) ∨
    (b = .src ∧ i < s.cfg.srcCap ∧ hostWrite b i v s = .next (s.setSrc (s.mem.src.write i v))) := by
  cases b
  · by_cases h : s.cfg.symCap ≤ i
    · exact .inr (.inl ⟨by simp, h, by rw [hostWrite, if_pos h]⟩)
    · exact .inr (.inr (.inl ⟨rfl, by omega, by rw [hostWrite, if_neg h]⟩))
  · by_cases h : s.cfg.binCap ≤ i
    · exact .inr (.inl ⟨by simp, h, by rw [hostWrite, if_pos h]⟩)
    · exact .inr (.inr (.inr (.inl ⟨rfl, by omega, by rw [hostWrite, if_neg h]⟩)))
  · by_cases h : s.cfg.srcCap ≤ i
    · exact .inr (.inl ⟨by simp, h, by rw [hostWrite, if_pos h]⟩)
    · exact .inr (.inr (.inr (.inr ⟨rfl, by omega, by rw [hostWrite, if_neg h]⟩)))
  · exact .inl ⟨rfl, rfl⟩

/-- Every code is one byte wide and stands for itself. -/
theorem codeByte_toNat (c : ResultCode) : (codeByte c).toNat = codeNumber c := by
  cases c <;> rfl

end Sys2Proof.Machine
end

