-- ==== Sys2Proof/Laws/Demod.lean ====
section
/-! SUPPORT. Laws/Demod.lean: what the demodulator and the block decoder can do. -/

namespace Sys2Proof.Machine

theorem demodBits_length_pos (b : Bool) (y : Sym) : 0 < (demodBits b y).length := by
  cases b <;> cases y <;> decide

theorem demodBits_length_le (b : Bool) (y : Sym) : (demodBits b y).length ≤ 2 := by
  cases b <;> cases y <;> decide

/-- A gap end found is a symbol 1 among the symbols searched. -/
theorem gapScan_some (sym : Memory 8) (minGap fuel i zeros e : Nat) (h : gapScan sym minGap fuel i zeros = some e) :
    i ≤ e ∧ e < i + fuel ∧ sym.symAt e = .s1 := by
  induction fuel generalizing i zeros with
  | zero => simp [gapScan] at h
  | succ fuel ih =>
    rw [gapScan] at h
    split at h
    · rename_i hc
      obtain rfl : i = e := by simpa using h
      exact ⟨le_refl _, by omega, hc.1⟩
    · obtain ⟨h1, h2, h3⟩ := ih _ _ h
      exact ⟨by omega, by omega, h3⟩

theorem State.gapLocate_some (s : State) (start e : Nat) (h : s.gapLocate start = some e) :
    start ≤ e ∧ e < s.symLen.toNat ∧ s.mem.sym.symAt e = .s1 := by
  obtain ⟨h1, h2, h3⟩ := gapScan_some _ _ _ _ _ _ h
  exact ⟨h1, by omega, h3⟩

/-- What `appendBits` leaves: BIN written, OUT_BIT moved, nothing else; the bits stand from bit OUT_BIT on, without a
wrap, and every other bit of BIN reads as before. -/
theorem appendBits_spec (bits : List Bool) (s : State) :
    ∃ bin : Memory 8, appendBits bits s = { s.setBin bin with outBit := word32 (s.outBit.toNat + bits.length) } ∧
      ∀ j, bin.readBit j = if s.outBit.toNat ≤ j ∧ j < s.outBit.toNat + bits.length then
        bits.getD (j - s.outBit.toNat) false else s.mem.bin.readBit j :=
  ⟨_, rfl, Memory.readBit_writeBits _ _ _⟩

/-- `decodeBits` keeps the canonical form and the capacity, and writes only the region of the block. -/
theorem decodeBits_keeps (sym : Memory 8) (base total fuel i nb : Nat) (prev : Bool) (bin : Memory 8)
    (hnb : nb ≤ total) :
    (bin.wf → (decodeBits sym base total fuel i nb prev bin).1.wf) ∧
      (∀ cap, base + total ≤ cap * 8 → bin.below cap → (decodeBits sym base total fuel i nb prev bin).1.below cap) ∧
      ∀ j, (j < base ∨ base + total ≤ j) →
        (decodeBits sym base total fuel i nb prev bin).1.readBit j = bin.readBit j := by
  induction fuel generalizing i nb prev bin with
  | zero =>
    rw [decodeBits]
    split <;> exact ⟨id, fun _ _ => id, fun _ _ => rfl⟩
  | succ fuel ih =>
    rw [decodeBits]
    split
    · rename_i hlt
      have hlen : ((demodBits prev (sym.symAt i)).take (total - nb)).length ≤ total - nb := by
        rw [List.length_take]
        omega
      obtain ⟨h1, h2, h3⟩ := ih (i + 1) (nb + ((demodBits prev (sym.symAt i)).take (total - nb)).length)
        (demodPrev prev (sym.symAt i)) (bin.writeBits (base + nb) ((demodBits prev (sym.symAt i)).take (total - nb)))
        (by omega)
      refine ⟨fun h => h1 (Memory.wf_writeBits _ _ _ h),
        fun cap hc h => h2 cap hc (Memory.below_writeBits _ _ _ _ h (by omega)), fun j hj => ?_⟩
      rw [h3 j hj, Memory.readBit_writeBits, if_neg (by omega)]
    · exact ⟨id, fun _ _ => id, fun _ _ => rfl⟩

/-- Where `decodeBits` finds all bits, the index it gives lies behind the first symbol and within the symbols given. -/
theorem decodeBits_some (sym : Memory 8) (base total fuel i nb : Nat) (prev : Bool) (bin bin1 : Memory 8) (j : Nat)
    (h : decodeBits sym base total fuel i nb prev bin = (bin1, some j)) :
    i ≤ j ∧ j ≤ i + fuel ∧ (nb < total → i < j) := by
  induction fuel generalizing i nb prev bin with
  | zero =>
    rw [decodeBits] at h
    split at h
    · simp at h
    · obtain ⟨-, h2⟩ := Prod.mk.inj h
      obtain rfl : i = j := by simpa using h2
      exact ⟨le_refl _, by omega, fun hlt => by omega⟩
  | succ fuel ih =>
    rw [decodeBits] at h
    split at h
    · obtain ⟨h1, h2, -⟩ := ih _ _ _ _ h
      exact ⟨by omega, by omega, fun _ => by omega⟩
    · obtain ⟨-, h2⟩ := Prod.mk.inj h
      obtain rfl : i = j := by simpa using h2
      exact ⟨le_refl _, by omega, fun hlt => by omega⟩

/-- What `checkBlock` leaves: IN_CUR past the block; OUT_CUR, BIN and the queue as its rules say. -/
theorem checkBlock_cases (t : Byte) (n e i : Nat) (s : State) :
    (∃ r : DiagRecord, r.code = codeByte .blockTypeMismatch ∧
      checkBlock t n e i s = ({ s.pushDiag r with inCur := word32 i },
        ⟨.blockTypeMismatch, (s.mem.bin.read s.outCur.toNat).toNat⟩)) ∨
    checkBlock t n e i s = ({ s.setBin (s.mem.bin.zeroN (s.outCur.toNat + n) 2) with
        inCur := word32 i, outCur := word32 (s.outCur.toNat + n) }, ⟨.ok, 0⟩) ∨
    (∃ (r : DiagRecord) (c : Nat), r.code = codeByte .badCrc ∧
      checkBlock t n e i s = ({ (s.pushDiag r).setBin (s.mem.bin.zeroN (s.outCur.toNat + n) 2) with
        inCur := word32 i, outCur := word32 (s.outCur.toNat + n) }, ⟨.badCrc, c⟩)) := by
  unfold checkBlock
  dsimp only
  split
  · exact .inl ⟨_, rfl, rfl⟩
  · by_cases hr : crcResidual s.conf (s.mem.bin.readN s.outCur.toNat (n + 2)) ≠ 0
    · rw [if_pos hr, if_pos hr]
      exact .inr (.inr ⟨_, _, rfl, rfl⟩)
    · rw [if_neg hr, if_neg hr]
      exact .inr (.inl rfl)

/-- Everything `decodeBlock` can do: no gap; no room; the capture ends inside the block; or the block is decoded into
its region and checked. -/
theorem decodeBlock_cases (t : Byte) (n : Nat) (s : State) :
    (s.gapLocate s.inCur.toNat = none ∧ decodeBlock t n s = (s, ⟨.gapNotFound, 0⟩)) ∨
    (∃ e, s.gapLocate s.inCur.toNat = some e ∧ s.dstCap.toNat < s.outCur.toNat + n + 2 ∧
      decodeBlock t n s = ({ s with gapEnd := word32 e },
        ⟨.capacityExceeded, s.outCur.toNat + n + 2 - s.dstCap.toNat⟩)) ∨
    (∃ e bin, s.gapLocate s.inCur.toNat = some e ∧ s.outCur.toNat + n + 2 ≤ s.dstCap.toNat ∧
      decodeBits s.mem.sym (s.outCur.toNat * 8) ((n + 2) * 8) (s.symLen.toNat - (e + 1)) (e + 1) 0 true
        (s.mem.bin.zeroN s.outCur.toNat (n + 2)) = (bin, none) ∧
      decodeBlock t n s = ({ s with gapEnd := word32 e }.setBin bin, ⟨.endOfCapture, 0⟩)) ∨
    (∃ e bin i, s.gapLocate s.inCur.toNat = some e ∧ s.outCur.toNat + n + 2 ≤ s.dstCap.toNat ∧
      decodeBits s.mem.sym (s.outCur.toNat * 8) ((n + 2) * 8) (s.symLen.toNat - (e + 1)) (e + 1) 0 true
        (s.mem.bin.zeroN s.outCur.toNat (n + 2)) = (bin, some i) ∧ e + 1 < i ∧ i ≤ s.symLen.toNat ∧
      decodeBlock t n s = checkBlock t n e i ({ s with gapEnd := word32 e }.setBin bin)) := by
  unfold decodeBlock
  cases hg : s.gapLocate s.inCur.toNat with
  | none => exact .inl ⟨rfl, rfl⟩
  | some e =>
    right
    obtain ⟨-, he, -⟩ := s.gapLocate_some _ _ hg
    dsimp only
    by_cases hc : s.dstCap.toNat < s.outCur.toNat + n + 2
    · rw [if_pos hc]
      exact .inl ⟨e, rfl, hc, rfl⟩
    · right
      rw [if_neg hc]
      cases hd : decodeBits s.mem.sym (s.outCur.toNat * 8) ((n + 2) * 8) (s.symLen.toNat - (e + 1)) (e + 1) 0 true
        (s.mem.bin.zeroN s.outCur.toNat (n + 2)) with
      | mk bin o =>
        cases o with
        | none => exact .inl ⟨e, bin, rfl, by omega, hd, rfl⟩
        | some i =>
          obtain ⟨h1, h2, h3⟩ := decodeBits_some _ _ _ _ _ _ _ _ _ _ hd
          exact .inr ⟨e, bin, i, rfl, by omega, hd, h3 (by omega), by omega, rfl⟩

/-- What `decodeBlock` leaves alone: everything but IN_CUR, OUT_CUR, GAP_END, BIN and the queue. -/
theorem decodeBlock_frame (t : Byte) (n : Nat) (s : State) :
    (decodeBlock t n s).1 = { s with
      inCur := (decodeBlock t n s).1.inCur, outCur := (decodeBlock t n s).1.outCur
      gapEnd := (decodeBlock t n s).1.gapEnd, diagQ := (decodeBlock t n s).1.diagQ
      mem := { s.mem with bin := (decodeBlock t n s).1.mem.bin } } := by
  rcases decodeBlock_cases t n s with ⟨-, h⟩ | ⟨e, -, -, h⟩ | ⟨e, bin, -, -, -, h⟩ | ⟨e, bin, i, -, -, -, -, -, h⟩
  · rw [h]
  · rw [h]
  · rw [h]
    rfl
  · rw [h]
    rcases checkBlock_cases t n e i ({ s with gapEnd := word32 e }.setBin bin) with ⟨r, -, hk⟩ | hk | ⟨r, c, -, hk⟩ <;>
      · rw [hk]
        rfl

/-- What decoding leaves: BIN canonical and within a capacity that holds DST_CAP, the queue within DIAG_CAP with codes
that can be queued. -/
structure DecodeKeeps (s t : State) : Prop where
  wf : s.mem.bin.wf → t.mem.bin.wf
  below : ∀ cap, s.dstCap.toNat ≤ cap → s.mem.bin.below cap → t.mem.bin.below cap
  room : s.diagQ.length ≤ s.cfg.diagCap → t.diagQ.length ≤ s.cfg.diagCap
  codes : ∀ r ∈ t.diagQ, r ∈ s.diagQ ∨ r.code.toNat ∈ queuedCodes

theorem DecodeKeeps.trans {s t u : State} (h1 : DecodeKeeps s t) (h2 : DecodeKeeps t u) (hd : t.dstCap = s.dstCap)
    (hc : t.cfg = s.cfg) : DecodeKeeps s u := by
  refine ⟨fun h => h2.wf (h1.wf h), fun cap hcap h => h2.below cap (by rw [hd]; exact hcap) (h1.below cap hcap h),
    fun h => ?_, fun r hr => ?_⟩
  · have h3 := h2.room
    rw [hc] at h3
    exact h3 (h1.room h)
  · rcases h2.codes r hr with hr | hr
    · exact h1.codes r hr
    · exact .inr hr

theorem DecodeKeeps.refl (s : State) : DecodeKeeps s s := ⟨id, fun _ _ => id, id, fun _ => .inl⟩

theorem DecodeKeeps.ofQueue {s t : State} (h : OnlyQueues s t) : DecodeKeeps s t := by
  have hm : t.mem = s.mem := by rw [h.frame]
  exact ⟨by rw [hm]; exact id, by rw [hm]; exact fun _ _ => id, h.room, h.codes⟩

theorem checkBlock_keeps (t : Byte) (n e i : Nat) (s : State) : DecodeKeeps s (checkBlock t n e i s).1 := by
  rcases checkBlock_cases t n e i s with ⟨r, hr, hk⟩ | hk | ⟨r, c, hr, hk⟩ <;> rw [hk]
  · have q := s.pushDiag_onlyQueues r (by rw [hr]; decide)
    exact ⟨id, fun _ _ => id, q.room, q.codes⟩
  · exact ⟨Memory.wf_zeroN _ _ _, fun cap _ => Memory.below_zeroN _ _ _ _, id, fun _ => .inl⟩
  · have q := s.pushDiag_onlyQueues r (by rw [hr]; decide)
    exact ⟨Memory.wf_zeroN _ _ _, fun cap _ => Memory.below_zeroN _ _ _ _, q.room, q.codes⟩

theorem decodeBlock_keeps (t : Byte) (n : Nat) (s : State) : DecodeKeeps s (decodeBlock t n s).1 := by
  have hb : ∀ (e : Nat) (bin : Memory 8) (o : Option Nat), s.outCur.toNat + n + 2 ≤ s.dstCap.toNat →
      decodeBits s.mem.sym (s.outCur.toNat * 8) ((n + 2) * 8) (s.symLen.toNat - (e + 1)) (e + 1) 0 true
        (s.mem.bin.zeroN s.outCur.toNat (n + 2)) = (bin, o) →
      DecodeKeeps s ({ s with gapEnd := word32 e }.setBin bin) := by
    intro e bin o ho h
    have k := decodeBits_keeps s.mem.sym (s.outCur.toNat * 8) ((n + 2) * 8) (s.symLen.toNat - (e + 1)) (e + 1) 0 true
      (s.mem.bin.zeroN s.outCur.toNat (n + 2)) (by omega)
    rw [h] at k
    exact ⟨fun hw => k.1 (Memory.wf_zeroN _ _ _ hw),
      fun cap hc hl => k.2.1 cap (by omega) (Memory.below_zeroN _ _ _ _ hl), id, fun _ => .inl⟩
  rcases decodeBlock_cases t n s with ⟨-, h⟩ | ⟨e, -, -, h⟩ | ⟨e, bin, -, ho, hd, h⟩ | ⟨e, bin, i, -, ho, hd, -, -, h⟩ <;>
    rw [h]
  · exact .refl s
  · exact ⟨id, fun _ _ => id, id, fun _ => .inl⟩
  · exact hb e bin none ho hd
  · exact (hb e bin (some i) ho hd).trans (checkBlock_keeps _ _ _ _ _) rfl rfl

/-- What `decodeBlock` does not change. -/
theorem decodeBlock_same (t : Byte) (n : Nat) (s : State) :
    (decodeBlock t n s).1.dstCap = s.dstCap ∧ (decodeBlock t n s).1.cfg = s.cfg ∧
      (decodeBlock t n s).1.symLen = s.symLen ∧ (decodeBlock t n s).1.mem.sym = s.mem.sym ∧
      (decodeBlock t n s).1.conf = s.conf ∧ (decodeBlock t n s).1.nblocks = s.nblocks := by
  rw [decodeBlock_frame t n s]
  exact ⟨rfl, rfl, rfl, rfl, rfl, rfl⟩

/-- A block tried moves IN_CUR forward within the capture (spec/41_demod.md rule R175); where it ends otherwise IN_CUR
stays. -/
theorem decodeBlock_progress (t : Byte) (n : Nat) (s : State) :
    ((decodeBlock t n s).2.code ∈ [ResultCode.ok, .badCrc, .blockTypeMismatch] ∧
      s.inCur.toNat < (decodeBlock t n s).1.inCur.toNat ∧ (decodeBlock t n s).1.inCur.toNat ≤ s.symLen.toNat) ∨
    ((decodeBlock t n s).2.code ∈ [ResultCode.gapNotFound, .capacityExceeded, .endOfCapture] ∧
      (decodeBlock t n s).1.inCur = s.inCur) := by
  rcases decodeBlock_cases t n s with ⟨-, h⟩ | ⟨e, -, -, h⟩ | ⟨e, bin, -, -, -, h⟩ | ⟨e, bin, i, hg, -, -, h1, h2, h⟩
  · exact .inr (by rw [h]; simp)
  · exact .inr (by rw [h]; simp)
  · exact .inr (by rw [h]; simp)
  · left
    obtain ⟨h3, -, -⟩ := s.gapLocate_some _ _ hg
    have hi : (word32 i).toNat = i := word32_toNat_of_lt i (lt_of_le_of_lt h2 s.symLen.isLt)
    rw [h]
    rcases checkBlock_cases t n e i ({ s with gapEnd := word32 e }.setBin bin) with ⟨r, -, hk⟩ | hk | ⟨r, c, -, hk⟩ <;>
      · rw [hk]
        dsimp only
        rw [hi]
        exact ⟨by decide, by omega, h2⟩

/-- What the loop of DECSEQ leaves: the cursors, GAP_END, NBLOCKS, BIN and the queue can differ, nothing else; it ends
with GapNotFound, EndOfCapture or CapacityExceeded (spec/41_demod.md rule R175). -/
theorem decodeSequence_keeps (fuel : Nat) (stage : Stage) (size : Nat) (s : State) :
    (decodeSequence fuel stage size s).1 = { s with
      inCur := (decodeSequence fuel stage size s).1.inCur, outCur := (decodeSequence fuel stage size s).1.outCur
      gapEnd := (decodeSequence fuel stage size s).1.gapEnd, diagQ := (decodeSequence fuel stage size s).1.diagQ
      nblocks := (decodeSequence fuel stage size s).1.nblocks
      mem := { s.mem with bin := (decodeSequence fuel stage size s).1.mem.bin } } ∧
    DecodeKeeps s (decodeSequence fuel stage size s).1 ∧
    (decodeSequence fuel stage size s).2.code ∈ [ResultCode.gapNotFound, .capacityExceeded, .endOfCapture] := by
  induction fuel generalizing stage size s with
  | zero => exact ⟨rfl, .refl s, by simp [decodeSequence]⟩
  | succ fuel ih =>
    rw [decodeSequence]
    dsimp only
    generalize (expectBlock size stage).1 = t
    generalize (expectBlock size stage).2 = n
    have hf := decodeBlock_frame t n s
    have hk := decodeBlock_keeps t n s
    have hp := decodeBlock_progress t n s
    obtain ⟨hd, hc, -⟩ := decodeBlock_same t n s
    generalize decodeBlock t n s = r at hf hk hp hd hc
    obtain ⟨u, e⟩ := r
    dsimp only at hf hk hp hd hc ⊢
    have counted : DecodeKeeps s { u with nblocks := word32 (u.nblocks.toNat + 1) } :=
      hk.trans ⟨id, fun _ _ => id, id, fun _ => .inl⟩ hd hc
    split
    · generalize (if stage = .header then _ else size) = size1
      obtain ⟨h1, h2, h3⟩ := ih (nextStage stage) size1 { u with nblocks := word32 (u.nblocks.toNat + 1) }
      refine ⟨?_, counted.trans h2 hd hc, h3⟩
      rw [h1, hf]
    · generalize (if stage = .header then _ else size) = size1
      obtain ⟨h1, h2, h3⟩ := ih (nextStage stage) size1 { u with nblocks := word32 (u.nblocks.toNat + 1) }
      refine ⟨?_, counted.trans h2 hd hc, h3⟩
      rw [h1, hf]
    · obtain ⟨h1, h2, h3⟩ := ih stage size u
      refine ⟨?_, hk.trans h2 hd hc, h3⟩
      rw [h1, hf]
    · rename_i n1 n2 n3
      have hn : u.nblocks = s.nblocks := by rw [hf]
      refine ⟨by dsimp only; rw [hn]; exact hf, hk, ?_⟩
      rcases hp with ⟨hp, -⟩ | ⟨hp, -⟩
      · simp only [List.mem_cons, List.not_mem_nil, or_false] at hp
        exact (hp.elim n1 (fun h => h.elim n2 n3)).elim
      · exact hp

end Sys2Proof.Machine
end

