-- ==== Sys2Proof/Laws/Marking.lean ====
section
/-! SUPPORT. Laws/Marking.lean: what the marking passes can do: write markers among the valid symbols, nothing else
(spec/43_recon_marking.md rule R231). -/

namespace Sys2Proof.Machine

/-- `sym1` is `sym` with markers written at some indices below n. -/
structure Memory.MarkedBelow (n : Nat) (sym sym1 : Memory 8) : Prop where
  wf : sym.wf → sym1.wf
  below : ∀ cap, n ≤ cap → sym.below cap → sym1.below cap
  read : ∀ k, sym1.read k = sym.read k ∨ (k < n ∧ sym1.read k = 3)

theorem Memory.MarkedBelow.refl (n : Nat) (sym : Memory 8) : Memory.MarkedBelow n sym sym :=
  ⟨id, fun _ _ => id, fun _ => .inl rfl⟩

theorem Memory.MarkedBelow.trans {n : Nat} {sym sym1 sym2 : Memory 8} (h1 : Memory.MarkedBelow n sym sym1)
    (h2 : Memory.MarkedBelow n sym1 sym2) : Memory.MarkedBelow n sym sym2 := by
  refine ⟨fun h => h2.wf (h1.wf h), fun c hc h => h2.below c hc (h1.below c hc h), fun k => ?_⟩
  rcases h2.read k with h | h
  · rw [h]
    exact h1.read k
  · exact .inr h

theorem Memory.read_mark (m : Memory 8) (a k : Nat) : (m.mark a).read k = if k = a then 3 else m.read k :=
  Memory.read_write m a 3 k

theorem Memory.symAt_mark (m : Memory 8) (a k : Nat) : (m.mark a).symAt k = if k = a then .s3 else m.symAt k := by
  unfold Memory.symAt
  rw [Memory.read_mark]
  by_cases h : k = a
  · rw [if_pos h, if_pos h]
    rfl
  · rw [if_neg h, if_neg h]

theorem Memory.markedBelow_mark (n a : Nat) (sym : Memory 8) (h : a < n) : Memory.MarkedBelow n sym (sym.mark a) := by
  refine ⟨fun hw => Memory.wf_write _ _ _ hw, fun c hc hb => Memory.below_write _ _ _ _ hb (by omega), fun k => ?_⟩
  rw [Memory.read_mark]
  by_cases hk : k = a
  · exact .inr ⟨by omega, if_pos hk⟩
  · exact .inl (if_neg hk)

/-- Pass 1 only marks. -/
theorem pass1Scan_marks (c : ConfRegs) (fuel i : Nat) (g : Option Nat) (zeros marks : Nat) (sym : Memory 8) :
    Memory.MarkedBelow (i + fuel) sym (pass1Scan c fuel i g zeros marks sym).1 := by
  induction fuel generalizing i g zeros marks sym with
  | zero => exact .refl _ _
  | succ fuel ih =>
    rw [pass1Scan.eq_def, show i + (fuel + 1) = i + 1 + fuel by omega]
    dsimp only
    split
    · exact ih _ _ _ _ _
    · split
      · split
        · split
          · exact (Memory.markedBelow_mark _ _ sym (by omega)).trans (ih _ _ _ _ _)
          · exact ih _ _ _ _ _
        · exact ih _ _ _ _ _
      · exact ih _ _ _ _ _
    · exact ih _ _ _ _ _
    · exact ih _ _ _ _ _

/-- The signature found stands among the indices searched. -/
theorem findSignature_some (sym : Memory 8) (fuel p q : Nat) (h : findSignature sym fuel p = some q) :
    p ≤ q ∧ q < p + fuel ∧ matchesAt sym q signature = true := by
  induction fuel generalizing p with
  | zero => simp [findSignature] at h
  | succ fuel ih =>
    rw [findSignature] at h
    split at h
    · rename_i hm
      obtain rfl : p = q := by simpa using h
      exact ⟨le_refl _, by omega, hm⟩
    · obtain ⟨h1, h2, h3⟩ := ih _ h
      exact ⟨by omega, by omega, h3⟩

/-- The first gap candidate starts no later than it ends. -/
def CandidateBelow (n : Nat) (cand : Option (Nat × Nat)) : Prop := ∀ c1 c1z, cand = some (c1, c1z) → c1 < n ∧ c1z < n

theorem noteCandidate_below (c : ConfRegs) (sym : Memory 8) (n i : Nat) (k : BlockScan) (hi : i < n)
    (hz : k.zstart ≤ i) (hc : CandidateBelow n k.candidate) : CandidateBelow n (noteCandidate c sym i k) := by
  intro c1 c1z h
  unfold noteCandidate at h
  split at h
  · simp only [Option.some.injEq, Prod.mk.injEq] at h
    omega
  · exact hc _ _ h

/-- Where the scan of a block ends. -/
def ScanEnd.within (i n : Nat) : ScanEnd → Prop
  | .capture cand => CandidateBelow n cand
  | .marker j cand => i ≤ j ∧ j < n ∧ CandidateBelow n cand
  | .hit j _ => i ≤ j ∧ j < n

/-- The scan of a block ends among the symbols given, and so does its candidate. -/
theorem scanBlock_within (c : ConfRegs) (sym : Memory 8) (n fuel i : Nat) (k : BlockScan) (hn : i + fuel ≤ n)
    (hz : k.zstart ≤ i) (hc : CandidateBelow n k.candidate) :
    (scanBlock c sym n fuel i k).within i n := by
  induction fuel generalizing i k with
  | zero => exact hc
  | succ fuel ih =>
    rw [scanBlock]
    dsimp only
    split
    · exact ⟨le_refl _, by omega, hc⟩
    · split
      · exact ⟨le_refl _, by omega⟩
      · have hk := noteCandidate_below c sym n i k (by omega) hz hc
        rename_i crc nbits _
        have h := ih (i + 1)
          ⟨demodPrev k.prev (sym.symAt i), crc, nbits, if k.prev = false ∧ sym.symAt i = .s0 then k.zb + 1 else 0,
            if (k.prev = false ∧ sym.symAt i = .s0) ∧ k.zb = 0 then i else k.zstart, noteCandidate c sym i k⟩
          (by omega) (by dsimp only; split <;> omega) hk
        revert h
        generalize scanBlock c sym n fuel (i + 1) _ = r
        cases r with
        | capture cand => exact id
        | marker j cand => exact fun h => ⟨by have := h.1; omega, h.2⟩
        | hit j b => exact fun h => ⟨by have := h.1; omega, h.2⟩

/-- The gap end located is among the symbols searched. -/
theorem gapModeScan_some (shortGap : Nat) (sym : Memory 8) (fuel i zsym e : Nat)
    (h : gapModeScan shortGap sym fuel i zsym = some e) : i ≤ e ∧ e < i + fuel ∧ sym.symAt e = .s1 := by
  induction fuel generalizing i zsym with
  | zero => simp [gapModeScan] at h
  | succ fuel ih =>
    rw [gapModeScan] at h
    split at h
    · obtain ⟨h1, h2, h3⟩ := ih _ _ h
      exact ⟨by omega, by omega, h3⟩
    · obtain ⟨h1, h2, h3⟩ := ih _ _ h
      exact ⟨by omega, by omega, h3⟩
    · rename_i hs
      split at h
      · obtain rfl : i = e := by simpa using h
        exact ⟨le_refl _, by omega, hs⟩
      · obtain ⟨h1, h2, h3⟩ := ih _ _ h
        exact ⟨by omega, by omega, h3⟩
    · obtain ⟨h1, h2, h3⟩ := ih _ _ h
      exact ⟨by omega, by omega, h3⟩

/-- One turn of pass 3 writes at most one marker, among the valid symbols. -/
theorem pass3Turn_marks (c : ConfRegs) (n e : Nat) (sym : Memory 8) :
    Memory.MarkedBelow n sym (pass3Turn c n e sym).sym ∧ (pass3Turn c n e sym).marks ≤ 1 := by
  unfold pass3Turn
  by_cases hn : e + 1 ≤ n
  · have hs := scanBlock_within c sym n (n - (e + 1)) (e + 1) ⟨true, crcStart c, 0, 0, 0, none⟩ (by omega)
      (Nat.zero_le _) (by simp [CandidateBelow])
    revert hs
    generalize scanBlock c sym n (n - (e + 1)) (e + 1) _ = r
    intro hs
    cases r with
    | capture cand =>
      cases cand with
      | none => exact ⟨.refl _ _, Nat.zero_le _⟩
      | some p => exact ⟨Memory.markedBelow_mark _ _ _ (hs p.1 p.2 rfl).2, le_refl _⟩
    | marker j cand =>
      cases cand with
      | none => exact ⟨.refl _ _, Nat.zero_le _⟩
      | some p => exact ⟨Memory.markedBelow_mark _ _ _ (hs.2.2 p.1 p.2 rfl).2, le_refl _⟩
    | hit j b =>
      cases b with
      | insideSymbol => exact ⟨Memory.markedBelow_mark _ _ _ hs.2, le_refl _⟩
      | afterSymbol =>
        by_cases h : j + 1 < n
        · simp only [h, if_true]
          exact ⟨Memory.markedBelow_mark _ _ _ h, le_refl _⟩
        · simp only [h, if_false]
          exact ⟨.refl _ _, Nat.zero_le _⟩
  · rw [show n - (e + 1) = 0 by omega]
    exact ⟨.refl _ _, Nat.zero_le _⟩

/-- Pass 3 only marks. -/
theorem pass3Loop_marks (c : ConfRegs) (n fuel : Nat) (e : Option Nat) (marks : Nat) (sym : Memory 8) :
    Memory.MarkedBelow n sym (pass3Loop c n fuel e marks sym).1 := by
  induction fuel generalizing e marks sym with
  | zero =>
    cases e <;> exact .refl _ _
  | succ fuel ih =>
    cases e with
    | none => exact .refl _ _
    | some e => exact (pass3Turn_marks c n e sym).1.trans (ih _ _ _)

/-- Pass 4 only marks. -/
theorem pass4Scan_marks (c : ConfRegs) (fuel i a marks : Nat) (sym : Memory 8) (ha : a ≤ i) :
    Memory.MarkedBelow (i + fuel) sym (pass4Scan c fuel i a marks sym).1 := by
  induction fuel generalizing i a marks sym with
  | zero => exact .refl _ _
  | succ fuel ih =>
    rw [pass4Scan, show i + (fuel + 1) = i + 1 + fuel by omega]
    have ha1 : (if sym.symAt i = .s0 then a else i + 1) ≤ i + 1 := by split <;> omega
    split
    · exact (Memory.markedBelow_mark _ _ sym (by omega)).trans (ih _ _ _ _ ha1)
    · exact ih _ _ _ _ ha1

/-- RP1 behind its bounds check leaves everything but SYM. -/
theorem pass1_marks (s : State) :
    ∃ sym, (pass1 s).1 = s.setSym sym ∧ Memory.MarkedBelow s.symLen.toNat s.mem.sym sym := by
  refine ⟨_, rfl, ?_⟩
  have h := pass1Scan_marks s.conf s.symLen.toNat 0 none 0 0 s.mem.sym
  rwa [Nat.zero_add] at h

/-- Both things RP2 can do behind its bounds check (spec/43_recon_marking.md rule R238). -/
theorem pass2_cases (s : State) :
    pass2 s = ({ s.setFlag .sigf false with sigPos := 0 }, 0) ∨
    ∃ p sym, p + 32 ≤ s.symLen.toNat ∧ p + 32 ≤ s.conf.sigLimit.toNat ∧ matchesAt s.mem.sym p signature = true ∧
      sym = (if 1 ≤ p then s.mem.sym.mark (p - 1) else s.mem.sym) ∧
      Memory.MarkedBelow s.symLen.toNat s.mem.sym sym ∧
      pass2 s = ({ (s.setSym sym).setFlag .sigf true with sigPos := word32 p }, p) := by
  unfold pass2
  dsimp only
  cases hf : findSignature s.mem.sym (min s.symLen.toNat s.conf.sigLimit.toNat - 31) 0 with
  | none => exact .inl rfl
  | some p =>
    obtain ⟨-, h2, h3⟩ := findSignature_some _ _ _ _ hf
    refine .inr ⟨p, _, by omega, by omega, h3, rfl, ?_, rfl⟩
    split
    · exact Memory.markedBelow_mark _ _ _ (by omega)
    · exact .refl _ _

/-- RP3 behind its bounds check leaves everything but SYM and the scratch CRC; with SIGF = 0 it marks nothing. -/
theorem pass3_marks (s : State) :
    ∃ sym, (pass3 s).1 = (s.setSym sym).scratchCrc ∧ Memory.MarkedBelow s.symLen.toNat s.mem.sym sym ∧
      (s.flag .sigf = false → sym = s.mem.sym ∧ (pass3 s).2 = 0) := by
  unfold pass3
  split
  · rename_i h
    exact ⟨_, rfl, pass3Loop_marks _ _ _ _ _ _, fun hf => by rw [hf] at h; simp at h⟩
  · exact ⟨s.mem.sym, rfl, .refl _ _, fun _ => ⟨rfl, rfl⟩⟩

/-- RP4 behind its bounds check leaves everything but SYM. -/
theorem pass4_marks (s : State) :
    ∃ sym, (pass4 s).1 = s.setSym sym ∧ Memory.MarkedBelow s.symLen.toNat s.mem.sym sym := by
  refine ⟨_, rfl, ?_⟩
  have h := pass4Scan_marks s.conf s.symLen.toNat 0 0 0 s.mem.sym (le_refl _)
  rwa [Nat.zero_add] at h

end Sys2Proof.Machine
end

