-- ==== Sys2Proof/Laws/BlockScan.lean ====
section
/-! SUPPORT. Laws/BlockScan.lean: what pass 3's scan of one block, its search for the next gap end and its loop find, in
the terms of Sys2Proof/Safety.lean (spec/43_recon_marking.md rules R240 to R247). -/

namespace Sys2Proof.Machine

/-! ## Sequences of symbols -/

theorem symsAt_length (m : Memory 8) (a n : Nat) : (symsAt m a n).length = n := by
  unfold symsAt
  rw [List.length_map]
  induction n generalizing a with
  | zero => rfl
  | succ n ih => rw [Memory.readN, List.length_cons, ih]

theorem symsAt_succ (m : Memory 8) (a n : Nat) : symsAt m a (n + 1) = symsAt m a n ++ [m.symAt (a + n)] := by
  unfold symsAt
  rw [Memory.readN_add m a n 1, List.map_append]
  rfl

theorem demodAll_append (p : Bool) (xs ys : List Sym) :
    demodAll p (xs ++ ys) = demodAll p xs ++ demodAll (demodEnd p xs) ys := by
  induction xs generalizing p with
  | nil => rfl
  | cons x xs ih => simp [demodAll, demodEnd, ih]

theorem demodEnd_append (p : Bool) (xs ys : List Sym) : demodEnd p (xs ++ ys) = demodEnd (demodEnd p xs) ys := by
  induction xs generalizing p with
  | nil => rfl
  | cons x xs ih => simp [demodEnd, ih]

/-- A symbol gives its new previous bit, or a 0 and then its new previous bit (spec/41_demod.md rule R163). -/
theorem demodBits_cases (p : Bool) (y : Sym) :
    demodBits p y = [demodPrev p y] ∨ demodBits p y = [false, demodPrev p y] := by
  cases p <;> cases y <;> decide

/-! ## The scan of one block -/

/-- The bits a scan from e has shifted in before it takes symbol k. -/
def State.bitsTo (s : State) (e k : Nat) : List Bool := demodAll true (symsAt s.mem.sym (e + 1) (k - (e + 1)))

@[simp] theorem State.prevAt_start (s : State) (e : Nat) : s.prevAt e (e + 1) = true := by
  simp [State.prevAt, symsAt, Memory.readN, demodEnd]

@[simp] theorem State.bitsTo_start (s : State) (e : Nat) : s.bitsTo e (e + 1) = [] := by
  simp [State.bitsTo, symsAt, Memory.readN, demodAll]

theorem State.prevAt_succ (s : State) (e k : Nat) (h : e < k) :
    s.prevAt e (k + 1) = demodPrev (s.prevAt e k) (s.mem.sym.symAt k) := by
  unfold State.prevAt
  rw [show k + 1 - (e + 1) = k - (e + 1) + 1 by omega, symsAt_succ, demodEnd_append,
    show e + 1 + (k - (e + 1)) = k by omega]
  rfl

theorem State.bitsTo_succ (s : State) (e k : Nat) (h : e < k) :
    s.bitsTo e (k + 1) = s.bitsTo e k ++ demodBits (s.prevAt e k) (s.mem.sym.symAt k) := by
  unfold State.bitsTo State.prevAt
  rw [show k + 1 - (e + 1) = k - (e + 1) + 1 by omega, symsAt_succ, demodAll_append,
    show e + 1 + (k - (e + 1)) = k by omega]
  simp [demodAll]

/-- `gapFollows` decides `looksLikeGap` (spec/43_recon_marking.md rule R243). -/
theorem gapFollows_iff (s : State) (j : Nat) (prev : Bool) :
    gapFollows s.conf s.mem.sym s.symLen.toNat j prev = true ↔ s.looksLikeGap j prev := by
  have zeros (a : Nat) : ((List.range (min s.symLen.toNat (a + s.conf.minGap.toNat) - a)).all
      (fun d => s.mem.sym.symAt (a + d) == .s0)) = true ↔
      ∀ k, a ≤ k → k < s.symLen.toNat → k < a + s.conf.minGap.toNat → s.mem.sym.symAt k = .s0 := by
    simp only [List.all_eq_true, List.mem_range, beq_iff_eq]
    constructor
    · intro h k h1 h2 h3
      have := h (k - a) (by omega)
      rwa [show a + (k - a) = k by omega] at this
    · intro h d hd
      exact h _ (by omega) (by omega) (by omega)
  unfold gapFollows State.looksLikeGap
  cases prev with
  | false => simpa using zeros j
  | true =>
    by_cases h1 : s.symLen.toNat ≤ j
    · simp [h1]
    · by_cases h2 : s.mem.sym.symAt j = .s1
      · simpa [h1, h2] using zeros (j + 1)
      · simp [h1, h2]

theorem gapFollows_eq_false (s : State) (j : Nat) (prev : Bool) (h : ¬ s.looksLikeGap j prev) :
    gapFollows s.conf s.mem.sym s.symLen.toNat j prev = false :=
  Bool.eq_false_iff.2 fun hg => h ((gapFollows_iff s j prev).1 hg)

/-- A block end with the symbol's last bit. -/
theorem State.blockEndsIn_last_iff (s : State) (e i : Nat) :
    s.blockEndsIn e i false ↔ s.scansTo e i ∧ (s.bitsTo e (i + 1)).length % 8 = 0 ∧
      24 ≤ (s.bitsTo e (i + 1)).length ∧ crcBits (crcStart s.conf) (s.bitsTo e (i + 1)) = 0 ∧
      s.looksLikeGap (i + 1) (s.prevAt e (i + 1)) := by
  unfold State.blockEndsIn
  rw [show demodAll true (symsAt s.mem.sym (e + 1) (i - e)) = s.bitsTo e (i + 1) by
      rw [State.bitsTo, show i + 1 - (e + 1) = i - e by omega],
    show demodAll true (symsAt s.mem.sym (e + 1) (i - (e + 1))) = s.bitsTo e i from rfl]
  simp only [Bool.toNat_false, Nat.sub_zero, List.take_length, Bool.false_eq_true, false_imp_iff, true_and]
  constructor
  · rintro ⟨h1, -, h2⟩
    exact ⟨h1, h2⟩
  · rintro ⟨h1, h2⟩
    refine ⟨h1, ?_, h2⟩
    rw [s.bitsTo_succ e i h1.1, List.length_append]
    have := demodBits_length_pos (s.prevAt e i) (s.mem.sym.symAt i)
    omega

/-- A block end with the first of a symbol's two bits. -/
theorem State.blockEndsIn_inside_iff (s : State) (e i : Nat) :
    s.blockEndsIn e i true ↔ s.scansTo e i ∧
      demodBits (s.prevAt e i) (s.mem.sym.symAt i) = [false, s.prevAt e (i + 1)] ∧
      ((s.bitsTo e i).length + 1) % 8 = 0 ∧ 24 ≤ (s.bitsTo e i).length + 1 ∧
      crcBit (crcBits (crcStart s.conf) (s.bitsTo e i)) false = 0 ∧ s.prevAt e (i + 1) = false ∧
      s.looksLikeGap (i + 1) false := by
  unfold State.blockEndsIn
  rw [show demodAll true (symsAt s.mem.sym (e + 1) (i - e)) = s.bitsTo e (i + 1) by
      rw [State.bitsTo, show i + 1 - (e + 1) = i - e by omega],
    show demodAll true (symsAt s.mem.sym (e + 1) (i - (e + 1))) = s.bitsTo e i from rfl]
  by_cases h : s.scansTo e i
  · rw [s.bitsTo_succ e i h.1]
    have hp := s.prevAt_succ e i h.1
    generalize s.bitsTo e i = xs
    rcases demodBits_cases (s.prevAt e i) (s.mem.sym.symAt i) with hd | hd
    · rw [hd]
      simp
    · rw [hd, ← hp]
      have ht : (xs ++ [false, s.prevAt e (i + 1)]).take (xs.length + 1) = xs ++ [false] := by
        rw [List.take_length_add_append]
        rfl
      simp only [List.length_append, List.length_cons, List.length_nil, Bool.toNat_true, Nat.zero_add,
        show xs.length + (1 + 1) - 1 = xs.length + 1 by omega, ht, crcBits_append,
        crcBits_cons, crcBits_nil, true_and, true_imp_iff, h]
      constructor
      · rintro ⟨-, h2, h3, h4, h5, h6⟩
        exact ⟨h2, h3, h4, h5, h5 ▸ h6⟩
      · rintro ⟨h2, h3, h4, h5, h6⟩
        exact ⟨by omega, h2, h3, h4, h5, h5.symm ▸ h6⟩
  · simp [h]

/-- One symbol's bits shifted in: the CRC and the bit count follow the bits, and the boundary found is the block end in
this symbol (spec/43_recon_marking.md rules R241, R242). -/
theorem scanBits_spec (s : State) (e i : Nat) (h : s.scansTo e i) :
    ∃ found, scanBits s.conf s.mem.sym s.symLen.toNat i (s.prevAt e (i + 1))
        (demodBits (s.prevAt e i) (s.mem.sym.symAt i)) (crcBits (crcStart s.conf) (s.bitsTo e i))
        (s.bitsTo e i).length none =
        (crcBits (crcStart s.conf) (s.bitsTo e (i + 1)), (s.bitsTo e (i + 1)).length, found) ∧
      (s.blockEndsIn e i false ↔ found = some .afterSymbol) ∧
      (s.blockEndsIn e i true ↔ found = some .insideSymbol) := by
  rw [s.blockEndsIn_last_iff, s.blockEndsIn_inside_iff, s.bitsTo_succ e i h.1]
  have hp := s.prevAt_succ e i h.1
  have hg := gapFollows_iff s (i + 1)
  generalize s.bitsTo e i = xs
  rcases demodBits_cases (s.prevAt e i) (s.mem.sym.symAt i) with hd | hd <;> rw [hd, ← hp] <;>
    generalize s.prevAt e (i + 1) = np at * <;>
    refine ⟨_, by simp only [scanBits, crcBits_append, crcBits_cons, crcBits_nil, List.length_append,
      List.length_cons, List.length_nil]; rfl, ?_, ?_⟩ <;>
    simp only [h, boundaryTest, crcBits_append, crcBits_cons, crcBits_nil, List.length_append, List.length_cons,
      List.length_nil, true_and, ← hg]
  · split <;> simp_all
  · split <;> simp
  · split_ifs <;> simp_all
    omega
  · split_ifs <;> simp_all

/-- What the scan of one block has found before it takes symbol i (spec/43_recon_marking.md rule R241). -/
structure State.Scanned (s : State) (e i : Nat) (k : BlockScan) : Prop where
  after : e < i
  within : i ≤ s.symLen.toNat
  clean : ∀ j, e < j → j < i → s.mem.sym.symAt j ≠ .s3
  prev : k.prev = s.prevAt e i
  crc : k.crc = crcBits (crcStart s.conf) (s.bitsTo e i)
  nbits : k.nbits = (s.bitsTo e i).length
  noEnd : ∀ j b, j < i → ¬ s.blockEndsIn e j b
  zeros : k.zb < i ∧ (∀ j, j < i → i ≤ j + k.zb → s.zeroBitAt e j) ∧ ¬ s.zeroBitAt e (i - 1 - k.zb)
  zstart : s.zeroRunStart e i k.zstart
  candidate : match k.candidate with
    | none => ∀ j, j < i → ¬ s.gapCandidate e j
    | some (c, z) => c < i ∧ s.gapCandidate e c ∧ (∀ j, j < c → ¬ s.gapCandidate e j) ∧ s.zeroRunStart e c z

theorem State.not_zeroBitAt_start (s : State) (e : Nat) : ¬ s.zeroBitAt e (e + 1) := by
  rintro ⟨-, -, h⟩
  rw [s.prevAt_start] at h
  cases h

theorem State.not_zeroBitAt_le (s : State) (e k : Nat) (h : k ≤ e + 1) : ¬ s.zeroBitAt e k := by
  rintro hz
  obtain rfl : k = e + 1 := by have := hz.1; omega
  exact s.not_zeroBitAt_start e hz

/-- The scan starts behind the gap-end symbol with previous bit 1. -/
theorem State.scanned_start (s : State) (e : Nat) (h : e + 1 ≤ s.symLen.toNat) :
    s.Scanned e (e + 1) ⟨true, crcStart s.conf, 0, 0, 0, none⟩ where
  after := by omega
  within := h
  clean := fun j h1 h2 => by omega
  prev := (s.prevAt_start e).symm
  crc := by simp
  nbits := by simp
  noEnd := fun j b hj hb => by have := hb.1.1; omega
  zeros := ⟨by simp, fun j h1 h2 => by simp at h2; omega, s.not_zeroBitAt_le e _ (by simp)⟩
  zstart := .inr ⟨rfl, fun k hk => s.not_zeroBitAt_le e k (by omega)⟩
  candidate := fun j hj hc => by have := hc.1.1; omega

/-- The candidate noted before symbol i is the first one up to i. -/
theorem State.noteCandidate_spec (s : State) (e i : Nat) (k : BlockScan) (hk : s.Scanned e i k)
    (hi : i < s.symLen.toNat) (hs : s.mem.sym.symAt i ≠ .s3) :
    match noteCandidate s.conf s.mem.sym i k with
    | none => ∀ j, j < i + 1 → ¬ s.gapCandidate e j
    | some (c, z) => c < i + 1 ∧ s.gapCandidate e c ∧ (∀ j, j < c → ¬ s.gapCandidate e j) ∧ s.zeroRunStart e c z := by
  have hscan : s.scansTo e i := ⟨hk.after, hi, fun j h1 h2 => by
    rcases Nat.lt_or_eq_of_le h2 with h | rfl
    · exact hk.clean j h1 h
    · exact hs⟩
  have hc := hk.candidate
  have hcand : s.gapCandidate e i ↔ k.prev = false ∧ s.mem.sym.symAt i = .s1 ∧ s.conf.minGap.toNat ≤ k.zb := by
    rw [hk.prev]
    constructor
    · rintro ⟨-, h2, h3, h4⟩
      refine ⟨h3, h2, ?_⟩
      by_contra hlt
      exact hk.zeros.2.2 (h4 _ (by have := hk.after; omega) (by have := hk.zeros.1; omega))
    · rintro ⟨h1, h2, h3⟩
      exact ⟨hscan, h2, h1, fun j hj hji => hk.zeros.2.1 j hj (by omega)⟩
  unfold noteCandidate
  cases hcd : k.candidate with
  | none =>
    rw [hcd] at hc
    by_cases h : s.gapCandidate e i
    · obtain ⟨h1, h2, h3⟩ := hcand.1 h
      rw [if_pos ⟨h1, h2, h3, rfl⟩]
      exact ⟨by omega, h, hc, hk.zstart⟩
    · rw [if_neg fun hx => h (hcand.2 ⟨hx.1, hx.2.1, hx.2.2.1⟩)]
      intro j hj
      rcases Nat.lt_or_eq_of_le (Nat.le_of_lt_succ hj) with hj | rfl
      · exact hc j hj
      · exact h
  | some p =>
    rw [hcd] at hc
    rw [if_neg (by simp)]
    exact ⟨by have := hc.1; omega, hc.2⟩

/-- A symbol in which no block ends leaves the scan as far along. -/
theorem State.scanned_next (s : State) (e i : Nat) (k : BlockScan) (hk : s.Scanned e i k) (hi : i < s.symLen.toNat)
    (hs : s.mem.sym.symAt i ≠ .s3) (hn : ∀ b, ¬ s.blockEndsIn e i b) :
    s.Scanned e (i + 1) ⟨s.prevAt e (i + 1), crcBits (crcStart s.conf) (s.bitsTo e (i + 1)),
      (s.bitsTo e (i + 1)).length, if k.prev = false ∧ s.mem.sym.symAt i = .s0 then k.zb + 1 else 0,
      if (k.prev = false ∧ s.mem.sym.symAt i = .s0) ∧ k.zb = 0 then i else k.zstart,
      noteCandidate s.conf s.mem.sym i k⟩ := by
  have ha := hk.after
  have hz : s.zeroBitAt e i ↔ k.prev = false ∧ s.mem.sym.symAt i = .s0 := by
    rw [hk.prev]
    exact ⟨fun h => ⟨h.2.2, h.2.1⟩, fun h => ⟨ha, h.2, h.1⟩⟩
  obtain ⟨z1, z2, z3⟩ := hk.zeros
  refine ⟨by omega, hi, fun j h1 h2 => ?_, rfl, rfl, rfl, fun j b hj => ?_, ?_, ?_, s.noteCandidate_spec e i k hk hi hs⟩
  · rcases Nat.lt_or_eq_of_le (Nat.le_of_lt_succ h2) with h | rfl
    · exact hk.clean j h1 h
    · exact hs
  · rcases Nat.lt_or_eq_of_le (Nat.le_of_lt_succ hj) with h | rfl
    · exact hk.noEnd j b h
    · exact hn b
  · dsimp only
    by_cases h : s.zeroBitAt e i
    · rw [if_pos (hz.1 h)]
      refine ⟨by omega, fun j h1 h2 => ?_, ?_⟩
      · rcases Nat.lt_or_eq_of_le (Nat.le_of_lt_succ h1) with hj | rfl
        · exact z2 j hj (by omega)
        · exact h
      · rwa [show i + 1 - 1 - (k.zb + 1) = i - 1 - k.zb by omega]
    · rw [if_neg fun x => h (hz.2 x)]
      exact ⟨by omega, fun j h1 h2 => by omega, h⟩
  · dsimp only
    by_cases h : s.zeroBitAt e i
    · by_cases hb : k.zb = 0
      · rw [if_pos ⟨hz.1 h, hb⟩]
        rw [hb] at z3
        exact .inl ⟨by omega, h, z3, fun j h1 h2 => by omega⟩
      · rw [if_neg fun x => hb x.2]
        have hi1 : s.zeroBitAt e (i - 1) := z2 _ (by omega) (by omega)
        rcases hk.zstart with ⟨h1, h2, h3, h4⟩ | ⟨-, h2⟩
        · refine .inl ⟨by omega, h2, h3, fun j hj1 hj2 hj => ?_⟩
          rcases Nat.lt_or_eq_of_le (Nat.le_of_lt_succ hj2) with hj3 | rfl
          · exact h4 j hj1 hj3 hj
          · exact hi1
        · exact absurd hi1 (h2 _ (by omega))
    · rw [if_neg fun x => h (hz.2 x.1)]
      rcases hk.zstart with ⟨h1, h2, h3, h4⟩ | ⟨h1, h2⟩
      · refine .inl ⟨by omega, h2, h3, fun j hj1 hj2 hj => ?_⟩
        rcases Nat.lt_or_eq_of_le (Nat.le_of_lt_succ hj2) with hj3 | rfl
        · exact h4 j hj1 hj3 hj
        · exact absurd hj h
      · refine .inr ⟨h1, fun j hj => ?_⟩
        rcases Nat.lt_or_eq_of_le (Nat.le_of_lt_succ hj) with hj3 | rfl
        · exact h2 j hj3
        · exact h

/-- The candidate a scan that found no block end ends with: the first of the whole scan, or none. -/
def State.FirstCandidate (s : State) (e : Nat) : Option (Nat × Nat) → Prop
  | none => ∀ j, ¬ s.gapCandidate e j
  | some (c, z) => s.gapCandidate e c ∧ (∀ j, j < c → ¬ s.gapCandidate e j) ∧ s.zeroRunStart e c z

/-- Everything the scan of one block can find (spec/43_recon_marking.md rules R241, R242): the first block end; or none,
and the first marker or the end of the capture, with the first candidate. -/
def State.ScanFinds (s : State) (e : Nat) : ScanEnd → Prop
  | .hit i .afterSymbol => s.firstBlockEnd e i false
  | .hit i .insideSymbol => s.firstBlockEnd e i true
  | .marker i cand => (∀ j b, ¬ s.blockEndsIn e j b) ∧ s.FirstCandidate e cand ∧ e < i ∧ i < s.symLen.toNat ∧
      s.mem.sym.symAt i = .s3 ∧ ∀ j, e < j → j < i → s.mem.sym.symAt j ≠ .s3
  | .capture cand => (∀ j b, ¬ s.blockEndsIn e j b) ∧ s.FirstCandidate e cand ∧
      ∀ j, e < j → j < s.symLen.toNat → s.mem.sym.symAt j ≠ .s3

/-- Where the scan can go no further than symbol i, what it has found before i is all there is. -/
theorem State.Scanned.stopped {s : State} {e i : Nat} {k : BlockScan} (hk : s.Scanned e i k)
    (hstop : ∀ j, i ≤ j → ¬ s.scansTo e j) :
    (∀ j b, ¬ s.blockEndsIn e j b) ∧ s.FirstCandidate e k.candidate := by
  constructor
  · intro j b hb
    by_cases h : j < i
    · exact hk.noEnd j b h hb
    · exact hstop j (by omega) hb.1
  · have hc := hk.candidate
    cases hcd : k.candidate with
    | none =>
      rw [hcd] at hc
      intro j hj
      by_cases h : j < i
      · exact hc j h hj
      · exact hstop j (by omega) hj.1
    | some p =>
      rw [hcd] at hc
      exact hc.2

/-- The scan of one block from symbol i on finds what there is. -/
theorem scanBlock_spec (s : State) (e fuel i : Nat) (k : BlockScan) (hk : s.Scanned e i k)
    (hf : i + fuel = s.symLen.toNat) :
    s.ScanFinds e (scanBlock s.conf s.mem.sym s.symLen.toNat fuel i k) := by
  induction fuel generalizing i k with
  | zero =>
    obtain ⟨h1, h2⟩ := hk.stopped fun j hj h => by have := h.2.1; omega
    exact ⟨h1, h2, fun j hj1 hj2 => hk.clean j hj1 (by omega)⟩
  | succ fuel ih =>
    rw [scanBlock]
    dsimp only
    by_cases hs : s.mem.sym.symAt i = .s3
    · rw [if_pos hs]
      obtain ⟨h1, h2⟩ := hk.stopped fun j hj h => h.2.2 i hk.after hj hs
      exact ⟨h1, h2, hk.after, by omega, hs, hk.clean⟩
    · rw [if_neg hs]
      have hscan : s.scansTo e i := ⟨hk.after, by omega, fun j h1 h2 => by
        rcases Nat.lt_or_eq_of_le h2 with h | rfl
        · exact hk.clean j h1 h
        · exact hs⟩
      obtain ⟨found, hb, ha, hi⟩ := scanBits_spec s e i hscan
      have hnp : demodPrev k.prev (s.mem.sym.symAt i) = s.prevAt e (i + 1) := by
        rw [s.prevAt_succ e i hk.after, hk.prev]
      rw [hnp, hk.crc, hk.nbits, hk.prev, hb]
      rw [← hk.prev]
      cases found with
      | none =>
        exact ih (i + 1) _ (s.scanned_next e i k hk (by omega) hs fun b => by
          cases b
          · simpa using ha
          · simpa using hi) (by omega)
      | some b =>
        cases b
        · exact ⟨ha.2 rfl, fun j hj b => hk.noEnd j b hj⟩
        · exact ⟨hi.2 rfl, fun j hj b => hk.noEnd j b hj⟩

/-! ## The next gap end -/

/-- The search from symbol i on, with `zsym` 0 symbols counted since `a`, finds the first gap end by the short
criterion (spec/43_recon_marking.md rule R246). -/
theorem gapModeScan_spec (s : State) (start fuel i zsym a : Nat) (hf : i + fuel = s.symLen.toNat) (ha : start ≤ a)
    (hai : a ≤ i) (hz : zsym = (symsAt s.mem.sym a (i - a)).count .s0)
    (hrun : ∀ k, a ≤ k → k < i → s.mem.sym.symAt k = .s0 ∨ s.mem.sym.symAt k = .s3)
    (hstop : a = start ∨ (s.mem.sym.symAt (a - 1) ≠ .s0 ∧ s.mem.sym.symAt (a - 1) ≠ .s3))
    (hno : ∀ k, k < i → ¬ s.shortGapEnd start k) :
    s.nextGapEnd start (gapModeScan s.conf.shortGap.toNat s.mem.sym fuel i zsym) := by
  induction fuel generalizing i zsym a with
  | zero =>
    intro k hk
    exact hno k (by have := hk.1; omega) hk
  | succ fuel ih =>
    have hcount : symsAt s.mem.sym a (i + 1 - a) = symsAt s.mem.sym a (i - a) ++ [s.mem.sym.symAt i] := by
      rw [show i + 1 - a = i - a + 1 by omega, symsAt_succ, show a + (i - a) = i by omega]
    have hrun1 (h : s.mem.sym.symAt i = .s0 ∨ s.mem.sym.symAt i = .s3) :
        ∀ k, a ≤ k → k < i + 1 → s.mem.sym.symAt k = .s0 ∨ s.mem.sym.symAt k = .s3 := fun k h1 h2 => by
      rcases Nat.lt_or_eq_of_le (Nat.le_of_lt_succ h2) with h3 | rfl
      · exact hrun k h1 h3
      · exact h
    have hno1 (h : ¬ s.shortGapEnd start i) : ∀ k, k < i + 1 → ¬ s.shortGapEnd start k := fun k hk => by
      rcases Nat.lt_or_eq_of_le (Nat.le_of_lt_succ hk) with h3 | rfl
      · exact hno k h3
      · exact h
    rw [gapModeScan]
    cases hs : s.mem.sym.symAt i with
    | s3 =>
      exact ih (i + 1) zsym a (by omega) ha (by omega) (by rw [hcount, hs, List.count_append]; simpa using hz)
        (hrun1 (.inr hs)) hstop (hno1 fun h => by have := h.2.1; rw [hs] at this; cases this)
    | s0 =>
      exact ih (i + 1) (zsym + 1) a (by omega) ha (by omega) (by rw [hcount, hs, List.count_append, hz]; simp)
        (hrun1 (.inl hs)) hstop (hno1 fun h => by have := h.2.1; rw [hs] at this; cases this)
    | s2 =>
      exact ih (i + 1) 0 (i + 1) (by omega) (by omega) (le_refl _) (by simp [symsAt, Memory.readN])
        (fun k h1 h2 => by omega) (.inr (by simp [hs])) (hno1 fun h => by have := h.2.1; rw [hs] at this; cases this)
    | s1 =>
      dsimp only
      by_cases hg : s.conf.shortGap.toNat < zsym
      · rw [if_pos hg]
        exact ⟨⟨by omega, hs, a, ha, hai, hrun, by rwa [← hz]⟩, hno⟩
      · rw [if_neg hg]
        refine ih (i + 1) 0 (i + 1) (by omega) (by omega) (le_refl _) (by simp [symsAt, Memory.readN])
          (fun k h1 h2 => by omega) (.inr (by simp [hs])) (hno1 ?_)
        rintro ⟨-, -, b, hb1, hb2, hb3, hb4⟩
        have hab : a ≤ b := by
          by_contra hlt
          rcases hstop with rfl | ⟨h1, h2⟩
          · omega
          · rcases hb3 (a - 1) (by omega) (by omega) with h | h
            · exact h1 h
            · exact h2 h
        have hle : (symsAt s.mem.sym b (i - b)).count .s0 ≤ (symsAt s.mem.sym a (i - a)).count .s0 := by
          have : symsAt s.mem.sym a (i - a) = symsAt s.mem.sym a (b - a) ++ symsAt s.mem.sym b (i - b) := by
            unfold symsAt
            rw [show i - a = b - a + (i - b) by omega, Memory.readN_add, List.map_append,
              show a + (b - a) = b by omega]
          rw [this, List.count_append]
          omega
        omega

theorem gapModeLocate_spec (s : State) (start : Nat) :
    s.nextGapEnd start (gapModeLocate s.conf s.mem.sym s.symLen.toNat start) := by
  have before : ∀ k, k < start → ¬ s.shortGapEnd start k := by
    rintro k hk ⟨-, -, a, h1, h2, -⟩
    omega
  unfold gapModeLocate
  by_cases h : start ≤ s.symLen.toNat
  · exact gapModeScan_spec s start _ start 0 start (by omega) (le_refl _) (le_refl _) (by simp [symsAt, Memory.readN])
      (fun k h1 h2 => by omega) (.inl rfl) before
  · rw [show s.symLen.toNat - start = 0 by omega]
    exact fun k hk => before k (by have := hk.1; omega) hk

/-- There is one next gap end. -/
theorem State.nextGapEnd_unique (s : State) (start : Nat) (a b : Option Nat) (ha : s.nextGapEnd start a)
    (hb : s.nextGapEnd start b) : a = b := by
  cases a with
  | none =>
    cases b with
    | none => rfl
    | some j => exact absurd hb.1 (ha j)
  | some i =>
    cases b with
    | none => exact absurd ha.1 (hb i)
    | some j =>
      rcases Nat.lt_trichotomy i j with h | rfl | h
      · exact absurd ha.1 (hb.2 i h)
      · rfl
      · exact absurd hb.1 (ha.2 j h)

/-- The search sees no symbol before its start. -/
theorem gapModeLocate_mark (c : ConfRegs) (sym : Memory 8) (n start a : Nat) (h : a < start) :
    gapModeLocate c (sym.mark a) n start = gapModeLocate c sym n start := by
  have scan : ∀ fuel i zsym, a < i → gapModeScan c.shortGap.toNat (sym.mark a) fuel i zsym =
      gapModeScan c.shortGap.toNat sym fuel i zsym := by
    intro fuel
    induction fuel with
    | zero => exact fun _ _ _ => rfl
    | succ fuel ih =>
      intro i zsym hi
      rw [gapModeScan, gapModeScan, Memory.symAt_mark, if_neg (by omega)]
      simp only [ih (i + 1) _ (by omega)]
  exact scan _ _ _ h

/-! ## The loop -/

/-- The scan of one turn finds what there is behind its gap-end symbol. -/
theorem scanBlock_finds (s : State) (e : Nat) :
    s.ScanFinds e (scanBlock s.conf s.mem.sym s.symLen.toNat (s.symLen.toNat - (e + 1)) (e + 1)
      ⟨true, crcStart s.conf, 0, 0, 0, none⟩) := by
  by_cases h : e + 1 ≤ s.symLen.toNat
  · exact scanBlock_spec s e _ _ _ (s.scanned_start e h) (by omega)
  · rw [show s.symLen.toNat - (e + 1) = 0 by omega]
    have none : ∀ j, ¬ s.scansTo e j := fun j hj => by have := hj.1; have := hj.2.1; omega
    exact ⟨fun j b hb => none j hb.1, fun j hj => none j hj.1, fun j h1 h2 => by omega⟩

/-- Everything one turn of pass 3 can do (spec/43_recon_marking.md rules R244, R245, R247). -/
theorem pass3Turn_cases (s : State) (e : Nat) (t : Turn)
    (ht : pass3Turn s.conf s.symLen.toNat e s.mem.sym = t) :
    (∃ i inside, s.firstBlockEnd e i inside ∧ s.nextGapEnd ((if inside then i else i + 1) + 1) t.next ∧
      t.sym = (if (if inside then i else i + 1) < s.symLen.toNat then
        s.mem.sym.mark (if inside then i else i + 1) else s.mem.sym) ∧
      t.marks = if (if inside then i else i + 1) < s.symLen.toNat then 1 else 0) ∨
    ((∀ i b, ¬ s.blockEndsIn e i b) ∧
      ((∃ c z, s.FirstCandidate e (some (c, z)) ∧ t = ⟨s.mem.sym.mark z, 1, some c⟩) ∨
      (s.FirstCandidate e none ∧
        ((∃ i, e < i ∧ i < s.symLen.toNat ∧ s.mem.sym.symAt i = .s3 ∧
            (∀ j, e < j → j < i → s.mem.sym.symAt j ≠ .s3) ∧ s.nextGapEnd (i + 1) t.next ∧
            t.sym = s.mem.sym ∧ t.marks = 0) ∨
          ((∀ j, e < j → j < s.symLen.toNat → s.mem.sym.symAt j ≠ .s3) ∧ t = ⟨s.mem.sym, 0, none⟩))))) := by
  subst ht
  have hf := scanBlock_finds s e
  unfold pass3Turn
  generalize scanBlock s.conf s.mem.sym s.symLen.toNat (s.symLen.toNat - (e + 1)) (e + 1) _ = r at hf
  cases r with
  | hit i b =>
    cases b with
    | afterSymbol =>
      refine .inl ⟨i, false, hf, ?_⟩
      by_cases h : i + 1 < s.symLen.toNat
      · simp only [h, if_true, Bool.false_eq_true, if_false, gapModeLocate_mark _ _ _ _ _ (Nat.lt_succ_self (i + 1))]
        exact ⟨gapModeLocate_spec s _, trivial, trivial⟩
      · simp only [h, if_false, Bool.false_eq_true]
        exact ⟨gapModeLocate_spec s _, trivial, trivial⟩
    | insideSymbol =>
      refine .inl ⟨i, true, hf, ?_⟩
      simp only [if_true, gapModeLocate_mark _ _ _ _ _ (Nat.lt_succ_self i), if_pos hf.1.1.2.1]
      exact ⟨gapModeLocate_spec s _, trivial, trivial⟩
  | marker i cand =>
    obtain ⟨h1, h2, h3, h4, h5, h6⟩ := hf
    refine .inr ⟨h1, ?_⟩
    cases cand with
    | none => exact .inr ⟨h2, .inl ⟨i, h3, h4, h5, h6, gapModeLocate_spec s _, rfl, rfl⟩⟩
    | some p => exact .inl ⟨p.1, p.2, h2, rfl⟩
  | capture cand =>
    obtain ⟨h1, h2, h3⟩ := hf
    refine .inr ⟨h1, ?_⟩
    cases cand with
    | none => exact .inr ⟨h2, .inr ⟨h3, rfl⟩⟩
    | some p => exact .inl ⟨p.1, p.2, h2, rfl⟩

/-- The next gap end of a turn lies behind the one it started from, within the capture. -/
theorem pass3Turn_next (s : State) (e e1 : Nat)
    (h : (pass3Turn s.conf s.symLen.toNat e s.mem.sym).next = some e1) : e < e1 ∧ e1 < s.symLen.toNat := by
  have gap : ∀ start, e < start → s.nextGapEnd start (pass3Turn s.conf s.symLen.toNat e s.mem.sym).next →
      e < e1 ∧ e1 < s.symLen.toNat := by
    intro start hs hg
    rw [h] at hg
    obtain ⟨⟨h1, -, a, h2, h3, -⟩, -⟩ := hg
    exact ⟨by omega, h1⟩
  rcases pass3Turn_cases s e _ rfl with ⟨i, b, hf, hg, -⟩ | ⟨-, ⟨c, z, hf, ht⟩ | ⟨-, ⟨i, hi, -, -, -, hg, -⟩ | ⟨-, ht⟩⟩⟩
  · exact gap _ (by have := hf.1.1.1; split <;> omega) hg
  · rw [ht] at h
    obtain rfl : c = e1 := by simpa using h
    exact ⟨hf.1.1.1, hf.1.1.2.1⟩
  · exact gap _ (by omega) hg
  · rw [ht] at h
    cases h

/-- Turns enough for the gap ends that can still come are as good as any more, and the markers written before are
counted on top (spec/43_recon_marking.md rule R240; log 12). -/
theorem pass3Loop_fuel (s : State) (fuel fuel1 : Nat) (e : Option Nat) (marks : Nat) (sym : Memory 8)
    (h : ∀ x, e = some x → s.symLen.toNat < x + fuel ∧ s.symLen.toNat < x + fuel1 ∧ 0 < fuel ∧ 0 < fuel1) :
    pass3Loop s.conf s.symLen.toNat fuel e marks sym =
      ((pass3Loop s.conf s.symLen.toNat fuel1 e 0 sym).1, (pass3Loop s.conf s.symLen.toNat fuel1 e 0 sym).2 + marks) := by
  have done : ∀ f m sym, pass3Loop s.conf s.symLen.toNat f none m sym = (sym, m) := fun f m sym => by cases f <;> rfl
  have more : ∀ fuel fuel1 e m marks sym, (∀ x, e = some x → s.symLen.toNat < x + fuel ∧ s.symLen.toNat < x + fuel1 ∧
      0 < fuel ∧ 0 < fuel1) → pass3Loop s.conf s.symLen.toNat fuel e (m + marks) sym =
      ((pass3Loop s.conf s.symLen.toNat fuel1 e m sym).1, (pass3Loop s.conf s.symLen.toNat fuel1 e m sym).2 + marks) := by
    intro fuel
    induction fuel with
    | zero =>
      intro fuel1 e m marks sym h
      cases e with
      | none => rw [done, done]
      | some x => exact absurd (h x rfl).2.2.1 (lt_irrefl 0)
    | succ fuel ih =>
      intro fuel1 e m marks sym h
      cases e with
      | none => rw [done, done]
      | some x =>
        obtain ⟨h1, h2, -, h4⟩ := h x rfl
        obtain ⟨fuel1, rfl⟩ : ∃ f, fuel1 = f + 1 := ⟨fuel1 - 1, by omega⟩
        rw [pass3Loop, pass3Loop]
        rw [show m + marks + (pass3Turn s.conf s.symLen.toNat x sym).marks =
          m + (pass3Turn s.conf s.symLen.toNat x sym).marks + marks by omega]
        refine ih fuel1 _ _ _ _ fun y hy => ?_
        obtain ⟨h5, h6⟩ : x < y ∧ y < s.symLen.toNat := pass3Turn_next (s.setSym sym) x y hy
        omega
  rw [← Nat.zero_add marks]
  rw [more fuel fuel1 e 0 marks sym h, Nat.zero_add]

end Sys2Proof.Machine
end

