-- ==== Sys2Proof/Laws/Decode.lean ====
section
/-! SUPPORT. Laws/Decode.lean: the fields of a command word (spec/30_encoding.md rule R111). -/

namespace Sys2Proof

/-- Where each bit of a command word comes from. -/
theorem commandWord_getLsbD (op : BitVec 8) (a : BitVec 24) (b : Word) (k : Nat) :
    (commandWord op a b).getLsbD k =
      if k < 8 then op.getLsbD k else if k < 32 then a.getLsbD (k - 8) else b.getLsbD (k - 32) := by
  have h : (commandWord op a b).getLsbD k = if k < 8 then op.getLsbD k else (b ++ a).getLsbD (k - 8) :=
    BitVec.getLsbD_append
  rw [h, BitVec.getLsbD_append]
  by_cases h1 : k < 8
  · rw [if_pos h1, if_pos h1]
  · by_cases h2 : k < 32
    · rw [if_neg h1, if_neg h1, if_pos h2, if_pos (by omega)]
    · rw [if_neg h1, if_neg h1, if_neg h2, if_neg (by omega), show k - 8 - 24 = k - 32 by omega]

@[simp] theorem fieldOp_commandWord (op : BitVec 8) (a : BitVec 24) (b : Word) :
    fieldOp (commandWord op a b) = op := by
  apply BitVec.eq_of_getLsbD_eq
  intro k hk
  rw [fieldOp, BitVec.getLsbD_extractLsb', commandWord_getLsbD, if_pos (by omega)]
  simp [hk]

@[simp] theorem fieldA_commandWord (op : BitVec 8) (a : BitVec 24) (b : Word) :
    fieldA (commandWord op a b) = a := by
  apply BitVec.eq_of_getLsbD_eq
  intro k hk
  rw [fieldA, BitVec.getLsbD_extractLsb', commandWord_getLsbD, if_neg (by omega), if_pos (by omega)]
  simp [hk]

@[simp] theorem fieldB_commandWord (op : BitVec 8) (a : BitVec 24) (b : Word) :
    fieldB (commandWord op a b) = b := by
  apply BitVec.eq_of_getLsbD_eq
  intro k hk
  rw [fieldB, BitVec.getLsbD_extractLsb', commandWord_getLsbD, if_neg (by omega), if_neg (by omega)]
  simp [hk]

/-- A command word is the word of its three fields. -/
theorem commandWord_fields (w : CommandWord) : commandWord (fieldOp w) (fieldA w) (fieldB w) = w := by
  apply BitVec.eq_of_getLsbD_eq
  intro k hk
  rw [commandWord_getLsbD, fieldOp, fieldA, fieldB, BitVec.getLsbD_extractLsb', BitVec.getLsbD_extractLsb',
    BitVec.getLsbD_extractLsb']
  by_cases h1 : k < 8
  · simp [h1]
  · by_cases h2 : k < 32
    · rw [if_neg h1, if_pos h2, show 8 + (k - 8) = k by omega, decide_eq_true (by omega), Bool.true_and]
    · rw [if_neg h1, if_neg h2, show 32 + (k - 32) = k by omega, decide_eq_true (by omega), Bool.true_and]

end Sys2Proof
end

