-- ==== Sys2Proof/Laws/Framer.lean ====
section
/-! SUPPORT. Laws/Framer.lean: what the framer can do. -/

namespace Sys2Proof.Machine

@[simp] theorem frame_length (c : ConfRegs) (p : List Byte) : (frame c p).length = framedLength c p.length := by
  simp [frame, framedLength, le16]
  omega

/-- Framing blocks from index o keeps BIN canonical and within any capacity that holds them, and writes nothing outside
the blocks. -/
theorem frameBlocks_keeps (c : ConfRegs) (src : Memory 8) (blocks : List (Nat × Nat)) (o cap : Nat) (bin : Memory 8)
    (hw : bin.wf) (hb : bin.below cap) (hc : o + framedNeed c blocks ≤ cap) :
    (frameBlocks c src blocks o bin).wf ∧ (frameBlocks c src blocks o bin).below cap ∧
      ∀ k, (k < o ∨ o + framedNeed c blocks ≤ k) → (frameBlocks c src blocks o bin).read k = bin.read k := by
  induction blocks generalizing o bin with
  | nil => exact ⟨hw, hb, fun _ _ => rfl⟩
  | cons b rest ih =>
    obtain ⟨a, len⟩ := b
    have hn : framedNeed c ((a, len) :: rest) = framedLength c len + framedNeed c rest := by simp [framedNeed]
    rw [hn] at hc ⊢
    have hl : (frame c (src.readN a len)).length = framedLength c len := by simp
    obtain ⟨h1, h2, h3⟩ := ih (o + framedLength c len) (bin.writeN o (frame c (src.readN a len)))
      (Memory.wf_writeN _ _ _ hw) (Memory.below_writeN _ _ _ _ hb (by omega)) (by omega)
    refine ⟨h1, h2, fun k hk => ?_⟩
    rw [frameBlocks, h3 k (by omega), Memory.read_writeN, if_neg (by omega)]

/-- The files of a side stand at or behind the index the walk starts from. -/
theorem walkFiles_nonneg (src : Memory 8) (n fuel i : Nat) (bs : List (Nat × Nat)) (h : walkFiles src n fuel i = .ok bs) :
    ∀ b ∈ bs, i ≤ b.1 ∧ b.1 + b.2 ≤ n := by
  induction fuel generalizing i bs with
  | zero =>
    obtain rfl : [] = bs := by simpa [walkFiles] using h
    simp
  | succ fuel ih =>
    rw [walkFiles] at h
    split at h
    · split at h
      · simp at h
      · dsimp only at h
        split at h
        · simp at h
        · split at h
          · simp at h
          · rename_i hr
            simp only [Except.ok.injEq] at h
            subst h
            intro b hb
            rcases List.mem_cons.mp hb with rfl | hb
            · exact ⟨le_refl _, by dsimp only; omega⟩
            · rcases List.mem_cons.mp hb with rfl | hb
              · exact ⟨by dsimp only; omega, by dsimp only; omega⟩
              · obtain ⟨h1, h2⟩ := ih _ _ hr b hb
                exact ⟨by omega, h2⟩
    · obtain rfl : [] = bs := by simpa using h
      simp

/-- Every block the walk lists lies within the side (spec/42_framer.md rule R201). -/
theorem walk_within (src : Memory 8) (n : Nat) (bs : List (Nat × Nat)) (h : walk src n = .ok bs) :
    ∀ b ∈ bs, b.1 + b.2 ≤ n := by
  unfold walk at h
  split at h
  · simp at h
  · split at h
    · simp at h
    · rename_i hr
      simp only [Except.ok.injEq] at h
      subst h
      intro b hb
      rcases List.mem_cons.mp hb with rfl | hb
      · dsimp only
        omega
      · rcases List.mem_cons.mp hb with rfl | hb
        · dsimp only
          omega
        · exact (walkFiles_nonneg _ _ _ _ _ hr b hb).2

end Sys2Proof.Machine
end

