-- ==== Sys2Proof/Laws/PerInstr.lean ====
section
/-! SUPPORT. Laws/PerInstr.lean: one lemma per operation for the families of LAWS.json. -/

namespace Sys2Proof.Laws

/-- The opcode of an operation (spec/30_encoding.md rule R113). -/
def opcode : Instr → BitVec 8
  | .nop => 0x00
  | .rdreg _ => 0x01
  | .wrreg _ _ => 0x02
  | .diagrd => 0x03
  | .diagclr => 0x04
  | .crcinit => 0x10
  | .crcstart => 0x11
  | .crcbit _ => 0x12
  | .crcbyte _ => 0x13
  | .crcbuf _ _ => 0x14
  | .crcgen _ _ => 0x15
  | .crcchk _ _ => 0x16
  | .crcput _ => 0x17
  | .quant => 0x20
  | .dinit _ => 0x21
  | .dsym _ => 0x22
  | .gapfind => 0x23
  | .decblk _ _ => 0x24
  | .decseq => 0x25
  | .frblk _ _ => 0x30
  | .frside => 0x31
  | .rp1 => 0x40
  | .rp2 => 0x41
  | .rp3 => 0x42
  | .rp4 => 0x43
  | .rp5 => 0x44
  | .recon => 0x4F

/-- Operand A, 0 where the operation has none. -/
def operandA : Instr → BitVec 24
  | .nop => 0
  | .rdreg r => r.setWidth 24
  | .wrreg r _ => r.setWidth 24
  | .diagrd => 0
  | .diagclr => 0
  | .crcinit => 0
  | .crcstart => 0
  | .crcbit b => (BitVec.ofBool b).setWidth 24
  | .crcbyte v => v.setWidth 24
  | .crcbuf a _ => a
  | .crcgen a _ => a
  | .crcchk a _ => a
  | .crcput a => a
  | .quant => 0
  | .dinit b => (BitVec.ofBool b).setWidth 24
  | .dsym v => v.setWidth 24
  | .gapfind => 0
  | .decblk t _ => t.setWidth 24
  | .decseq => 0
  | .frblk a _ => a
  | .frside => 0
  | .rp1 => 0
  | .rp2 => 0
  | .rp3 => 0
  | .rp4 => 0
  | .rp5 => 0
  | .recon => 0

/-- Operand B, 0 where the operation has none. -/
def operandB : Instr → Word
  | .nop => 0
  | .rdreg _ => 0
  | .wrreg _ v => v
  | .diagrd => 0
  | .diagclr => 0
  | .crcinit => 0
  | .crcstart => 0
  | .crcbit _ => 0
  | .crcbyte _ => 0
  | .crcbuf _ n => n
  | .crcgen _ n => n
  | .crcchk _ n => n
  | .crcput _ => 0
  | .quant => 0
  | .dinit _ => 0
  | .dsym _ => 0
  | .gapfind => 0
  | .decblk _ n => n
  | .decseq => 0
  | .frblk _ n => n
  | .frside => 0
  | .rp1 => 0
  | .rp2 => 0
  | .rp3 => 0
  | .rp4 => 0
  | .rp5 => 0
  | .recon => 0

/-- The word of an operation holds its opcode and its operands, each in its field. -/
def EncodeFields.Statement (i : Instr) : Prop :=
  fieldOp (encode i) = opcode i ∧ fieldA (encode i) = operandA i ∧ fieldB (encode i) = operandB i

theorem EncodeFields.nop : EncodeFields.Statement .nop :=
  ⟨fieldOp_commandWord _ _ _, fieldA_commandWord _ _ _, fieldB_commandWord _ _ _⟩

theorem EncodeFields.rdreg (r : BitVec 8) : EncodeFields.Statement (.rdreg r) :=
  ⟨fieldOp_commandWord _ _ _, fieldA_commandWord _ _ _, fieldB_commandWord _ _ _⟩

theorem EncodeFields.wrreg (r : BitVec 8) (v : Word) : EncodeFields.Statement (.wrreg r v) :=
  ⟨fieldOp_commandWord _ _ _, fieldA_commandWord _ _ _, fieldB_commandWord _ _ _⟩

theorem EncodeFields.diagrd : EncodeFields.Statement .diagrd :=
  ⟨fieldOp_commandWord _ _ _, fieldA_commandWord _ _ _, fieldB_commandWord _ _ _⟩

theorem EncodeFields.diagclr : EncodeFields.Statement .diagclr :=
  ⟨fieldOp_commandWord _ _ _, fieldA_commandWord _ _ _, fieldB_commandWord _ _ _⟩

theorem EncodeFields.crcinit : EncodeFields.Statement .crcinit :=
  ⟨fieldOp_commandWord _ _ _, fieldA_commandWord _ _ _, fieldB_commandWord _ _ _⟩

theorem EncodeFields.crcstart : EncodeFields.Statement .crcstart :=
  ⟨fieldOp_commandWord _ _ _, fieldA_commandWord _ _ _, fieldB_commandWord _ _ _⟩

theorem EncodeFields.crcbit (b : Bool) : EncodeFields.Statement (.crcbit b) :=
  ⟨fieldOp_commandWord _ _ _, fieldA_commandWord _ _ _, fieldB_commandWord _ _ _⟩

theorem EncodeFields.crcbyte (v : Byte) : EncodeFields.Statement (.crcbyte v) :=
  ⟨fieldOp_commandWord _ _ _, fieldA_commandWord _ _ _, fieldB_commandWord _ _ _⟩

theorem EncodeFields.crcbuf (a : BitVec 24) (n : Word) : EncodeFields.Statement (.crcbuf a n) :=
  ⟨fieldOp_commandWord _ _ _, fieldA_commandWord _ _ _, fieldB_commandWord _ _ _⟩

theorem EncodeFields.crcgen (a : BitVec 24) (n : Word) : EncodeFields.Statement (.crcgen a n) :=
  ⟨fieldOp_commandWord _ _ _, fieldA_commandWord _ _ _, fieldB_commandWord _ _ _⟩

theorem EncodeFields.crcchk (a : BitVec 24) (n : Word) : EncodeFields.Statement (.crcchk a n) :=
  ⟨fieldOp_commandWord _ _ _, fieldA_commandWord _ _ _, fieldB_commandWord _ _ _⟩

theorem EncodeFields.crcput (a : BitVec 24) : EncodeFields.Statement (.crcput a) :=
  ⟨fieldOp_commandWord _ _ _, fieldA_commandWord _ _ _, fieldB_commandWord _ _ _⟩

theorem EncodeFields.quant : EncodeFields.Statement .quant :=
  ⟨fieldOp_commandWord _ _ _, fieldA_commandWord _ _ _, fieldB_commandWord _ _ _⟩

theorem EncodeFields.dinit (b : Bool) : EncodeFields.Statement (.dinit b) :=
  ⟨fieldOp_commandWord _ _ _, fieldA_commandWord _ _ _, fieldB_commandWord _ _ _⟩

theorem EncodeFields.dsym (v : Byte) : EncodeFields.Statement (.dsym v) :=
  ⟨fieldOp_commandWord _ _ _, fieldA_commandWord _ _ _, fieldB_commandWord _ _ _⟩

theorem EncodeFields.gapfind : EncodeFields.Statement .gapfind :=
  ⟨fieldOp_commandWord _ _ _, fieldA_commandWord _ _ _, fieldB_commandWord _ _ _⟩

theorem EncodeFields.decblk (t : Byte) (n : Word) : EncodeFields.Statement (.decblk t n) :=
  ⟨fieldOp_commandWord _ _ _, fieldA_commandWord _ _ _, fieldB_commandWord _ _ _⟩

theorem EncodeFields.decseq : EncodeFields.Statement .decseq :=
  ⟨fieldOp_commandWord _ _ _, fieldA_commandWord _ _ _, fieldB_commandWord _ _ _⟩

theorem EncodeFields.frblk (a : BitVec 24) (n : Word) : EncodeFields.Statement (.frblk a n) :=
  ⟨fieldOp_commandWord _ _ _, fieldA_commandWord _ _ _, fieldB_commandWord _ _ _⟩

theorem EncodeFields.frside : EncodeFields.Statement .frside :=
  ⟨fieldOp_commandWord _ _ _, fieldA_commandWord _ _ _, fieldB_commandWord _ _ _⟩

theorem EncodeFields.rp1 : EncodeFields.Statement .rp1 :=
  ⟨fieldOp_commandWord _ _ _, fieldA_commandWord _ _ _, fieldB_commandWord _ _ _⟩

theorem EncodeFields.rp2 : EncodeFields.Statement .rp2 :=
  ⟨fieldOp_commandWord _ _ _, fieldA_commandWord _ _ _, fieldB_commandWord _ _ _⟩

theorem EncodeFields.rp3 : EncodeFields.Statement .rp3 :=
  ⟨fieldOp_commandWord _ _ _, fieldA_commandWord _ _ _, fieldB_commandWord _ _ _⟩

theorem EncodeFields.rp4 : EncodeFields.Statement .rp4 :=
  ⟨fieldOp_commandWord _ _ _, fieldA_commandWord _ _ _, fieldB_commandWord _ _ _⟩

theorem EncodeFields.rp5 : EncodeFields.Statement .rp5 :=
  ⟨fieldOp_commandWord _ _ _, fieldA_commandWord _ _ _, fieldB_commandWord _ _ _⟩

theorem EncodeFields.recon : EncodeFields.Statement .recon :=
  ⟨fieldOp_commandWord _ _ _, fieldA_commandWord _ _ _, fieldB_commandWord _ _ _⟩

end Sys2Proof.Laws
end

