-- ==== Sys2Proof/Laws/Recon.lean ====
section
/-! SUPPORT. Laws/Recon.lean: what VERIFY, one step of pass 5's walk and the walk can do. -/

namespace Sys2Proof.Machine

theorem verifyType_onlyQueues (start stop typ : Nat) (k : Walk) (s : State) :
    OnlyQueues s (verifyType start stop typ k s) := by
  unfold verifyType
  dsimp only
  split
  · exact s.pushDiag_onlyQueues _ (show (codeByte .blockTypeMismatch).toNat ∈ queuedCodes by decide)
  · exact .refl s

theorem verifySpacing_onlyQueues (start : Nat) (k : Walk) (s : State) : OnlyQueues s (verifySpacing start k s) := by
  unfold verifySpacing
  split
  · dsimp only
    split
    · exact s.pushDiag_onlyQueues _ (show (codeByte .spacingMismatch).toNat ∈ queuedCodes by decide)
    · exact .refl s
  · exact .refl s

theorem verifyCrc_onlyQueues (start stop : Nat) (s : State) : OnlyQueues s (verifyCrc start stop s) := by
  unfold verifyCrc
  dsimp only
  split
  · exact s.pushDiag_onlyQueues _ (show (codeByte .badCrc).toNat ∈ queuedCodes by decide)
  · split
    · exact s.pushDiag_onlyQueues _ (show (codeByte .badCrc).toNat ∈ queuedCodes by decide)
    · exact .refl s

/-- VERIFY counts the block, may queue records and changes nothing else of the state; of the scan state it changes what
it keeps for the next block. -/
theorem verifyBlock_onlyQueues (start stop : Nat) (s : State) (k : Walk) :
    OnlyQueues { s with nblocks := word32 (s.nblocks.toNat + 1) } (verifyBlock start stop s k).1 :=
  ((verifyType_onlyQueues _ _ _ _ _).trans (verifySpacing_onlyQueues _ _ _)).trans (verifyCrc_onlyQueues _ _ _)

theorem verifyBlock_walk (start stop : Nat) (s : State) (k : Walk) :
    (verifyBlock start stop s k).2.out = k.out ∧ (verifyBlock start stop s k).2.prev = k.prev ∧
      (verifyBlock start stop s k).2.ingap = k.ingap ∧ (verifyBlock start stop s k).2.zsym = k.zsym ∧
      (verifyBlock start stop s k).2.bstart = k.bstart := ⟨rfl, rfl, rfl, rfl, rfl⟩

/-- VERIFY queues at most its three reports, in the order type, spacing, CRC, as far as there is room
(spec/44_recon_decode.md rule R276). -/
theorem verifyBlock_queue (start stop : Nat) (s : State) (k : Walk) (q : List DiagRecord)
    (hq : s.diagQ = q.take s.cfg.diagCap) :
    ∃ typeReport spacingReport crcReport : List DiagRecord,
      typeReport.length ≤ 1 ∧ spacingReport.length ≤ 1 ∧ crcReport.length ≤ 1 ∧
      (∀ r ∈ typeReport, r.code = 4) ∧ (∀ r ∈ spacingReport, r.code = 9) ∧ (∀ r ∈ crcReport, r.code = 5) ∧
      (verifyBlock start stop s k).1.diagQ = (q ++ typeReport ++ spacingReport ++ crcReport).take s.cfg.diagCap := by
  have htype : ∀ (typ : Nat) (t : State) (x : List DiagRecord), t.diagQ = x.take t.cfg.diagCap →
      ∃ l, l.length ≤ 1 ∧ (∀ r ∈ l, r.code = 4) ∧
        (verifyType start stop typ k t).diagQ = (x ++ l).take t.cfg.diagCap := fun typ t x h => by
    unfold verifyType
    dsimp only
    split
    · exact ⟨[_], le_refl _, by simp [diagRecord, codeByte, codeNumber], t.pushDiag_take _ x h⟩
    · exact ⟨[], by simp, by simp, by simpa using h⟩
  have hspacing : ∀ (t : State) (x : List DiagRecord), t.diagQ = x.take t.cfg.diagCap →
      ∃ l, l.length ≤ 1 ∧ (∀ r ∈ l, r.code = 9) ∧
        (verifySpacing start k t).diagQ = (x ++ l).take t.cfg.diagCap := fun t x h => by
    unfold verifySpacing
    split
    · dsimp only
      split
      · exact ⟨[_], le_refl _, by simp [codeByte, codeNumber], t.pushDiag_take _ x h⟩
      · exact ⟨[], by simp, by simp, by simpa using h⟩
    · exact ⟨[], by simp, by simp, by simpa using h⟩
  have hcrc : ∀ (t : State) (x : List DiagRecord), t.diagQ = x.take t.cfg.diagCap →
      ∃ l, l.length ≤ 1 ∧ (∀ r ∈ l, r.code = 5) ∧
        (verifyCrc start stop t).diagQ = (x ++ l).take t.cfg.diagCap := fun t x h => by
    unfold verifyCrc
    dsimp only
    split
    · exact ⟨[_], le_refl _, by simp [diagRecord, codeByte, codeNumber], t.pushDiag_take _ x h⟩
    · split
      · exact ⟨[_], le_refl _, by simp [diagRecord, codeByte, codeNumber], t.pushDiag_take _ x h⟩
      · exact ⟨[], by simp, by simp, by simpa using h⟩
  unfold verifyBlock
  dsimp only
  generalize hs1 : { s with nblocks := word32 (s.nblocks.toNat + 1) } = s1
  have c1 : s1.cfg = s.cfg := by rw [← hs1]
  obtain ⟨a, ha, ha1, ha2⟩ := htype (blockType s start (stop - start)) s1 q (by rw [← hs1]; exact hq)
  have c2 := verifyType_onlyQueues start stop (blockType s start (stop - start)) k s1
  generalize verifyType start stop (blockType s start (stop - start)) k s1 = s2 at *
  have c3 : s2.cfg = s.cfg := by rw [c2.frame]; exact c1
  obtain ⟨b, hb, hb1, hb2⟩ := hspacing s2 (q ++ a) (by rw [ha2, c1, c3])
  have c4 := verifySpacing_onlyQueues start k s2
  generalize verifySpacing start k s2 = s3 at *
  have c5 : s3.cfg = s.cfg := by rw [c4.frame]; exact c3
  obtain ⟨c, hc, hc1, hc2⟩ := hcrc s3 (q ++ a ++ b) (by rw [hb2, c3, c5])
  exact ⟨a, b, c, ha, hb, hc, ha1, hb1, hc1, by rw [hc2, c5]⟩

theorem or_seven (x : Nat) : x ||| 7 = x / 8 * 8 + 7 := by
  have h1 := Nat.two_pow_add_eq_or_of_lt (i := 3) (b := x % 8) (by omega) (x / 8)
  have h2 := Nat.two_pow_add_eq_or_of_lt (i := 3) (b := 7) (by omega) (x / 8)
  have h3 : x % 8 ||| 7 = 7 := by
    have : x % 8 < 8 := Nat.mod_lt _ (by omega)
    interval_cases x % 8 <;> rfl
  have h4 : x = 2 ^ 3 * (x / 8) ||| x % 8 := by omega
  calc x ||| 7 = (2 ^ 3 * (x / 8) ||| x % 8) ||| 7 := by rw [← h4]
    _ = 2 ^ 3 * (x / 8) ||| 7 := by rw [Nat.or_assoc, h3]
    _ = x / 8 * 8 + 7 := by omega

/-- The part of the walk's scan state that the symbols alone decide. -/
def Walk.cursor (k : Walk) : Cursor := ⟨k.out, k.prev, k.ingap, k.zsym⟩

/-- One symbol moves the walk's cursor as `Cursor.next` says, whatever BIN holds. -/
theorem walkStep_cursor (sy : Sym) (s : State) (k : Walk) :
    (walkStep sy s k).2.cursor = k.cursor.next s.conf.shortGap.toNat sy := by
  unfold walkStep Cursor.next
  rw [show k.cursor = ⟨k.out, k.prev, k.ingap, k.zsym⟩ from rfl]
  dsimp only
  by_cases h3 : sy = .s3
  · rw [if_pos h3, if_pos h3]
    unfold walkMarker
    cases k.ingap <;> simp [Walk.cursor, align8]
  · rw [if_neg h3, if_neg h3]
    by_cases hg : k.ingap = true ∧ sy = .s1 ∧ s.conf.shortGap.toNat < k.zsym
    · rw [if_pos hg, if_pos hg]
      simp only [walkGapEnd, or_seven, Walk.cursor, Cursor.mk.injEq, and_true]
      omega
    · rw [if_neg hg, if_neg hg]
      unfold walkSymbol
      cases hi : k.ingap with
      | false => simp [Walk.cursor]
      | true =>
        by_cases h0 : sy = .s0
        · by_cases hz : k.zsym + 1 = s.conf.shortGap.toNat + 1
          · cases hp : demodPrev k.prev sy <;> simp_all [Walk.cursor]
          · simp_all [Walk.cursor]
        · simp [Walk.cursor, h0]

@[simp] theorem State.cursorAfter_zero (s : State) : s.cursorAfter 0 = Walk.start.cursor := rfl

theorem State.cursorAfter_succ (s : State) (i : Nat) :
    s.cursorAfter (i + 1) = (s.cursorAfter i).next s.conf.shortGap.toNat (s.mem.sym.symAt i) := by
  unfold State.cursorAfter
  rw [symsAt_succ, List.foldl_append, Nat.zero_add]
  rfl

/-- What a part of the walk leaves: only BIN below bit `out`, PMAP, NBLOCKS and the queue differ. -/
structure WalkKeeps (s t : State) (out : Nat) : Prop where
  frame : t = { s with
    nblocks := t.nblocks, diagQ := t.diagQ, mem := { s.mem with bin := t.mem.bin, pmap := t.mem.pmap } }
  room : s.diagQ.length ≤ s.cfg.diagCap → t.diagQ.length ≤ s.cfg.diagCap
  codes : ∀ r ∈ t.diagQ, r ∈ s.diagQ ∨ r.code.toNat ∈ queuedCodes
  head : ∀ r, s.diagQ.head? = some r → t.diagQ.head? = some r
  wf : s.mem.bin.wf → t.mem.bin.wf
  below : ∀ cap, out ≤ cap * 8 → s.mem.bin.below cap → t.mem.bin.below cap
  bits : ∀ j, out ≤ j → t.mem.bin.readBit j = s.mem.bin.readBit j

theorem OnlyQueues.walkKeeps {s t : State} (h : OnlyQueues { s with nblocks := word32 (s.nblocks.toNat + 1) } t)
    (out : Nat) : WalkKeeps s t out := by
  have hf := h.frame
  have hm : t.mem = s.mem := by rw [hf]
  refine ⟨?_, h.room, h.codes, h.head, ?_, fun cap _ => ?_, fun j _ => ?_⟩
  · rw [hf]
  · rw [hm]
    exact id
  · rw [hm]
    exact id
  · rw [hm]

theorem WalkKeeps.ofBin (s : State) (bin : Memory 8) (out : Nat) (h1 : s.mem.bin.wf → bin.wf)
    (h2 : ∀ cap, out ≤ cap * 8 → s.mem.bin.below cap → bin.below cap)
    (h3 : ∀ j, out ≤ j → bin.readBit j = s.mem.bin.readBit j) : WalkKeeps s (s.setBin bin) out :=
  ⟨rfl, id, fun _ => .inl, fun _ => id, h1, h2, h3⟩

theorem walkMarker_keeps (s : State) (k : Walk) :
    WalkKeeps s (walkMarker s k).1 (walkMarker s k).2.out ∧ (walkMarker s k).1.mem.pmap = s.mem.pmap ∧
      (walkMarker s k).2.out = align8 k.out ∧ (walkMarker s k).2.ingap = true ∧
      (k.zsym ≤ k.out → (walkMarker s k).2.zsym ≤ (walkMarker s k).2.out) := by
  have ha : k.out ≤ align8 k.out := by unfold align8; omega
  unfold walkMarker
  dsimp only
  split
  · rename_i hi
    exact ⟨⟨rfl, id, fun _ => .inl, fun _ => id, id, fun _ _ => id, fun _ _ => rfl⟩, rfl, rfl, hi,
      fun h => le_trans h ha⟩
  · have h := verifyBlock_onlyQueues k.bstart (align8 k.out / 8) s k
    exact ⟨h.walkKeeps _, by rw [h.frame], rfl, rfl, fun _ => Nat.zero_le _⟩

theorem walkGapEnd_keeps (s : State) (k : Walk) :
    WalkKeeps s (walkGapEnd s k).1 (walkGapEnd s k).2.out ∧ (walkGapEnd s k).1.mem.pmap = s.mem.pmap ∧
      (walkGapEnd s k).2.out = k.out / 8 * 8 + 8 ∧ (walkGapEnd s k).2.zsym = 0 := by
  unfold walkGapEnd
  dsimp only
  rw [or_seven]
  refine ⟨.ofBin _ _ _ (Memory.wf_write _ _ _) (fun cap hc hb => Memory.below_write _ _ _ _ hb (by omega))
    (fun j hj => ?_), rfl, rfl, rfl⟩
  unfold Memory.readBit
  rw [Memory.read_write_other _ _ _ _ (by omega)]

theorem walkSymbol_keeps (shortGap : Nat) (sy : Sym) (s : State) (k : Walk) (hz : k.zsym ≤ k.out) :
    WalkKeeps s (walkSymbol shortGap sy s k).1 (walkSymbol shortGap sy s k).2.out ∧
      (walkSymbol shortGap sy s k).1.mem.pmap = s.mem.pmap ∧
      (walkSymbol shortGap sy s k).2.out = k.out + (demodBits k.prev sy).length ∧
      (walkSymbol shortGap sy s k).2.zsym ≤ (walkSymbol shortGap sy s k).2.out := by
  have hp := demodBits_length_pos k.prev sy
  have one : ∀ out, k.out + (demodBits k.prev sy).length = out →
      WalkKeeps s (s.setBin (s.mem.bin.writeBits k.out (demodBits k.prev sy))) out := by
    rintro out rfl
    refine .ofBin _ _ _ (Memory.wf_writeBits _ _ _) (fun cap hc hb => Memory.below_writeBits _ _ _ _ hb (by omega))
      (fun j hj => ?_)
    rw [Memory.readBit_writeBits, if_neg (by omega)]
  unfold walkSymbol
  dsimp only
  split
  · split
    · split
      · refine ⟨.ofBin _ _ _ (fun h => Memory.wf_writeBits _ _ _ (Memory.wf_writeBits _ _ _ h))
          (fun cap hc hb => Memory.below_writeBits _ _ _ _ (Memory.below_writeBits _ _ _ _ hb hc) ?_)
          (fun j hj => ?_), rfl, rfl, by dsimp only; omega⟩
        · dsimp only at hc
          rw [List.length_replicate]
          omega
        · dsimp only at hj
          rw [Memory.readBit_writeBits, List.length_replicate, if_neg (by omega), Memory.readBit_writeBits,
            if_neg (by omega)]
      · exact ⟨one _ rfl, rfl, rfl, by dsimp only; omega⟩
    · exact ⟨one _ rfl, rfl, rfl, by dsimp only; omega⟩
  · exact ⟨one _ rfl, rfl, rfl, by dsimp only; omega⟩

/-- What one symbol of the walk can do. -/
theorem walkStep_keeps (sy : Sym) (s : State) (k : Walk) (hz : k.zsym ≤ k.out) :
    WalkKeeps s (walkStep sy s k).1 (walkStep sy s k).2.out ∧ (walkStep sy s k).1.mem.pmap = s.mem.pmap ∧
      k.out ≤ (walkStep sy s k).2.out ∧ (walkStep sy s k).2.out ≤ k.out + 8 ∧
      (walkStep sy s k).2.zsym ≤ (walkStep sy s k).2.out := by
  unfold walkStep
  split
  · obtain ⟨h1, h2, h3, -, h5⟩ := walkMarker_keeps s k
    exact ⟨h1, h2, by rw [h3]; unfold align8; omega, by rw [h3]; unfold align8; omega, h5 hz⟩
  · split
    · obtain ⟨h1, h2, h3, h4⟩ := walkGapEnd_keeps s k
      exact ⟨h1, h2, by omega, by omega, by omega⟩
    · obtain ⟨h1, h2, h3, h4⟩ := walkSymbol_keeps s.conf.shortGap.toNat sy s k hz
      have := demodBits_length_le k.prev sy
      exact ⟨h1, h2, by omega, by omega, h4⟩

/-- What the walk leaves: BIN from bit `out` on, PMAP behind byte out / 8 and everything else as before, but TRUNC,
NBLOCKS and the queue; out within DST_CAP; the index reached is the end unless TRUNC is set. -/
structure WalkEnds (s t : State) (k k1 : Walk) (i n j : Nat) : Prop where
  frame : t = { s with
    nblocks := t.nblocks, diagQ := t.diagQ, status := t.status
    mem := { s.mem with bin := t.mem.bin, pmap := t.mem.pmap } }
  status : (t.status = s.status ∧ j = n) ∨ (t.status = putBit s.status 4 true ∧ i ≤ j ∧ j < n)
  room : s.diagQ.length ≤ s.cfg.diagCap → t.diagQ.length ≤ s.cfg.diagCap
  codes : ∀ r ∈ t.diagQ, r ∈ s.diagQ ∨ r.code.toNat ∈ queuedCodes
  head : ∀ r, s.diagQ.head? = some r → t.diagQ.head? = some r
  out : k.out ≤ k1.out ∧ (k.out ≤ s.dstCap.toNat * 8 → k1.out ≤ s.dstCap.toNat * 8)
  zsym : k1.zsym ≤ k1.out
  binWf : s.mem.bin.wf → t.mem.bin.wf
  binBelow : ∀ cap, k1.out ≤ cap * 8 → s.mem.bin.below cap → t.mem.bin.below cap
  bits : ∀ b, k1.out ≤ b → t.mem.bin.readBit b = s.mem.bin.readBit b
  pmapWf : s.mem.pmap.wf → t.mem.pmap.wf
  pmapBelow : ∀ cap, k1.out / 8 < cap → s.mem.pmap.below cap → t.mem.pmap.below cap
  pmap : ∀ b, k1.out / 8 < b → t.mem.pmap.read b = s.mem.pmap.read b

theorem walkLoop_ends (fuel i : Nat) (s : State) (k : Walk) (hz : k.zsym ≤ k.out) :
    WalkEnds s (walkLoop fuel i s k).1 k (walkLoop fuel i s k).2.1 i (i + fuel) (walkLoop fuel i s k).2.2 := by
  induction fuel generalizing i s k with
  | zero =>
    exact ⟨rfl, .inl ⟨rfl, rfl⟩, id, fun _ => .inl, fun _ => id, ⟨le_refl _, id⟩, hz, id, fun _ _ => id,
      fun _ _ => rfl, id, fun _ _ => id, fun _ _ => rfl⟩
  | succ fuel ih =>
    rw [walkLoop]
    split
    · have q := (s.setFlag .trunc true).pushDiag_onlyQueues (diagRecord .capacityExceeded (k.out / 8) i 0 0)
        (show (codeByte .capacityExceeded).toNat ∈ queuedCodes by decide)
      exact ⟨rfl, .inr ⟨rfl, le_refl _, by dsimp only; omega⟩, q.room, q.codes, q.head, ⟨le_refl _, id⟩, hz, id, fun _ _ => id,
        fun _ _ => rfl, id, fun _ _ => id, fun _ _ => rfl⟩
    · rename_i hcap
      dsimp only
      obtain ⟨hk, hp, h1, h2, h3⟩ := walkStep_keeps (s.mem.sym.symAt i) s k hz
      generalize hr : walkStep (s.mem.sym.symAt i) s k = r at hk hp h1 h2 h3
      obtain ⟨s1, k1⟩ := r
      dsimp only at hk hp h1 h2 h3 ⊢
      have h := ih (i + 1) (recordPosition i s1 k1) k1 h3
      rw [show i + 1 + fuel = i + (fuel + 1) by omega] at h
      generalize walkLoop fuel (i + 1) (recordPosition i s1 k1) k1 = w at h
      obtain ⟨t, k2, j⟩ := w
      dsimp only at h ⊢
      have hcfg : s1.cfg = s.cfg := by rw [hk.frame]
      have hdst : s1.dstCap = s.dstCap := by rw [hk.frame]
      have hst : s1.status = s.status := by rw [hk.frame]
      have h4 := h.out.1
      refine ⟨?_, ?_, fun hq => ?_, fun r hr => ?_, fun r hr => h.head r (hk.head r hr), ⟨by omega, fun ho => ?_⟩, h.zsym,
        fun hw => h.binWf (hk.wf hw), fun cap hc hb => h.binBelow cap hc (hk.below cap (by omega) hb), fun b hb => ?_,
        fun hw => h.pmapWf (Memory.wf_write _ _ _ (hp ▸ hw)), fun cap hc hb => h.pmapBelow cap hc ?_, fun b hb => ?_⟩
      · have e := h.frame
        rw [hk.frame] at e
        exact e
      · rcases h.status with ⟨e1, e2⟩ | ⟨e1, e2, e3⟩
        · exact .inl ⟨e1.trans hst, e2⟩
        · exact .inr ⟨e1.trans (by rw [← hst]; rfl), by omega, e3⟩
      · have := h.room
        rw [show (recordPosition i s1 k1).cfg = s.cfg from hcfg] at this
        exact this (hk.room hq)
      · rcases h.codes r hr with hr | hr
        · exact hk.codes r hr
        · exact .inr hr
      · have := h.out.2
        rw [show (recordPosition i s1 k1).dstCap = s.dstCap from hdst] at this
        exact this (by omega)
      · rw [h.bits b hb]
        exact hk.bits b (by omega)
      · exact Memory.below_write _ _ _ _ (hp ▸ hb) (by omega)
      · rw [h.pmap b hb]
        show (s1.mem.pmap.write (k1.out / 8) (word32 i)).read b = s.mem.pmap.read b
        rw [Memory.read_write_other _ _ _ _ (by omega), hp]

end Sys2Proof.Machine
end

