-- ==== Sys2Proof/Tests/Slice0.lean ====
section
/-! SUPPORT. Tests/Slice0.lean: the WellFormed smoke test, one word of each operation, one or two steps of each
operation with values from spec/95_test_vectors.md, and for each statement with hypotheses a state that meets them. -/

namespace Sys2Proof.Tests

open Sys2Proof Sys2Proof.Machine

set_option Elab.async false -- one test at a time: kernel evaluations that wait for one another hold a thread each

/-! ## Helpers -/

/-- The block after reset with small buffers, DST_CAP = 64. -/
def small : State := { State.afterReset ⟨64, 64, 100, 2⟩ ⟨[], [], [], []⟩ 0 [] with dstCap := 64 }

def bytes (vs : List Nat) : Memory 8 := Memory.listed 0 (vs.map (BitVec.ofNat 8))

/-- `small` with SYM loaded and SYM_LEN its length, and short gaps: MIN_GAP = 3, SHORT_GAP = 2, LONG_GAP = 2. -/
def capture (vs : List Nat) : State :=
  { small with
    symLen := BitVec.ofNat 32 vs.length, mem := { small.mem with sym := bytes vs }
    conf := { ConfRegs.reset with minGap := 3, shortGap := 2, longGap := 2 } }

/-- `small` with BIN loaded. -/
def withBin (vs : List Nat) : State := small.setBin (bytes vs)

/-- `small` with SRC loaded and SRC_LEN its length. -/
def withSrc (vs : List Nat) : State := { small.setSrc (bytes vs) with srcLen := BitVec.ofNat 32 vs.length }

/-- The state an operation ends in. -/
def after (i : Instr) (s : State) : State :=
  match exec i s with
  | .next t => t
  | _ => s

/-- The symbols at the indices of SYM below SYM_LEN. -/
def syms (s : State) : List Nat := (s.mem.sym.readN 0 s.symLen.toNat).map BitVec.toNat

/-- The first n bytes of BIN. -/
def bin (s : State) (n : Nat) : List Nat := (s.mem.bin.readN 0 n).map BitVec.toNat

/-- A gap of three 0 symbols, the gap-end symbol at 3, and the block 01 with its CRC A9 91 (spec/95_test_vectors.md
table 1.2) as symbols, which end at index 22. -/
def goodBlock : List Nat := [0, 0, 0, 1, 0, 1, 0, 0, 0, 0, 0, 1, 1, 1, 2, 2, 0, 1, 0, 1, 1, 1]

/-- The same with CRC bytes A9 51: its last symbol gives one bit too many. -/
def badBlock : List Nat := [0, 0, 0, 1, 0, 1, 0, 0, 0, 0, 0, 1, 1, 1, 2, 2, 0, 1, 0, 1, 2, 1]

/-! ## WellFormed: each check refuses -/

theorem test_wellFormed_rdreg_reserved : (Instr.rdreg 0x0E).wellFormed = false := by decide

theorem test_wellFormed_wrreg_reserved : (Instr.wrreg 0x2F 0).wellFormed = false := by decide

theorem test_wellFormed_wrreg_readOnly : (Instr.wrreg 0x21 0x11021).wellFormed = false := by decide

theorem test_wellFormed_wrreg_wide : (Instr.wrreg 0x22 2).wellFormed = false := by decide

theorem test_wellFormed_decblk_zero : (Instr.decblk 1 0).wellFormed = false := by decide

theorem test_wellFormed_decblk_long : (Instr.decblk 1 65537).wellFormed = false := by decide

theorem test_wellFormed_frblk_zero : (Instr.frblk 0 0).wellFormed = false := by decide

theorem test_wellFormed_frblk_long : (Instr.frblk 0 65537).wellFormed = false := by decide

theorem test_wellFormed_accepts : (Instr.rdreg 0x2E).wellFormed = true ∧ (Instr.wrreg 0x22 1).wellFormed = true ∧
    (Instr.decblk 1 65536).wellFormed = true ∧ (Instr.frblk 0 1).wellFormed = true := by decide

/-! ## Decode: the words of spec/95_test_vectors.md section 8.1 -/

theorem test_decode_system : decode 0x0000000000000000 = .ok .nop ∧ decode 0x0000000000000801 = .ok (.rdreg 0x08) ∧
    decode 0x0000013200000A02 = .ok (.wrreg 0x0A 306) ∧ decode 0x0000000000000003 = .ok .diagrd ∧
    decode 0x0000000000000004 = .ok .diagclr := by decide +kernel

theorem test_decode_crc : decode 0x0000000000000010 = .ok .crcinit ∧ decode 0x0000000000000011 = .ok .crcstart ∧
    decode 0x0000000000000112 = .ok (.crcbit true) ∧ decode 0x0000000000008013 = .ok (.crcbyte 0x80) ∧
    decode 0x0000003800000114 = .ok (.crcbuf 1 56) ∧ decode 0x000000020000B515 = .ok (.crcgen 181 2) ∧
    decode 0x0000003A00000116 = .ok (.crcchk 1 58) ∧ decode 0x000000000000B717 = .ok (.crcput 183) := by decide +kernel

theorem test_decode_demod : decode 0x0000000000000020 = .ok .quant ∧ decode 0x0000000000000121 = .ok (.dinit true) ∧
    decode 0x0000000000000222 = .ok (.dsym 2) ∧ decode 0x0000000000000023 = .ok .gapfind ∧
    decode 0x0000003800000124 = .ok (.decblk 1 56) ∧ decode 0x0000000000000025 = .ok .decseq := by decide +kernel

theorem test_decode_framer : decode 0x0000000200003830 = .ok (.frblk 56 2) ∧
    decode 0x0000000000000031 = .ok .frside := by decide +kernel

theorem test_decode_recon : decode 0x0000000000000040 = .ok .rp1 ∧ decode 0x0000000000000041 = .ok .rp2 ∧
    decode 0x0000000000000042 = .ok .rp3 ∧ decode 0x0000000000000043 = .ok .rp4 ∧ decode 0x0000000000000044 = .ok .rp5 ∧
    decode 0x000000000000004F = .ok .recon := by decide +kernel

/-- Section 8.2: reserved opcodes, unused fields that are not 0, operand A too wide. -/
theorem test_decode_rejects : decode 0x05 = .error (.reservedOpcode 0x05) ∧ decode 0x4E = .error (.reservedOpcode 0x4E) ∧
    decode 0xFF = .error (.reservedOpcode 0xFF) ∧ decode 0x0000000000000100 = .error .operandANotZero ∧
    decode 0x0000000100000010 = .error .operandBNotZero ∧ decode 0x0000000100000113 = .error .operandBNotZero ∧
    decode 0x0000000000000212 = .error .operandATooWide ∧ decode 0x0000000000010013 = .error .operandATooWide := by
  decide +kernel

theorem test_assembly : assembly (.wrreg 0x0A 306) = "WRREG 10, 306" ∧ assembly .quant = "QUANT" := by decide +kernel

/-- The host's two questions on one word: the decoder and the next step. -/
theorem test_withFetchWord : decodeTableWord 64 0x0000000000000121 = some (.dinit true) ∧
    step (State.reset.withFetchWord 64 0x0000000000000121) = exec (.dinit true) State.reset := by
  exact ⟨by decide +kernel, rfl⟩

/-! ## The operations -/

theorem test_nop : (after .nop { small with result := 3, info := 7 }).result = 0 ∧
    (after .nop { small with result := 3, info := 7 }).info = 0 := by decide +kernel

/-- Section 8.3. -/
theorem test_rdreg_constant : (after (.rdreg 0x21) small).response = some ⟨0, 0x10810⟩ := by decide +kernel

theorem test_rdreg_keeps_result : (after (.rdreg 0x03) { small with result := 2, info := 1 }).response = some ⟨0, 1⟩ ∧
    (after (.rdreg 0x03) { small with result := 2, info := 1 }).result = 2 := by decide +kernel

theorem test_wrreg_crc_sets_z : (after (.wrreg 0x00 0) small).crc = 0 ∧ (after (.wrreg 0x00 0) small).status = 1 := by
  decide +kernel

theorem test_wrreg_refused : (after (.wrreg 0x00 0x10000) small).result = 8 ∧
    (after (.wrreg 0x00 0x10000) small).crc = 0x8000 := by decide +kernel

theorem test_diagrd_pops : (after .diagrd { small with diagQ := [⟨4, 0, 0x201, 28307, 28732⟩] }).diagRec =
    ⟨4, 0, 0x201, 28307, 28732⟩ ∧ (after .diagrd { small with diagQ := [⟨4, 0, 0x201, 28307, 28732⟩] }).info = 1 := by
  decide +kernel

theorem test_diagrd_empty : (after .diagrd { small with diagRec := ⟨4, 1, 2, 3, 4⟩ }).diagRec = ⟨0, 0, 0, 0, 0⟩ := by
  decide +kernel

theorem test_diagclr : (after .diagclr { small with diagRec := ⟨5, 1, 2, 3, 4⟩, diagQ := [⟨4, 0, 0, 0, 0⟩] }).diagRec.w3 =
    4 := by decide +kernel

theorem test_crcinit : (after .crcinit { small with crc := 5 }).crc = 0x8000 := by decide +kernel

/-- Rule R133. -/
theorem test_crcstart : (after .crcstart small).crc = 0x8080 := by decide +kernel

/-- Table 1.1. -/
theorem test_crcbit_one : (after (.crcbit true) { small with crc := 1 }).crc = 0x0408 := by decide +kernel

theorem test_crcbit_zero : (after (.crcbit false) { small with crc := 0xFFFF }).crc = 0xFBF7 := by decide +kernel

theorem test_crcbyte : (after (.crcbyte 0x80) small).crc = 0x8080 := by decide +kernel

theorem test_crcbyte_zero : (after (.crcbyte 0x12) { small with crc := 0x9132 }).status = 1 := by decide +kernel

/-- Table 1.1: bytes 02, 00, 00, 00 from 0x8080. -/
theorem test_crcbuf : (after (.crcbuf 1 4) { withBin [9, 2, 0, 0, 0] with crc := 0x8080 }).crc = 0x1232 := by
  decide +kernel

/-- Table 1.2. -/
theorem test_crcgen : (after (.crcgen 0 2) (withBin [2, 5])).crc = 0x459F := by decide +kernel

theorem test_crcgen_uncovered :
    (after (.crcgen 0 2) { withBin [2, 5] with conf := { ConfRegs.reset with crcCoversMarker := 0 } }).crc = 0x68F1 := by
  decide +kernel

theorem test_crcchk_good : (after (.crcchk 0 4) (withBin [2, 0, 0x32, 0x12])).result = 0 ∧
    (after (.crcchk 0 4) (withBin [2, 0, 0x32, 0x12])).status = 1 := by decide +kernel

/-- Section 1.4. -/
theorem test_crcchk_bad : (after (.crcchk 0 4) (withBin [2, 1, 0x32, 0x12])).result = 5 ∧
    (after (.crcchk 0 4) (withBin [2, 1, 0x32, 0x12])).info = 0x1189 := by decide +kernel

theorem test_crcput_low_byte_first :
    bin (after (.crcput 2) { withBin [2, 0, 0xEE, 0xEE, 7] with crc := 0x1232 }) 5 = [2, 0, 0x32, 0x12, 7] := by
  decide +kernel

theorem test_crcput_end : (after (.crcput 63) small).result = 8 := by decide +kernel

/-- Section 3.1. -/
theorem test_quant : syms (after .quant (capture [0x2F, 0x30, 0x4F, 0x50, 0x6F, 0x70, 0x9F, 0xA0, 0xFF])) =
    [3, 0, 0, 1, 1, 2, 2, 3, 3] := by decide +kernel

theorem test_quant_clears_sigf : (after .quant { capture [0x50] with status := 0x1F }).status = 0x1B := by decide +kernel

theorem test_dinit : (after (.dinit true) { small with status := 0x1D }).status = 0x1F ∧
    (after (.dinit false) { small with status := 0x1F }).status = 0x1D := by decide +kernel

/-- Section 3.5 (b): BIN[0] = FF, PREV = 1, DSYM 2 gives FE. -/
theorem test_dsym : bin (after (.dsym 2) { withBin [0xFF] with status := 2 }) 1 = [0xFE] ∧
    (after (.dsym 2) { withBin [0xFF] with status := 2 }).outBit = 2 := by decide +kernel

theorem test_dsym_full : (after (.dsym 1) { withBin [0x72] with status := 2, outBit := 7, dstCap := 1 }).result = 2 ∧
    bin (after (.dsym 1) { withBin [0x72] with status := 2, outBit := 7, dstCap := 1 }) 1 = [0x72] := by decide +kernel

/-- Section 3.6 with MIN_GAP = 3: a 2 restarts the count. -/
theorem test_gapfind : (after .gapfind (capture [0, 0, 0, 2, 0, 0, 1, 0, 0, 0, 1])).info = 10 := by decide +kernel

theorem test_gapfind_cursor : (after .gapfind { capture [0, 0, 0, 0, 1] with inCur := 2 }).result = 3 := by decide +kernel

theorem test_decblk_ok : (after (.decblk 1 1) (capture goodBlock)).result = 0 ∧
    bin (after (.decblk 1 1) (capture goodBlock)) 3 = [1, 0, 0] ∧
    (after (.decblk 1 1) (capture goodBlock)).inCur = 22 := by decide +kernel

theorem test_decblk_mismatch : (after (.decblk 2 1) (capture goodBlock)).diagQ = [⟨4, 0, 0x0201, 3, 22⟩] ∧
    (after (.decblk 2 1) (capture goodBlock)).info = 1 := by decide +kernel

/-- Section 8.5, with a block that is not type 1 length 56. -/
theorem test_decseq_empty : (after .decseq small).result = 0 ∧ (after .decseq small).info = 3 := by decide +kernel

theorem test_decseq_ends : (after .decseq (capture goodBlock)).info = 7 ∧
    (after .decseq (capture goodBlock)).nblocks = 0 := by decide +kernel

/-- Section 5.1: the framed block 02 00 with GAP_LEN = 1. -/
theorem test_frblk : bin (after (.frblk 0 2) { withSrc [2, 0] with conf := { ConfRegs.reset with gapLen := 1 } }) 7 =
    [0x80, 2, 0, 0x32, 0x12, 0, 0] := by decide +kernel

theorem test_frblk_beyond : (after (.frblk 1 2) (withSrc [2, 0])).result = 8 := by decide +kernel

/-- Section 5.3. -/
theorem test_frside_short : (after .frside { withSrc [] with srcLen := 57 }).result = 1 := by decide +kernel

/-- Rule R202: the side of 58 bytes needs 64 bytes with GAP_LEN = 0, one more than DST_CAP here. -/
theorem test_frside_room :
    (after .frside { withSrc [] with srcLen := 58, dstCap := 63, conf := { ConfRegs.reset with gapLen := 0 } }).info = 1 := by
  decide +kernel

/-- Section 6.1 with SHORT_GAP = 2. -/
theorem test_rp1 : syms (after .rp1 (capture [1, 3, 1, 2, 0, 0, 0, 1])) = [1, 3, 1, 2, 3, 0, 0, 1] ∧
    syms (after .rp1 (capture [1, 3, 1, 2, 0, 0, 1, 1])) = [1, 3, 1, 2, 0, 0, 1, 1] := by decide +kernel

theorem test_rp1_once : syms (after .rp1 (capture [3, 3, 0, 0, 0, 0, 0, 0, 0])) = [3, 3, 3, 0, 0, 0, 0, 0, 0] := by
  decide +kernel

theorem test_rp2 : (after .rp2 (capture ([0, 0] ++ (signature.map (fun y => (symByte y).toNat))))).sigPos = 2 ∧
    (after .rp2 (capture ([0, 0] ++ (signature.map (fun y => (symByte y).toNat))))).status = 4 ∧
    ((after .rp2 (capture ([0, 0] ++ (signature.map (fun y => (symByte y).toNat))))).mem.sym.read 1) = 3 := by
  decide +kernel

theorem test_rp2_absent : (after .rp2 { capture [0, 0, 1] with status := 4, sigPos := 9 }).status = 0 := by decide +kernel

/-- The block ends with a bit 1 at index 21; the gap behind it begins with a symbol 1 at 22. -/
theorem test_rp3 : syms (after .rp3 { capture (goodBlock ++ [1, 0, 0, 0]) with status := 4, sigPos := 3 }) =
    goodBlock ++ [3, 0, 0, 0] := by decide +kernel

theorem test_rp3_no_signature : syms (after .rp3 { capture (goodBlock ++ [1, 0, 0, 0]) with sigPos := 3 }) =
    goodBlock ++ [1, 0, 0, 0] := by decide +kernel

/-- Section 6.2 with LONG_GAP = 2. -/
theorem test_rp4 : syms (after .rp4 (capture [1, 0, 0, 3, 0, 0, 0, 3])) = [1, 0, 0, 3, 3, 0, 0, 3] := by decide +kernel

theorem test_rp4_start : (after .rp4 (capture [0, 0, 0, 3])).info = 1 := by decide +kernel

/-- Rules R270, R272, R273: the gap end sets bit 7 of the first byte, the block 01 stands behind it. -/
theorem test_rp5 : bin (after .rp5 (capture [0, 0, 0, 1, 0, 1, 0, 0, 0, 0, 0, 3])) 3 = [0x80, 1, 0] ∧
    (after .rp5 (capture [0, 0, 0, 1, 0, 1, 0, 0, 0, 0, 0, 3])).nblocks = 1 := by decide +kernel

/-- Section 6.6: with SIGF = 0 the first record is NoSignature. -/
theorem test_rp5_no_signature : (after .rp5 (capture [0])).diagQ = [⟨10, 0, 0, 0, 0⟩] := by decide +kernel

/-- Section 8.5. -/
theorem test_recon_empty : (after .recon small).status = 0x08 ∧ (after .recon small).outLen = 0 := by decide +kernel

/-! ## Witnesses: for each statement with hypotheses, states and operands that meet them, at the ends of their ranges -/

/-- `small` with one host action next in line. -/
def hosted (a : HostAction) : State := { small with host := [a] }

/-- The two ways a word can be no legal command: it does not decode, or its operand is outside the limits. -/
theorem witness_IllegalCommandRefused_undecoded :
    (hosted (.command 0x05)).host = .command 0x05 :: [] ∧ ∀ i, decode 0x05 = .ok i → i.wellFormed = false := by
  refine ⟨rfl, fun i h => ?_⟩
  rw [show decode 0x05 = .error (.reservedOpcode 0x05) by decide +kernel] at h
  cases h

theorem witness_IllegalCommandRefused_limits : ∀ p ∈ [((0x0000000000000024 : CommandWord), Instr.decblk 0 0),
      (0x0001000100000024, .decblk 0 65537), (0x0000000000000030, .frblk 0 0), (0x0001000100000030, .frblk 0 65537),
      (0x0000000000000E01, .rdreg 0x0E), (0x0000000000000102, .wrreg 0x01 0), (0x0001000000000002, .wrreg 0x00 0x10000)],
    (hosted (.command p.1)).host = .command p.1 :: [] ∧ decode p.1 = .ok p.2 ∧ p.2.wellFormed = false := by
  decide +kernel

theorem witness_StepRunsDecoded : (hosted (.command 0x40)).host = .command 0x40 :: [] ∧ decode 0x40 = .ok .rp1 :=
  ⟨rfl, by decide +kernel⟩

theorem witness_DecodeThenEncode : decode 0x0000003800000124 = .ok (.decblk 1 56) := by decide +kernel

theorem witness_IdleBlockUnchanged : small.host = [] := rfl

theorem witness_EveryOperationAnswers : ∀ r v, Instr.rp1 ≠ .wrreg r v := by simp

theorem witness_StepKeepsInvariant : (hosted (.command 0)).Inv ∧
    step (hosted (.command 0)) = .next (small.finish .ok 0) := by
  refine ⟨⟨by decide, by decide, by decide, by decide, by decide, by decide, by decide, by decide, by decide, by decide,
    ?_, by decide, by decide, by decide⟩, rfl⟩
  simp [hosted, small, State.afterReset]

theorem witness_HostResetRestores : (hosted (.reset ⟨[(70, 1)], [(63, 2)], [(99, 3)], [(64, 4)]⟩)).host =
      .reset ⟨[(70, 1)], [(63, 2)], [(99, 3)], [(64, 4)]⟩ :: [] ∧ Memory.wf [(70, (1 : Byte))] ∧
    Memory.wf [(63, (2 : Byte))] ∧ Memory.wf [(99, (3 : Byte))] ∧ Memory.wf [(64, (4 : Word))] :=
  ⟨rfl, by decide, by decide, by decide, by decide⟩

/-- The last entry of each buffer. -/
theorem witness_HostAccessesBuffers :
    (hosted (.read .sym 63)).host = [.read .sym 63] ∧ (hosted (.read .bin 63)).host = [.read .bin 63] ∧
    (hosted (.read .src 99)).host = [.read .src 99] ∧ (hosted (.read .pmap 64)).host = [.read .pmap 64] ∧
    (hosted (.write .sym 63 1)).host = [.write .sym 63 1] ∧ (hosted (.write .bin 63 1)).host = [.write .bin 63 1] ∧
    (hosted (.write .src 99 1)).host = [.write .src 99 1] ∧
    63 < small.cfg.symCap ∧ 63 < small.cfg.binCap ∧ 99 < small.cfg.srcCap ∧ 64 < small.cfg.binCap + 1 := by
  decide +kernel

/-- NOP answers, and is none of the operations that OnlyNamedOperationsWriteBuffers, OnlyNamedOperationsChangeFlags and
OnlyNamedOperationsWriteRegisters name. -/
theorem witness_OnlyNamedOperations : exec .nop small = .next (small.finish .ok 0) ∧
    ∀ i ∈ [Instr.quant, .rp1, .rp2, .rp3, .rp4, .rp5, .recon, .decseq, .frside, .gapfind, .diagrd, .crcinit, .crcstart],
      Instr.nop ≠ i := by
  exact ⟨rfl, by decide⟩

theorem witness_OnlyNamedOperations_operands : (∀ r v, Instr.nop ≠ .wrreg r v) ∧ (∀ a, Instr.nop ≠ .crcput a) ∧
    (∀ v, Instr.nop ≠ .dsym v) ∧ (∀ y n, Instr.nop ≠ .decblk y n) ∧ (∀ a n, Instr.nop ≠ .frblk a n) ∧
    (∀ b, Instr.nop ≠ .dinit b) ∧ (∀ b, Instr.nop ≠ .crcbit b) ∧ (∀ v, Instr.nop ≠ .crcbyte v) ∧
    (∀ a n, Instr.nop ≠ .crcbuf a n) ∧ (∀ a n, Instr.nop ≠ .crcgen a n) ∧ (∀ a n, Instr.nop ≠ .crcchk a n) := by
  simp

theorem witness_OnlyNamedOperationsWriteRegisters_rdreg : regOfNumber 0x03 = some .info ∧
    exec (.rdreg 0x03) small = .next { small with response := some ⟨0, 0⟩ } := ⟨rfl, rfl⟩

/-- The ends of the ranges of reserved register numbers. -/
theorem witness_RdregReadsRegister : ∀ r ∈ [(0x0E : BitVec 8), 0x0F, 0x16, 0x1F, 0x2F, 0x30, 0xFF],
    r = 0x0E ∨ r = 0x0F ∨ (0x16 ≤ r.toNat ∧ r.toNat ≤ 0x1F) ∨ r = 0x2F ∨ 0x30 ≤ r.toNat := by decide

theorem witness_WrregWritesRegister_values : (0xFFFF : Word).toNat < 2 ^ 16 ∧ 2 ^ 16 ≤ (0x10000 : Word).toNat ∧
    (1 : Word).toNat < 2 ∧ 2 ≤ (2 : Word).toNat ∧ (0xFF : Word).toNat < 2 ^ 8 ∧ 2 ^ 8 ≤ (0x100 : Word).toNat := by decide

theorem witness_WrregWritesRegister_numbers : ∀ r ∈ [(0x01 : BitVec 8), 0x21, 0x0E, 0x0F, 0x10, 0x1F, 0x2F, 0x30, 0xFF],
    r.toNat ∈ [0x01, 0x02, 0x03, 0x08, 0x0B, 0x0C, 0x0D, 0x21] ∨ r = 0x0E ∨ r = 0x0F ∨
      (0x10 ≤ r.toNat ∧ r.toNat ≤ 0x1F) ∨ r = 0x2F ∨ 0x30 ≤ r.toNat := by decide

theorem witness_DiagrdPopsOldest : small.diagQ = [] ∧
    { small with diagQ := [⟨4, 0, 1, 2, 3⟩] }.diagQ = ⟨4, 0, 1, 2, 3⟩ :: [] := ⟨rfl, rfl⟩

theorem witness_CrcstartLoadsStart : small.conf.crcCoversMarker = 1 ∧
    { small.conf with crcCoversMarker := 0 }.crcCoversMarker = 0 := ⟨rfl, rfl⟩

theorem witness_CrcbitShiftsBit : fieldOp 0x0000000000000212 = 0x12 ∧ 1 < (fieldA 0x0000000000000212).toNat := by
  decide +kernel

/-- The two sides of a + n = BIN_CAP, for CrcbufShiftsBytes, CrcgenGenerates and CrcchkChecks. -/
theorem witness_CrcBufferOperations : (1 : BitVec 24).toNat + (63 : Word).toNat ≤ small.cfg.binCap ∧
    small.cfg.binCap < (1 : BitVec 24).toNat + (64 : Word).toNat := by decide

theorem witness_CrcputStoresCrc : (62 : BitVec 24).toNat + 2 ≤ small.cfg.binCap ∧
    small.cfg.binCap < (63 : BitVec 24).toNat + 2 := by decide

theorem witness_CrcblkStoresGoodCrc : (2 : BitVec 24).toNat + (60 : Word).toNat < 2 ^ 24 ∧
    (2 : BitVec 24).toNat + (60 : Word).toNat + 2 ≤ small.cfg.binCap ∧ (60 : Word).toNat + 2 < 2 ^ 32 := by decide

theorem witness_DemodulatorTable : 3 ≤ (3 : Byte).toNat ∧ 3 ≤ (255 : Byte).toNat := by decide

/-- The two sides of SYM_LEN = SYM_CAP, for QuantQuantises, GapfindFindsFirstGapEnd and the statements of RP1 to RP4. -/
theorem witness_SymbolOperations : { small with symLen := 64 }.symLen.toNat ≤ small.cfg.symCap ∧
    small.cfg.symCap < { small with symLen := 65 }.symLen.toNat := by decide

/-- DST_CAP beyond BIN_CAP; two bits that fill the last byte; two bits of which one does not fit. -/
theorem witness_DsymAppendsBits :
    small.cfg.binCap < { small with dstCap := 65 }.dstCap.toNat ∧ small.dstCap.toNat ≤ small.cfg.binCap ∧
    { small with status := 2, outBit := 510 }.outBit.toNat + (demodBits true (symv 1)).length ≤ small.dstCap.toNat * 8 ∧
    small.dstCap.toNat * 8 < { small with status := 2, outBit := 511 }.outBit.toNat + (demodBits true (symv 1)).length ∧
    { small with status := 2 }.status.getLsbD 1 = true := by decide

/-- The last bit cursor: its symbol's second bit lies at bit 2^32, in byte 2^29. -/
theorem witness_DsymAppendsBits_lastBit :
    let s := { small with
      cfg := ⟨64, 2 ^ 29 + 1, 100, 2⟩, dstCap := 0x20000001, status := 2, outBit := 0xFFFFFFFF, mem := ⟨[], [(0, 0xFE)], [], []⟩ }
    s.dstCap.toNat ≤ s.cfg.binCap ∧ s.outBit.toNat + (demodBits true (symv 2)).length ≤ s.dstCap.toNat * 8 ∧
    (after (.dsym 2) s).outBit = 1 ∧ (after (.dsym 2) s).mem.bin = [(0, 0xFE), (2 ^ 29, 1)] := by decide +kernel

theorem witness_GapfindFindsFirstGapEnd : firstGapEnd (capture goodBlock) (capture goodBlock).inCur.toNat 3 ∧
    (capture goodBlock).symLen.toNat ≤ (capture goodBlock).cfg.symCap := by
  unfold firstGapEnd isGapEnd
  decide +kernel

/-- From IN_CUR = 1 only two 0 symbols stand before the first 1. -/
theorem witness_GapfindFindsFirstGapEnd_none : ∀ e, ¬ isGapEnd { capture [0, 0, 0, 1, 0] with inCur := 1 } 1 e := by
  intro e h
  have hlt : e < 5 := h.2.1
  have all : ∀ e, e < 5 → ¬ isGapEnd { capture [0, 0, 0, 1, 0] with inCur := 1 } 1 e := by
    unfold isGapEnd
    decide +kernel
  exact all e hlt h

/-- Lengths 0 and 65537, SYM_LEN and DST_CAP beyond their buffers; the length 1 and a block that does not fit by one. -/
theorem witness_DecblkDecodesNothing : (0 : Word).toNat = 0 ∧ 65536 < (65537 : Word).toNat ∧
    small.cfg.symCap < { small with symLen := 65 }.symLen.toNat ∧
    small.cfg.binCap < { small with dstCap := 65 }.dstCap.toNat ∧ 1 ≤ (1 : Word).toNat ∧
    { capture goodBlock with dstCap := 2 }.dstCap.toNat < (capture goodBlock).outCur.toNat + (1 : Word).toNat + 2 ∧
    firstGapEnd { capture goodBlock with dstCap := 2 } 0 3 := by
  unfold firstGapEnd isGapEnd
  decide +kernel

/-- The block 01 A9 91 decoded at OUT_CUR = 61 up to the last byte, its type expected or not, its CRC good. -/
theorem witness_DecblkDecodesBlock :
    let s := { capture goodBlock with outCur := 61 }
    s.symLen.toNat ≤ s.cfg.symCap ∧ s.dstCap.toNat ≤ s.cfg.binCap ∧ firstGapEnd s s.inCur.toNat 3 ∧
    s.outCur.toNat + (1 : Word).toNat + 2 ≤ s.dstCap.toNat ∧ [1, 0xA9, (0x91 : Byte)].length = (1 : Word).toNat + 2 ∧
    22 ≤ s.symLen.toNat ∧ demodAll true (symsAt s.mem.sym 4 18) = bitsOfBytes [1, 0xA9, 0x91] ++ [] ∧
    (demodAll true (symsAt s.mem.sym 4 17)).length < 24 ∧ crcResidual s.conf [1, 0xA9, 0x91] = 0 ∧
    [1, 0xA9, (0x91 : Byte)].getD 0 0 ≠ 2 ∧ [1, 0xA9, (0x91 : Byte)].getD 0 0 = 1 := by
  unfold firstGapEnd isGapEnd
  decide +kernel

/-- The block 01 A9 51, its CRC bad, its last symbol giving one bit that is dropped. -/
theorem witness_DecblkDecodesBlock_badCrc :
    let s := capture badBlock
    s.symLen.toNat ≤ s.cfg.symCap ∧ s.dstCap.toNat ≤ s.cfg.binCap ∧ firstGapEnd s s.inCur.toNat 3 ∧
    22 ≤ s.symLen.toNat ∧ demodAll true (symsAt s.mem.sym 4 18) = bitsOfBytes [1, 0xA9, 0x51] ++ [false] ∧
    (demodAll true (symsAt s.mem.sym 4 17)).length < 24 ∧ crcResidual s.conf [1, 0xA9, 0x51] ≠ 0 ∧
    [1, 0xA9, (0x51 : Byte)].getD 0 0 = 1 := by
  unfold firstGapEnd isGapEnd
  decide +kernel

/-- The capture ends one symbol before the end of the block. -/
theorem witness_DecblkEndOfCapture :
    let s := { capture goodBlock with symLen := 21 }
    s.symLen.toNat ≤ s.cfg.symCap ∧ s.dstCap.toNat ≤ s.cfg.binCap ∧ firstGapEnd s s.inCur.toNat 3 ∧
    s.outCur.toNat + (1 : Word).toNat + 2 ≤ s.dstCap.toNat ∧
    (demodAll true (symsAt s.mem.sym 4 17)).length < ((1 : Word).toNat + 2) * 8 := by
  unfold firstGapEnd isGapEnd
  decide +kernel

/-- The lengths at their capacities and one beyond each, for DecseqIsHostLoop, Rp5LeavesImage and ReconIsFivePasses. -/
theorem witness_WholeCaptureOperations :
    { small with symLen := 64 }.symLen.toNat ≤ small.cfg.symCap ∧ small.dstCap.toNat ≤ small.cfg.binCap ∧
    small.dstCap.toNat * 8 < 2 ^ 32 ∧ small.cfg.symCap < { small with symLen := 65 }.symLen.toNat ∧
    small.cfg.binCap < { small with dstCap := 65 }.dstCap.toNat ∧ small.status.getLsbD 2 = false ∧
    0 < small.cfg.diagCap := by decide

/-- FRBLK 0, 2 of a side of two bytes with GAP_LEN = 1: it needs six bytes; each limit on its other side. -/
theorem witness_FrblkFramesBlock :
    let s := { withSrc [2, 0] with conf := { ConfRegs.reset with gapLen := 1 } }
    1 ≤ (2 : Word).toNat ∧ (2 : Word).toNat ≤ 65536 ∧ s.srcLen.toNat ≤ s.cfg.srcCap ∧ s.dstCap.toNat ≤ s.cfg.binCap ∧
    (0 : BitVec 24).toNat + (2 : Word).toNat ≤ s.srcLen.toNat ∧
    { s with outCur := 58 }.outCur.toNat + ((2 : Word).toNat + 3 + s.conf.gapLen.toNat) ≤ s.dstCap.toNat ∧
    s.dstCap.toNat < { s with outCur := 59 }.outCur.toNat + ((2 : Word).toNat + 3 + s.conf.gapLen.toNat) ∧
    s.srcLen.toNat < (1 : BitVec 24).toNat + (2 : Word).toNat ∧ s.cfg.srcCap < { s with srcLen := 101 }.srcLen.toNat := by
  decide

theorem witness_FramedBlockChecksGood :
    let s := { withSrc [2, 0] with conf := { ConfRegs.reset with gapLen := 1 } }
    exec (.frblk 0 2) s = .next (after (.frblk 0 2) s) ∧ (after (.frblk 0 2) s).result = 0 ∧
    s.outCur.toNat + 1 < 2 ^ 24 := ⟨rfl, by decide +kernel, by decide⟩

/-- A side of one file of one data byte, 58 + 16 + 2 bytes long, and the same with an entry that is no file header
behind it. -/
def oneFile : SideFile := ⟨[3, 0, 0, 0, 0, 0, 0, 0, 0, 0, 0, 0, 0, 1, 0, 0], [4, 7]⟩

def oneFileSide : Memory 8 := bytes (List.replicate 58 0 ++ (sideBytes [oneFile]).map BitVec.toNat)

theorem witness_WalkListsFiles : (∀ f ∈ [oneFile], f.ok) ∧
    oneFileSide.readN 0x3A (sideBytes [oneFile]).length = sideBytes [oneFile] ∧
    0x3A + (sideBytes [oneFile]).length ≤ 76 ∧ 0x3A + (sideBytes [oneFile]).length = 76 ∧
    oneFileSide.read (0x3A + (sideBytes [oneFile]).length) ≠ 3 := by
  unfold SideFile.ok
  decide +kernel

/-- The same side cut by one byte inside the data, inside the header, and below 58 bytes. -/
theorem witness_WalkFailsAtCutFile : (∀ f ∈ ([] : List SideFile), f.ok) ∧
    oneFileSide.readN 0x3A (sideBytes []).length = sideBytes [] ∧ 0x3A + (sideBytes []).length < 75 ∧
    oneFileSide.read (0x3A + (sideBytes []).length) = 3 ∧
    75 < 0x3A + 16 + (1 + oneFileSide.readLe16 (0x3A + 13)) ∧ 73 < 0x3A + 16 ∧ 57 < 0x3A := by
  unfold SideFile.ok
  decide +kernel

/-- A side too short, a side that does not fit by one byte and one that just fits, with GAP_LEN = 0. -/
theorem witness_FrsideFramesSide :
    let s := { withSrc [] with srcLen := 58, conf := { ConfRegs.reset with gapLen := 0 } }
    s.srcLen.toNat ≤ s.cfg.srcCap ∧ s.dstCap.toNat ≤ s.cfg.binCap ∧ walk s.mem.src 57 = .error 0 ∧
    walk s.mem.src s.srcLen.toNat = .ok [(0, 0x38), (0x38, 2)] ∧
    ([(0, 0x38), (0x38, 2)].map (fun b : Nat × Nat => b.2 + 3 + s.conf.gapLen.toNat)).sum = 64 ∧
    s.dstCap.toNat = 64 ∧ { s with dstCap := 63 }.dstCap.toNat = 63 ∧
    s.cfg.srcCap < { s with srcLen := 101 }.srcLen.toNat ∧ s.cfg.binCap < { s with dstCap := 65 }.dstCap.toNat := by
  decide +kernel

/-- The signature at index 2 of a capture of 34 symbols; a capture too short for it. -/
theorem witness_Rp2FindsSignature :
    let s := capture ([0, 0] ++ signature.map (fun y => (symByte y).toNat))
    let stands : Nat → Prop := fun p => p + 32 ≤ s.symLen.toNat ∧ p + 32 ≤ s.conf.sigLimit.toNat ∧
      ∀ k, k < 32 → s.mem.sym.symAt (p + k) = signature.getD k .s3
    stands 2 ∧ (∀ q, q < 2 → ¬ stands q) ∧ s.symLen.toNat ≤ s.cfg.symCap ∧
      ¬ (∃ p, p + 32 ≤ (capture [1]).symLen.toNat) := by
  refine ⟨by decide +kernel, by decide +kernel, by decide +kernel, fun ⟨p, h⟩ => ?_⟩
  have : (capture [1]).symLen.toNat = 1 := by decide +kernel
  omega

theorem witness_Rp3OnlyMarks : (capture goodBlock).symLen.toNat ≤ (capture goodBlock).cfg.symCap ∧
    (capture goodBlock).status.getLsbD 2 = false ∧ { capture goodBlock with status := 4 }.status.getLsbD 2 = true := by
  decide +kernel

/-- The block 01 A9 91 of 18 symbols behind the gap end at index 3, and a gap of four symbols behind it. -/
theorem witness_Rp3MarksBlockEnd :
    let s := { capture (goodBlock ++ [1, 0, 0, 0]) with status := 4, sigPos := 3 }
    let bits := demodAll true (symsAt s.mem.sym 4 18)
    s.symLen.toNat ≤ s.cfg.symCap ∧ s.status.getLsbD 2 = true ∧ s.sigPos.toNat + 1 + 18 < s.symLen.toNat ∧
    (∀ y ∈ symsAt s.mem.sym 4 18, y ≠ .s3) ∧ bits.length % 8 = 0 ∧ 24 ≤ bits.length ∧
    crcBits (crcStart s.conf) bits = 0 ∧
    (∀ j, j < bits.length → 24 ≤ j → j % 8 = 0 → crcBits (crcStart s.conf) (bits.take j) ≠ 0) ∧
    (∀ k, 22 ≤ k → k < s.symLen.toNat → s.mem.sym.symAt k =
      if k = 22 ∧ demodEnd true (symsAt s.mem.sym 4 18) = true then .s1 else .s0) := by
  decide +kernel

/-- What the scan from gap-end symbol e finds in a capture, by evaluating it. -/
theorem finds (s : State) (e : Nat) (r : ScanEnd)
    (h : scanBlock s.conf s.mem.sym s.symLen.toNat (s.symLen.toNat - (e + 1)) (e + 1)
      ⟨true, crcStart s.conf, 0, 0, 0, none⟩ = r) : s.ScanFinds e r := h ▸ scanBlock_finds s e

/-- The next gap end in a capture, by evaluating the search. -/
theorem locates (s : State) (start : Nat) (r : Option Nat)
    (h : gapModeLocate s.conf s.mem.sym s.symLen.toNat start = r) : s.nextGapEnd start r := h ▸ gapModeLocate_spec s start

/-- A block that ends with its last symbol, a gap behind it and a further gap end at 26; the same at the end of the
capture. -/
theorem witness_Rp3MarksBlockEnd_afterSymbol :
    ((capture (goodBlock ++ [1, 0, 0, 0, 1, 0, 0])).firstBlockEnd 3 21 false ∧
      (capture (goodBlock ++ [1, 0, 0, 0, 1, 0, 0])).nextGapEnd 23 (some 26)) ∧
    (capture goodBlock).firstBlockEnd 3 21 false ∧ (capture goodBlock).nextGapEnd 23 none :=
  ⟨⟨finds _ 3 (.hit 21 .afterSymbol) (by decide +kernel), locates _ _ _ (by decide +kernel)⟩,
    finds _ 3 (.hit 21 .afterSymbol) (by decide +kernel), locates _ _ _ (by decide +kernel)⟩

/-- The block 0C with its CRC 4C 4A, whose last bit and the gap's first are the symbol 1 at index 21. -/
def straddlingBlock : List Nat := [0, 0, 0, 1, 1, 1, 0, 1, 0, 0, 0, 0, 1, 0, 1, 1, 1, 1, 2, 1, 1, 1, 0, 0, 0]

theorem witness_Rp3MarksBlockEnd_insideSymbol : (capture straddlingBlock).firstBlockEnd 3 21 true ∧
    (capture straddlingBlock).nextGapEnd 22 none :=
  ⟨finds _ 3 (.hit 21 .insideSymbol) (by decide +kernel), locates _ _ _ (by decide +kernel)⟩

/-- No block ends, and the scan crosses the zeros at 5 to 7 with the candidate at 8. -/
theorem witness_Rp3MarksBlockEnd_candidate :
    let s := capture [0, 0, 0, 1, 1, 0, 0, 0, 1, 0, 0]
    (∀ i b, ¬ s.blockEndsIn 3 i b) ∧ s.gapCandidate 3 8 ∧ (∀ k, k < 8 → ¬ s.gapCandidate 3 k) ∧
      s.zeroRunStart 3 8 5 :=
  have h := finds (capture [0, 0, 0, 1, 1, 0, 0, 0, 1, 0, 0]) 3 (.capture (some (8, 5))) (by decide +kernel)
  ⟨h.1, h.2.1⟩

/-- No block ends and no gap is crossed: the scan meets the marker at 5, and the next gap end is at 9. -/
theorem witness_Rp3MarksBlockEnd_marker :
    let s := capture [0, 0, 0, 1, 0, 3, 0, 0, 0, 1, 0]
    (∀ i b, ¬ s.blockEndsIn 3 i b) ∧ (∀ c, ¬ s.gapCandidate 3 c) ∧ s.mem.sym.symAt 5 = .s3 ∧
      (∀ k, 3 < k → k < 5 → s.mem.sym.symAt k ≠ .s3) ∧ s.nextGapEnd 6 (some 9) :=
  have h := finds (capture [0, 0, 0, 1, 0, 3, 0, 0, 0, 1, 0]) 3 (.marker 5 none) (by decide +kernel)
  ⟨h.1, h.2.1, h.2.2.2.2.1, h.2.2.2.2.2, locates _ _ _ (by decide +kernel)⟩

/-- The scan reaches the end of the capture. -/
theorem witness_Rp3MarksBlockEnd_capture :
    let s := capture [0, 0, 0, 1, 0]
    (∀ i b, ¬ s.blockEndsIn 3 i b) ∧ (∀ c, ¬ s.gapCandidate 3 c) ∧
      ∀ k, 3 < k → k < s.symLen.toNat → s.mem.sym.symAt k ≠ .s3 :=
  have h := finds (capture [0, 0, 0, 1, 0]) 3 (.capture none) (by decide +kernel)
  ⟨h.1, h.2.1, h.2.2⟩

/-- DST_CAP = 2: sixteen bits are free before symbol 0 and fifteen before symbol 1; the queue has room to spare. -/
theorem witness_Rp5LeavesImage_truncated :
    let s := { capture [0, 0, 0] with dstCap := 2 }
    (s.cursorAfter 0).out + 16 ≤ s.dstCap.toNat * 8 ∧ s.dstCap.toNat * 8 < (s.cursorAfter 1).out + 16 ∧
    1 < s.symLen.toNat ∧ (s.cursorAfter 1).ingap = true ∧ (after .rp5 { s with status := 4 }).info = 2 ∧
    (after .rp5 { s with status := 4 }).diagQ = [⟨2, 0, 1, 0, 0⟩] ∧ 1 < s.cfg.diagCap := by decide +kernel

/-- DST_CAP = 3: the walk stops before symbol 5, inside the block, whose CRC report stands behind CapacityExceeded
(log 18). -/
theorem witness_Rp5LeavesImage_insideBlock :
    let s := { capture [0, 0, 0, 1, 0, 0, 0] with dstCap := 3, status := 4, cfg := ⟨64, 64, 100, 9⟩ }
    (s.cursorAfter 4).out = 8 ∧ s.dstCap.toNat * 8 < (s.cursorAfter 5).out + 16 ∧ (s.cursorAfter 5).ingap = false ∧
    (after .rp5 s).diagQ.map (fun r => r.code) = [2, 5] ∧ (after .rp5 s).mem.pmap.read 0 = 2 ∧
    (after .rp5 s).mem.pmap.read 1 = 4 := by decide +kernel

/-- The block 01 A9 91 up to the end of the capture. -/
theorem witness_Rp5RecoversBlock_unmarked :
    let s := { capture goodBlock with dstCap := 6 }
    s.symLen.toNat ≤ s.cfg.symCap ∧ s.dstCap.toNat ≤ s.cfg.binCap ∧ s.dstCap.toNat * 8 < 2 ^ 32 ∧
    3 / 8 + 3 + [1, 0xA9, (0x91 : Byte)].length ≤ s.dstCap.toNat ∧ s.conf.shortGap.toNat < 3 ∧
    s.symLen.toNat = 3 + 1 + 18 + false.toNat ∧ (∀ k, k < 3 → s.mem.sym.symAt k = .s0) ∧ s.mem.sym.symAt 3 = .s1 ∧
    (∀ y ∈ symsAt s.mem.sym 4 18, y ≠ .s3) ∧ demodAll true (symsAt s.mem.sym 4 18) = bitsOfBytes [1, 0xA9, 0x91] := by
  decide +kernel

/-- A lead-in of three 0 symbols, the byte 01 and a marker. -/
theorem witness_Rp5RecoversBlock :
    let s := { capture [0, 0, 0, 1, 0, 1, 0, 0, 0, 0, 0, 3] with dstCap := 4 }
    s.symLen.toNat ≤ s.cfg.symCap ∧ s.dstCap.toNat ≤ s.cfg.binCap ∧ s.dstCap.toNat * 8 < 2 ^ 32 ∧
    3 / 8 + 3 + [(1 : Byte)].length ≤ s.dstCap.toNat ∧ s.conf.shortGap.toNat < 3 ∧ s.symLen.toNat = 3 + 1 + 7 + true.toNat ∧
    (∀ k, k < 3 → s.mem.sym.symAt k = .s0) ∧ s.mem.sym.symAt 3 = .s1 ∧
    (∀ y ∈ symsAt s.mem.sym 4 7, y ≠ .s3) ∧ demodAll true (symsAt s.mem.sym 4 7) = bitsOfBytes [1] ∧
    s.mem.sym.symAt 11 = .s3 := by
  decide +kernel

theorem witness_VerifyReportsInOrder :
    { small with cfg := { small.cfg with diagCap := 3 } }.diagQ.length + 3 ≤ 3 := by decide

theorem witness_OperationsAfterReset : 0 < small.cfg.diagCap ∧ 1 ≤ (1 : Word).toNat ∧ (65536 : Word).toNat ≤ 65536 := by
  decide

end Sys2Proof.Tests
end

section
/-! PROOF. Effects of the operations: the tables of spec/10_state.md rules R22 and R30 and of spec/20_memory.md rule
R60, read the other way round: for each operation the state it may write (`footprint`) and the flags it may change
(`flagsWritten`), and `exec_effect`, which says that every operation keeps to them. -/

namespace Sys2Proof.Machine

/-! ## The tables by operation -/

/-- s with RESULT, INFO and the response of t: what ending an operation writes (spec/60_exceptions.md rule R304). -/
def State.ended (s t : State) : State := { s with result := t.result, info := t.info, response := t.response }

/-- s with everything operation i may write taken from t (rules R22, R40 and R60 by operation; CRC used as scratch moves
the model's counter of free values, log 3). -/
def footprint (i : Instr) (s t : State) : State :=
  match i with
  | .nop => s.ended t
  | .rdreg r => { s.ended t with
      result := if (regOfNumber r).isSome then s.result else t.result
      info := if (regOfNumber r).isSome then s.info else t.info }
  | .wrreg r _ => { s.ended t with
      crc := if r = 0x00 then t.crc else s.crc, status := if r = 0x00 then t.status else s.status
      conf := t.conf, symLen := t.symLen, inCur := t.inCur, outCur := t.outCur, outBit := t.outBit
      srcLen := t.srcLen, dstCap := t.dstCap }
  | .diagrd => { s.ended t with diagRec := t.diagRec, diagQ := t.diagQ }
  | .diagclr => { s.ended t with diagQ := t.diagQ }
  | .crcinit | .crcstart | .crcbit _ | .crcbyte _ | .crcbuf _ _ | .crcgen _ _ | .crcchk _ _ =>
    { s.ended t with crc := t.crc, status := t.status }
  | .crcput _ => { s.ended t with mem := { s.mem with bin := t.mem.bin } }
  | .quant => { s.ended t with status := t.status, mem := { s.mem with sym := t.mem.sym } }
  | .dinit _ => { s.ended t with status := t.status }
  | .dsym _ => { s.ended t with status := t.status, outBit := t.outBit, mem := { s.mem with bin := t.mem.bin } }
  | .gapfind => { s.ended t with gapEnd := t.gapEnd }
  | .decblk _ _ => { s.ended t with
      crc := t.crc, freeCount := t.freeCount, inCur := t.inCur, outCur := t.outCur, gapEnd := t.gapEnd
      diagQ := t.diagQ, mem := { s.mem with bin := t.mem.bin } }
  | .decseq => { s.ended t with
      crc := t.crc, freeCount := t.freeCount, inCur := t.inCur, outCur := t.outCur, outLen := t.outLen
      nblocks := t.nblocks, gapEnd := t.gapEnd, diagQ := t.diagQ, mem := { s.mem with bin := t.mem.bin } }
  | .frblk _ _ => { s.ended t with
      crc := t.crc, freeCount := t.freeCount, outCur := t.outCur, mem := { s.mem with bin := t.mem.bin } }
  | .frside => { s.ended t with
      crc := t.crc, freeCount := t.freeCount, outCur := t.outCur, outLen := t.outLen, nblocks := t.nblocks
      mem := { s.mem with bin := t.mem.bin } }
  | .rp1 | .rp4 => { s.ended t with mem := { s.mem with sym := t.mem.sym } }
  | .rp2 => { s.ended t with status := t.status, sigPos := t.sigPos, mem := { s.mem with sym := t.mem.sym } }
  | .rp3 => { s.ended t with crc := t.crc, freeCount := t.freeCount, mem := { s.mem with sym := t.mem.sym } }
  | .rp5 => { s.ended t with
      crc := t.crc, freeCount := t.freeCount, status := t.status, outBit := t.outBit, outLen := t.outLen
      nblocks := t.nblocks, diagQ := t.diagQ, mem := { s.mem with bin := t.mem.bin, pmap := t.mem.pmap } }
  | .recon => { s.ended t with
      crc := t.crc, freeCount := t.freeCount, status := t.status, outBit := t.outBit, outLen := t.outLen
      nblocks := t.nblocks, sigPos := t.sigPos, diagQ := t.diagQ
      mem := { s.mem with sym := t.mem.sym, bin := t.mem.bin, pmap := t.mem.pmap } }

/-- The flags operation i may change (rule R30 by operation). -/
def flagsWritten : Instr → List Flag
  | .wrreg r _ => if r = 0x00 then [.z] else []
  | .crcinit | .crcstart | .crcbit _ | .crcbyte _ | .crcbuf _ _ | .crcgen _ _ | .crcchk _ _ => [.z]
  | .dinit _ | .dsym _ => [.prev]
  | .quant | .rp2 => [.sigf]
  | .rp5 => [.ingap, .trunc]
  | .recon => [.sigf, .ingap, .trunc]
  | .nop | .rdreg _ | .diagrd | .diagclr | .crcput _ | .gapfind | .decblk _ _ | .decseq | .frblk _ _ | .frside
  | .rp1 | .rp3 | .rp4 => []

/-! ## Flags kept -/

/-- STATUS v1 is v but for the flags of a list. -/
structure FlagsKept (fs : List Flag) (v v1 : BitVec 8) : Prop where
  flag : ∀ f, f ∉ fs → v1.getLsbD (flagBit f) = v.getLsbD (flagBit f)
  reserved : ∀ k, 5 ≤ k → v1.getLsbD k = v.getLsbD k

theorem FlagsKept.refl (fs : List Flag) (v : BitVec 8) : FlagsKept fs v v := ⟨fun _ _ => rfl, fun _ _ => rfl⟩

theorem FlagsKept.trans {fs : List Flag} {v v1 v2 : BitVec 8} (h1 : FlagsKept fs v v1) (h2 : FlagsKept fs v1 v2) :
    FlagsKept fs v v2 :=
  ⟨fun f hf => (h2.flag f hf).trans (h1.flag f hf), fun k hk => (h2.reserved k hk).trans (h1.reserved k hk)⟩

theorem FlagsKept.mono {fs gs : List Flag} {v v1 : BitVec 8} (h : FlagsKept fs v v1) (hs : fs ⊆ gs) :
    FlagsKept gs v v1 :=
  ⟨fun f hf => h.flag f (fun m => hf (hs m)), h.reserved⟩

/-- Writing a flag of the list keeps the others and bits 7 to 5. -/
theorem FlagsKept.putBit {fs : List Flag} (f : Flag) (hf : f ∈ fs) (v : BitVec 8) (b : Bool) :
    FlagsKept fs v (putBit v (flagBit f) b) := by
  refine ⟨fun g hg => ?_, fun k hk => ?_⟩
  · have hne : flagBit g ≠ flagBit f := fun e => hg (flagBit_injective g f e ▸ hf)
    rw [getLsbD_putBit _ _ _ _ (lt_trans (flagBit_lt g) (by decide)), if_neg hne]
  · have hlt := flagBit_lt f
    by_cases h8 : k < 8
    · rw [getLsbD_putBit _ _ _ _ h8, if_neg (by omega)]
    · rw [BitVec.getLsbD_of_ge _ _ (by omega), BitVec.getLsbD_of_ge _ _ (by omega)]

/-! ## One lemma per operation -/

/-- t is a state operation i may leave where it found s. -/
structure Effect (i : Instr) (s t : State) : Prop where
  frame : t = footprint i s t
  flags : FlagsKept (flagsWritten i) s.status t.status

/-- A footprint taken twice is the later one's. -/
theorem footprint_footprint (i : Instr) (s t u : State) : footprint i (footprint i s t) u = footprint i s u := by
  cases i with
  | rdreg r => simp only [footprint, State.ended]; split <;> rfl
  | wrreg r v => simp only [footprint, State.ended]; split <;> rfl
  | _ => rfl

/-- A footprint holds what the parts of an operation write one after another. -/
theorem Effect.trans {i : Instr} {s t u : State} (h1 : Effect i s t) (h2 : Effect i t u) : Effect i s u := by
  refine ⟨?_, h1.flags.trans h2.flags⟩
  rw [← footprint_footprint i s t u, ← h1.frame]
  exact h2.frame

theorem Effect.ite {i : Instr} {s t u : State} (c : Bool) (ht : Effect i s t) (hu : Effect i s u) :
    Effect i s (if c then t else u) := by
  split
  · exact ht
  · exact hu

/-- An operation that only ends (with any code) writes no more than its footprint; a successful RDREG, which leaves
RESULT and INFO, is not one. -/
theorem Effect.finish (i : Instr) (s : State) (c : ResultCode) (n : Nat)
    (hi : ∀ r, i = .rdreg r → regOfNumber r = none) : Effect i s (s.finish c n) := by
  refine ⟨?_, .refl _ _⟩
  cases i with
  | rdreg r => simp [footprint, hi r rfl, State.finish, State.ended]
  | wrreg r v => simp [footprint, State.finish, State.ended]
  | _ => rfl

/-- A refused command writes RESULT, INFO and the response only (spec/30_encoding.md rule R114). -/
theorem Effect.illegal (i : Instr) (s : State) (hi : ∀ r, i = .rdreg r → regOfNumber r = none) :
    Effect i s s.illegal := .finish i s _ _ hi

theorem execNop_effect {s t : State} (h : execNop s = .next t) : Effect .nop s t := by
  cases h
  exact .finish _ s _ _ (by simp)

theorem execRdreg_effect {r : BitVec 8} {s t : State} (h : execRdreg r s = .next t) : Effect (.rdreg r) s t := by
  unfold execRdreg at h
  split at h <;> rename_i hr <;> cases h
  · exact .illegal _ s (by simp [hr])
  · exact ⟨by simp [footprint, State.ended, hr], .refl _ _⟩

/-- Only register number 0x00 is CRC. -/
theorem regOfNumber_eq_crc {r : BitVec 8} (h : regOfNumber r = some .crc) : r = 0x00 := by
  unfold regOfNumber at h
  split at h
  · rename_i h0
    exact BitVec.eq_of_toNat_eq h0
  all_goals cases h

/-- A write of any other register than CRC leaves CRC and STATUS. -/
theorem writeReg_of_ne_crc (s : State) (reg : Reg) (v : Word) (h : reg ≠ .crc) :
    s.writeReg reg v = { s with
      conf := (s.writeReg reg v).conf, symLen := (s.writeReg reg v).symLen, inCur := (s.writeReg reg v).inCur
      outCur := (s.writeReg reg v).outCur, outBit := (s.writeReg reg v).outBit, srcLen := (s.writeReg reg v).srcLen
      dstCap := (s.writeReg reg v).dstCap } := by
  cases reg with
  | crc => exact absurd rfl h
  | _ => rfl

/-- The register WRREG writes is the one its number names. -/
theorem regOfNumber_of_wrregTarget {r : BitVec 8} {v : Word} {reg : Reg} (h : wrregTarget r v = some reg) :
    regOfNumber r = some reg := by
  unfold wrregTarget at h
  split at h
  · cases h
  · rename_i hr
    split at h <;> cases h
    exact hr

theorem execWrreg_effect {r : BitVec 8} {v : Word} {s t : State} (h : execWrreg r v s = .next t) :
    Effect (.wrreg r v) s t := by
  unfold execWrreg at h
  split at h
  · cases h
    exact .illegal _ s (by simp)
  · rename_i reg hreg
    cases h
    have hr := regOfNumber_of_wrregTarget hreg
    by_cases hc : reg = .crc
    · subst hc
      obtain rfl := regOfNumber_eq_crc hr
      exact ⟨rfl, .putBit .z (by simp [flagsWritten]) _ _⟩
    · have hf := writeReg_of_ne_crc s reg v hc
      generalize s.writeReg reg v = u at hf
      rw [hf]
      exact ⟨by simp [footprint, State.ended, State.finish], .refl _ _⟩

theorem execDiagrd_effect {s t : State} (h : execDiagrd s = .next t) : Effect .diagrd s t := by
  unfold execDiagrd at h
  split at h <;> cases h <;> exact ⟨rfl, .refl _ _⟩

theorem execDiagclr_effect {s t : State} (h : execDiagclr s = .next t) : Effect .diagclr s t := by
  cases h
  exact ⟨rfl, .refl _ _⟩

/-- The operations that update CRC and Z (spec/40_crc.md rules R140 to R146). -/
def crcUpdates : Instr → Bool
  | .crcinit | .crcstart | .crcbit _ | .crcbyte _ | .crcbuf _ _ | .crcgen _ _ | .crcchk _ _ => true
  | _ => false

/-- An update of CRC with its Z flag, then the end of the operation. -/
theorem Effect.setCrc (i : Instr) (s : State) (v : CrcWord) (c : ResultCode) (n : Nat) (hi : crcUpdates i = true) :
    Effect i s ((s.setCrc v).finish c n) := by
  cases i with
  | crcinit | crcstart | crcbit | crcbyte | crcbuf | crcgen | crcchk =>
    exact ⟨rfl, .putBit .z (by simp [flagsWritten]) _ _⟩
  | _ => cases hi

theorem execCrcinit_effect {s t : State} (h : execCrcinit s = .next t) : Effect .crcinit s t := by
  cases h
  exact .setCrc _ s _ _ _ rfl

theorem execCrcstart_effect {s t : State} (h : execCrcstart s = .next t) : Effect .crcstart s t := by
  cases h
  exact .setCrc _ s _ _ _ rfl

theorem execCrcbit_effect {b : Bool} {s t : State} (h : execCrcbit b s = .next t) : Effect (.crcbit b) s t := by
  cases h
  exact .setCrc _ s _ _ _ rfl

theorem execCrcbyte_effect {v : Byte} {s t : State} (h : execCrcbyte v s = .next t) : Effect (.crcbyte v) s t := by
  cases h
  exact .setCrc _ s _ _ _ rfl

theorem execCrcbuf_effect {a : BitVec 24} {n : Word} {s t : State} (h : execCrcbuf a n s = .next t) :
    Effect (.crcbuf a n) s t := by
  unfold execCrcbuf at h
  split at h <;> cases h
  · exact .illegal _ s (by simp)
  · exact .setCrc _ s _ _ _ rfl

theorem execCrcgen_effect {a : BitVec 24} {n : Word} {s t : State} (h : execCrcgen a n s = .next t) :
    Effect (.crcgen a n) s t := by
  unfold execCrcgen at h
  split at h <;> cases h
  · exact .illegal _ s (by simp)
  · exact .setCrc _ s _ _ _ rfl

theorem execCrcchk_effect {a : BitVec 24} {n : Word} {s t : State} (h : execCrcchk a n s = .next t) :
    Effect (.crcchk a n) s t := by
  unfold execCrcchk at h
  dsimp only at h
  split at h
  · cases h
    exact .illegal _ s (by simp)
  · split at h <;> cases h <;> exact .setCrc _ s _ _ _ rfl

theorem execCrcput_effect {a : BitVec 24} {s t : State} (h : execCrcput a s = .next t) : Effect (.crcput a) s t := by
  unfold execCrcput at h
  split at h <;> cases h <;> exact ⟨rfl, .refl _ _⟩

theorem execQuant_effect {s t : State} (h : execQuant s = .next t) : Effect .quant s t := by
  unfold execQuant at h
  split at h <;> cases h
  · exact ⟨rfl, .putBit .sigf (by simp [flagsWritten]) s.status false⟩
  · exact .illegal _ s (by simp)

theorem execDinit_effect {b : Bool} {s t : State} (h : execDinit b s = .next t) : Effect (.dinit b) s t := by
  cases h
  exact ⟨rfl, .putBit .prev (by simp [flagsWritten]) _ _⟩

theorem execDsym_effect {v : Byte} {s t : State} (h : execDsym v s = .next t) : Effect (.dsym v) s t := by
  unfold execDsym at h
  dsimp only at h
  split at h
  · split at h <;> cases h
    · exact .finish _ s _ _ (by simp)
    · exact ⟨rfl, .putBit .prev (by simp [flagsWritten]) _ _⟩
  · cases h
    exact .illegal _ s (by simp)

theorem execGapfind_effect {s t : State} (h : execGapfind s = .next t) : Effect .gapfind s t := by
  unfold execGapfind at h
  split at h
  · split at h <;> cases h <;> exact ⟨rfl, .refl _ _⟩
  · cases h
    exact .illegal _ s (by simp)

theorem execDecblk_effect {y : Byte} {n : Word} {s t : State} (h : execDecblk y n s = .next t) :
    Effect (.decblk y n) s t := by
  unfold execDecblk at h
  dsimp only at h
  split at h <;> cases h
  · have hf := decodeBlock_frame y n.toNat s
    generalize (decodeBlock y n.toNat s).1 = u at hf
    rw [hf]
    exact ⟨rfl, .refl _ _⟩
  · exact .illegal _ s (by simp)

theorem execDecseq_effect {s t : State} (h : execDecseq s = .next t) : Effect .decseq s t := by
  unfold execDecseq at h
  dsimp only at h
  split at h <;> cases h
  · obtain ⟨hf, -, -⟩ := decodeSequence_keeps (s.symLen.toNat + 1) .volume 0
      { s.clearDiag with inCur := 0, outCur := 0, nblocks := 0, outLen := 0 }
    generalize decodeSequence (s.symLen.toNat + 1) .volume 0 _ = r at hf
    obtain ⟨u, e⟩ := r
    dsimp only at hf ⊢
    rw [hf]
    exact ⟨rfl, .refl _ _⟩
  · exact .illegal _ s (by simp)

theorem execFrblk_effect {a : BitVec 24} {n : Word} {s t : State} (h : execFrblk a n s = .next t) :
    Effect (.frblk a n) s t := by
  unfold execFrblk at h
  dsimp only at h
  split at h
  · split at h <;> cases h <;> exact ⟨rfl, .refl _ _⟩
  · cases h
    exact .illegal _ s (by simp)

theorem execFrside_effect {s t : State} (h : execFrside s = .next t) : Effect .frside s t := by
  unfold execFrside at h
  dsimp only at h
  split at h
  · split at h
    · cases h
      exact ⟨rfl, .refl _ _⟩
    · split at h <;> cases h <;> exact ⟨rfl, .refl _ _⟩
  · cases h
    exact .illegal _ s (by simp)

theorem pass1_effect (s : State) : Effect .rp1 s (pass1 s).1 := ⟨rfl, .refl _ _⟩

theorem pass2_effect (s : State) : Effect .rp2 s (pass2 s).1 := by
  have kept : ∀ b, FlagsKept (flagsWritten .rp2) s.status (putBit s.status (flagBit .sigf) b) :=
    .putBit .sigf (by simp [flagsWritten]) _
  rcases pass2_cases s with h | ⟨p, sym, -, -, -, -, -, h⟩ <;> rw [h]
  · exact ⟨rfl, kept false⟩
  · exact ⟨rfl, kept true⟩

theorem pass3_effect (s : State) : Effect .rp3 s (pass3 s).1 := by
  obtain ⟨sym, h, -⟩ := pass3_marks s
  rw [h]
  exact ⟨rfl, .refl _ _⟩

theorem pass4_effect (s : State) : Effect .rp4 s (pass4 s).1 := ⟨rfl, .refl _ _⟩

theorem execRp1_effect {s t : State} (h : execRp1 s = .next t) : Effect .rp1 s t := by
  unfold execRp1 at h
  split at h <;> cases h
  · exact (pass1_effect s).trans (.finish _ _ _ _ (by simp))
  · exact .illegal _ s (by simp)

theorem execRp2_effect {s t : State} (h : execRp2 s = .next t) : Effect .rp2 s t := by
  unfold execRp2 at h
  split at h <;> cases h
  · exact (pass2_effect s).trans (.finish _ _ _ _ (by simp))
  · exact .illegal _ s (by simp)

theorem execRp3_effect {s t : State} (h : execRp3 s = .next t) : Effect .rp3 s t := by
  unfold execRp3 at h
  split at h <;> cases h
  · exact (pass3_effect s).trans (.finish _ _ _ _ (by simp))
  · exact .illegal _ s (by simp)

theorem execRp4_effect {s t : State} (h : execRp4 s = .next t) : Effect .rp4 s t := by
  unfold execRp4 at h
  split at h <;> cases h
  · exact (pass4_effect s).trans (.finish _ _ _ _ (by simp))
  · exact .illegal _ s (by simp)

/-! ## Pass 5 and RECON -/

/-- What pass 5 sets up: the queue, BIN, PMAP, NBLOCKS and TRUNC. -/
theorem walkSetup_effect (s : State) : Effect .rp5 s (walkSetup s) := by
  have hk : FlagsKept (flagsWritten .rp5) s.status (putBit s.status (flagBit .trunc) false) :=
    .putBit .trunc (by simp [flagsWritten]) _ _
  unfold walkSetup
  dsimp only
  split <;> exact ⟨rfl, hk⟩

theorem walkLoop_effect (fuel i : Nat) (s : State) (k : Walk) (hz : k.zsym ≤ k.out) :
    Effect .rp5 s (walkLoop fuel i s k).1 := by
  have he := walkLoop_ends fuel i s k hz
  refine ⟨?_, ?_⟩
  · have hf := he.frame
    generalize (walkLoop fuel i s k).1 = u at hf
    rw [hf]
    rfl
  · rcases he.status with ⟨hs, -⟩ | ⟨hs, -, -⟩ <;> rw [hs]
    · exact .refl _ _
    · exact .putBit .trunc (by simp [flagsWritten]) _ _

/-- VERIFY counts the block and queues records. -/
theorem verifyBlock_effect (start stop : Nat) (s : State) (k : Walk) :
    Effect .rp5 s (verifyBlock start stop s k).1 := by
  have hf := (verifyBlock_onlyQueues start stop s k).frame
  generalize (verifyBlock start stop s k).1 = u at hf
  rw [hf]
  exact ⟨rfl, .refl _ _⟩

theorem walkFinish_effect (n i : Nat) (s : State) (k : Walk) : Effect .rp5 s (walkFinish n i s k) := by
  have cursors : Effect .rp5 s { s with outBit := word32 k.out, outLen := word32 ((k.out + 7) / 8) } :=
    ⟨rfl, .refl _ _⟩
  have verified := cursors.trans (verifyBlock_effect k.bstart ((k.out + 7) / 8) _ k)
  have block := Effect.ite k.ingap cursors verified
  have ingap : ∀ u : State, Effect .rp5 u (u.setFlag .ingap k.ingap).scratchCrc := fun u =>
    ⟨rfl, .putBit .ingap (by simp [flagsWritten]) _ _⟩
  unfold walkFinish
  dsimp only
  exact (block.trans (ingap _)).trans
    (.ite _ (.finish _ _ _ _ (by simp)) (.finish _ _ _ _ (by simp)))

theorem pass5_effect (s : State) : Effect .rp5 s (pass5 s) :=
  ((walkSetup_effect s).trans (walkLoop_effect _ 0 _ Walk.start (le_refl _))).trans (walkFinish_effect _ _ _ _)

theorem execRp5_effect {s t : State} (h : execRp5 s = .next t) : Effect .rp5 s t := by
  unfold execRp5 at h
  split at h <;> cases h
  · exact pass5_effect s
  · exact .illegal _ s (by simp)

/-- The operations RECON is made of (spec/44_recon_decode.md rule R285). -/
def reconPasses : List Instr := [.rp1, .rp2, .rp3, .rp4, .rp5]

/-- RECON's footprint holds each of its passes'. -/
theorem Effect.recon_of_pass {i : Instr} {s t : State} (h : Effect i s t) (hi : i ∈ reconPasses) :
    Effect .recon s t := by
  simp only [reconPasses, List.mem_cons, List.not_mem_nil, or_false] at hi
  refine ⟨?_, h.flags.mono ?_⟩
  · rw [h.frame]
    rcases hi with rfl | rfl | rfl | rfl | rfl <;> rfl
  · rcases hi with rfl | rfl | rfl | rfl | rfl <;> simp [flagsWritten]

theorem execRecon_effect {s t : State} (h : execRecon s = .next t) : Effect .recon s t := by
  unfold execRecon at h
  split at h <;> cases h
  · have h1 := (pass1_effect s).recon_of_pass (by simp [reconPasses])
    have h2 := h1.trans ((pass2_effect _).recon_of_pass (by simp [reconPasses]))
    have h3 := h2.trans ((pass3_effect _).recon_of_pass (by simp [reconPasses]))
    have h4 := h3.trans ((pass4_effect _).recon_of_pass (by simp [reconPasses]))
    exact h4.trans ((pass5_effect _).recon_of_pass (by simp [reconPasses]))
  · exact .illegal _ s (by simp)

/-! ## Every operation -/

/-- Every operation writes no more than its footprint and changes no flag but its own. -/
theorem exec_effect {i : Instr} {s t : State} (h : exec i s = .next t) : Effect i s t := by
  cases i with
  | nop => exact execNop_effect h
  | rdreg => exact execRdreg_effect h
  | wrreg => exact execWrreg_effect h
  | diagrd => exact execDiagrd_effect h
  | diagclr => exact execDiagclr_effect h
  | crcinit => exact execCrcinit_effect h
  | crcstart => exact execCrcstart_effect h
  | crcbit => exact execCrcbit_effect h
  | crcbyte => exact execCrcbyte_effect h
  | crcbuf => exact execCrcbuf_effect h
  | crcgen => exact execCrcgen_effect h
  | crcchk => exact execCrcchk_effect h
  | crcput => exact execCrcput_effect h
  | quant => exact execQuant_effect h
  | dinit => exact execDinit_effect h
  | dsym => exact execDsym_effect h
  | gapfind => exact execGapfind_effect h
  | decblk => exact execDecblk_effect h
  | decseq => exact execDecseq_effect h
  | frblk => exact execFrblk_effect h
  | frside => exact execFrside_effect h
  | rp1 => exact execRp1_effect h
  | rp2 => exact execRp2_effect h
  | rp3 => exact execRp3_effect h
  | rp4 => exact execRp4_effect h
  | rp5 => exact execRp5_effect h
  | recon => exact execRecon_effect h

/-! ## What the flags' table leaves out -/

theorem z_notMem_flagsWritten {i : Instr} (hw : ∀ v, i ≠ .wrreg 0x00 v) (hc : crcUpdates i = false) :
    Flag.z ∉ flagsWritten i := by
  cases i with
  | wrreg r v =>
    have h0 : r ≠ 0x00 := fun e => hw v (by rw [e])
    rw [flagsWritten, if_neg h0]
    exact List.not_mem_nil
  | crcinit | crcstart | crcbit | crcbyte | crcbuf | crcgen | crcchk => cases hc
  | _ => simp [flagsWritten]

theorem prev_notMem_flagsWritten {i : Instr} (hinit : ∀ b, i ≠ .dinit b) (hsym : ∀ v, i ≠ .dsym v) :
    Flag.prev ∉ flagsWritten i := by
  cases i with
  | dinit b => exact absurd rfl (hinit b)
  | dsym v => exact absurd rfl (hsym v)
  | wrreg r v => rw [flagsWritten]; split <;> simp
  | _ => simp [flagsWritten]

theorem sigf_notMem_flagsWritten {i : Instr} (hquant : i ≠ .quant) (hrp2 : i ≠ .rp2) (hrecon : i ≠ .recon) :
    Flag.sigf ∉ flagsWritten i := by
  cases i with
  | quant => exact absurd rfl hquant
  | rp2 => exact absurd rfl hrp2
  | recon => exact absurd rfl hrecon
  | wrreg r v => rw [flagsWritten]; split <;> simp
  | _ => simp [flagsWritten]

theorem ingap_trunc_notMem_flagsWritten {i : Instr} (hrp5 : i ≠ .rp5) (hrecon : i ≠ .recon) :
    Flag.ingap ∉ flagsWritten i ∧ Flag.trunc ∉ flagsWritten i := by
  cases i with
  | rp5 => exact absurd rfl hrp5
  | recon => exact absurd rfl hrecon
  | wrreg r v => rw [flagsWritten]; split <;> simp
  | _ => simp [flagsWritten]

/-! ## What the registers' table leaves out -/

section Registers

variable {i : Instr} {s t : State}

theorem exec_keeps_lengths (h : exec i s = .next t) (hw : ∀ r v, i ≠ .wrreg r v) :
    t.symLen = s.symLen ∧ t.srcLen = s.srcLen ∧ t.dstCap = s.dstCap := by
  rw [(exec_effect h).frame]
  cases i with
  | wrreg r v => exact absurd rfl (hw r v)
  | _ => exact ⟨rfl, rfl, rfl⟩

theorem exec_keeps_inCur (h : exec i s = .next t) (hw : ∀ r v, i ≠ .wrreg r v) (hblk : ∀ y n, i ≠ .decblk y n)
    (hseq : i ≠ .decseq) : t.inCur = s.inCur := by
  rw [(exec_effect h).frame]
  cases i with
  | wrreg r v => exact absurd rfl (hw r v)
  | decblk y n => exact absurd rfl (hblk y n)
  | decseq => exact absurd rfl hseq
  | _ => rfl

theorem exec_keeps_outCur (h : exec i s = .next t) (hw : ∀ r v, i ≠ .wrreg r v) (hblk : ∀ y n, i ≠ .decblk y n)
    (hseq : i ≠ .decseq) (hfrblk : ∀ a n, i ≠ .frblk a n) (hfrside : i ≠ .frside) : t.outCur = s.outCur := by
  rw [(exec_effect h).frame]
  cases i with
  | wrreg r v => exact absurd rfl (hw r v)
  | decblk y n => exact absurd rfl (hblk y n)
  | decseq => exact absurd rfl hseq
  | frblk a n => exact absurd rfl (hfrblk a n)
  | frside => exact absurd rfl hfrside
  | _ => rfl

theorem exec_keeps_outBit (h : exec i s = .next t) (hw : ∀ r v, i ≠ .wrreg r v) (hdsym : ∀ v, i ≠ .dsym v)
    (hrp5 : i ≠ .rp5) (hrecon : i ≠ .recon) : t.outBit = s.outBit := by
  rw [(exec_effect h).frame]
  cases i with
  | wrreg r v => exact absurd rfl (hw r v)
  | dsym v => exact absurd rfl (hdsym v)
  | rp5 => exact absurd rfl hrp5
  | recon => exact absurd rfl hrecon
  | _ => rfl

theorem exec_keeps_outLen_nblocks (h : exec i s = .next t) (hseq : i ≠ .decseq) (hfrside : i ≠ .frside)
    (hrp5 : i ≠ .rp5) (hrecon : i ≠ .recon) : t.outLen = s.outLen ∧ t.nblocks = s.nblocks := by
  rw [(exec_effect h).frame]
  cases i with
  | decseq => exact absurd rfl hseq
  | frside => exact absurd rfl hfrside
  | rp5 => exact absurd rfl hrp5
  | recon => exact absurd rfl hrecon
  | _ => exact ⟨rfl, rfl⟩

theorem exec_keeps_sigPos (h : exec i s = .next t) (hrp2 : i ≠ .rp2) (hrecon : i ≠ .recon) :
    t.sigPos = s.sigPos := by
  rw [(exec_effect h).frame]
  cases i with
  | rp2 => exact absurd rfl hrp2
  | recon => exact absurd rfl hrecon
  | _ => rfl

theorem exec_keeps_gapEnd (h : exec i s = .next t) (hfind : i ≠ .gapfind) (hblk : ∀ y n, i ≠ .decblk y n)
    (hseq : i ≠ .decseq) : t.gapEnd = s.gapEnd := by
  rw [(exec_effect h).frame]
  cases i with
  | gapfind => exact absurd rfl hfind
  | decblk y n => exact absurd rfl (hblk y n)
  | decseq => exact absurd rfl hseq
  | _ => rfl

theorem exec_keeps_diagRec (h : exec i s = .next t) (hrd : i ≠ .diagrd) : t.diagRec = s.diagRec := by
  rw [(exec_effect h).frame]
  cases i with
  | diagrd => exact absurd rfl hrd
  | _ => rfl

theorem exec_keeps_diagQ (h : exec i s = .next t) (hrd : i ≠ .diagrd) (hclr : i ≠ .diagclr)
    (hblk : ∀ y n, i ≠ .decblk y n) (hseq : i ≠ .decseq) (hrp5 : i ≠ .rp5) (hrecon : i ≠ .recon) :
    t.diagQ = s.diagQ := by
  rw [(exec_effect h).frame]
  cases i with
  | diagrd => exact absurd rfl hrd
  | diagclr => exact absurd rfl hclr
  | decblk y n => exact absurd rfl (hblk y n)
  | decseq => exact absurd rfl hseq
  | rp5 => exact absurd rfl hrp5
  | recon => exact absurd rfl hrecon
  | _ => rfl

theorem exec_keeps_crc (h : exec i s = .next t) (hw : ∀ v, i ≠ .wrreg 0x00 v) (hc : crcUpdates i = false)
    (hblk : ∀ y n, i ≠ .decblk y n) (hseq : i ≠ .decseq) (hfrblk : ∀ a n, i ≠ .frblk a n) (hfrside : i ≠ .frside)
    (hrp3 : i ≠ .rp3) (hrp5 : i ≠ .rp5) (hrecon : i ≠ .recon) : t.crc = s.crc := by
  rw [(exec_effect h).frame]
  cases i with
  | wrreg r v => exact if_neg (fun e => hw v (by rw [e]))
  | crcinit | crcstart | crcbit | crcbyte | crcbuf | crcgen | crcchk => cases hc
  | decblk y n => exact absurd rfl (hblk y n)
  | decseq => exact absurd rfl hseq
  | frblk a n => exact absurd rfl (hfrblk a n)
  | frside => exact absurd rfl hfrside
  | rp3 => exact absurd rfl hrp3
  | rp5 => exact absurd rfl hrp5
  | recon => exact absurd rfl hrecon
  | _ => rfl

/-- A successful RDREG leaves RESULT and INFO (spec/45_system.md rule R361, spec/90_conflicts.md C9). -/
theorem exec_rdreg_keeps_result_info {r : BitVec 8} {reg : Reg} (h : exec (.rdreg r) s = .next t)
    (hr : regOfNumber r = some reg) : t.result = s.result ∧ t.info = s.info := by
  rw [(exec_effect h).frame]
  simp [footprint, hr]

/-- The operations that update CRC and Z are the seven the table names. -/
theorem crcUpdates_eq_false (hinit : i ≠ .crcinit) (hstart : i ≠ .crcstart) (hbit : ∀ b, i ≠ .crcbit b)
    (hbyte : ∀ v, i ≠ .crcbyte v) (hbuf : ∀ a n, i ≠ .crcbuf a n) (hgen : ∀ a n, i ≠ .crcgen a n)
    (hchk : ∀ a n, i ≠ .crcchk a n) : crcUpdates i = false := by
  cases i with
  | crcinit => exact absurd rfl hinit
  | crcstart => exact absurd rfl hstart
  | crcbit b => exact absurd rfl (hbit b)
  | crcbyte v => exact absurd rfl (hbyte v)
  | crcbuf a n => exact absurd rfl (hbuf a n)
  | crcgen a n => exact absurd rfl (hgen a n)
  | crcchk a n => exact absurd rfl (hchk a n)
  | _ => rfl

end Registers

end Sys2Proof.Machine
end

section
/-! PROOF. The statements of spec/10_state.md: what reset leaves, and which operations write which register and flag. -/

namespace Sys2Proof.Machine

/-- Settles O15: each clause is a flag the operation's row of `flagsWritten` does not hold. -/
theorem onlyNamedOperationsChangeFlags : Obligations.OnlyNamedOperationsChangeFlags := by
  unfold Obligations.OnlyNamedOperationsChangeFlags
  intro i s t h
  have kept := (exec_effect h).flags
  refine ⟨fun hw hinit hstart hbit hbyte hbuf hgen hchk => ?_, fun hinit hsym => ?_, fun hquant hrp2 hrecon => ?_,
    fun hrp5 hrecon => ?_, kept.reserved⟩
  · exact kept.flag .z (z_notMem_flagsWritten hw (crcUpdates_eq_false hinit hstart hbit hbyte hbuf hgen hchk))
  · exact kept.flag .prev (prev_notMem_flagsWritten hinit hsym)
  · exact kept.flag .sigf (sigf_notMem_flagsWritten hquant hrp2 hrecon)
  · obtain ⟨hingap, htrunc⟩ := ingap_trunc_notMem_flagsWritten hrp5 hrecon
    exact ⟨kept.flag .ingap hingap, kept.flag .trunc htrunc⟩

/-- Settles O16: each clause is a register the operation's footprint leaves as it was. -/
theorem onlyNamedOperationsWriteRegisters : Obligations.OnlyNamedOperationsWriteRegisters := by
  unfold Obligations.OnlyNamedOperationsWriteRegisters
  intro i s t h
  refine ⟨exec_keeps_lengths h, exec_keeps_inCur h, exec_keeps_outCur h, exec_keeps_outBit h,
    exec_keeps_outLen_nblocks h, exec_keeps_sigPos h, exec_keeps_gapEnd h, exec_keeps_diagRec h, exec_keeps_diagQ h,
    fun hw hinit hstart hbit hbyte hbuf hgen hchk =>
      exec_keeps_crc h hw (crcUpdates_eq_false hinit hstart hbit hbyte hbuf hgen hchk), ?_⟩
  rintro r reg rfl hr
  exact exec_rdreg_keeps_result_info h hr

/-- Settles O9: nothing is listed or queued, RESULT is OK and there is no response yet. -/
theorem resetMeetsInvariant : Obligations.ResetMeetsInvariant := by
  have nothing_wf : ∀ w, Memory.wf ([] : Memory w) := fun w => ⟨.nil, by simp⟩
  have nothing_below : ∀ w cap, Memory.below ([] : Memory w) cap := fun w cap => by simp
  exact {
    symWf := nothing_wf 8
    binWf := nothing_wf 8
    srcWf := nothing_wf 8
    pmapWf := nothing_wf 32
    symBelow := nothing_below 8 _
    binBelow := nothing_below 8 _
    srcBelow := nothing_below 8 _
    pmapBelow := nothing_below 32 _
    statusReserved := rfl
    resultCode := by decide
    responseCode := fun r hr => nomatch hr
    queueRoom := Nat.zero_le _
    queueCodes := fun r hr => nomatch hr
    poppedCode := by decide }

/-- Settles O11: closed facts, one number after another. -/
theorem resetRegisterValues : Obligations.ResetRegisterValues := by
  unfold Obligations.ResetRegisterValues
  decide

end Sys2Proof.Machine
end

section
/-! PROOF. The invariant of the block, kept by every state operation: one rule per shared update of the state, then one
per part of the decoder, the marking passes and pass 5, from which the operations' lemmas are put together. -/

namespace Sys2Proof.Machine

/-! ## One rule per state operation -/

section Updates

variable {s t : State}

/-- The invariant speaks of the sizes, the buffers, STATUS, RESULT, the response, the queue and the popped record only:
what changes other fields keeps it. -/
theorem State.Inv.of_eq (hs : s.Inv) (hcfg : t.cfg = s.cfg := by rfl) (hmem : t.mem = s.mem := by rfl)
    (hstatus : t.status = s.status := by rfl) (hresult : t.result = s.result := by rfl)
    (hresponse : t.response = s.response := by rfl) (hq : t.diagQ = s.diagQ := by rfl)
    (hrec : t.diagRec = s.diagRec := by rfl) : t.Inv := by
  obtain ⟨h1, h2, h3, h4, h5, h6, h7, h8, h9, h10, h11, h12, h13, h14⟩ := hs
  constructor <;> simpa only [hcfg, hmem, hstatus, hresult, hresponse, hq, hrec]

/-- A code that can be a result ends an operation (spec/60_exceptions.md rule R300). -/
theorem State.Inv.finish (hs : s.Inv) (c : ResultCode) (n : Nat) (hc : codeNumber c ∈ resultCodes := by decide) :
    (s.finish c n).Inv :=
  have code : (codeByte c).toNat ∈ resultCodes := (codeByte_toNat c).symm ▸ hc
  { hs with
    resultCode := code
    responseCode := fun r hr => by cases hr; exact code }

theorem State.Inv.illegal (hs : s.Inv) : s.illegal.Inv := hs.finish .illegalOp 0

/-- A flag is none of the reserved bits. -/
theorem State.Inv.setFlag (hs : s.Inv) (f : Flag) (b : Bool) : (s.setFlag f b).Inv :=
  { hs with statusReserved := putBit_reserved _ _ _ (flagBit_lt f) hs.statusReserved }

theorem State.Inv.setCrc (hs : s.Inv) (v : CrcWord) : (s.setCrc v).Inv :=
  State.Inv.setFlag (s := { s with crc := v }) hs.of_eq .z _

theorem State.Inv.setNblocks (hs : s.Inv) (n : Word) : { s with nblocks := n }.Inv := hs.of_eq

theorem State.Inv.scratchCrc (hs : s.Inv) : s.scratchCrc.Inv := hs.of_eq

theorem State.Inv.setSym (hs : s.Inv) {m : Memory 8} (hw : m.wf) (hb : m.below s.cfg.symCap) : (s.setSym m).Inv :=
  { hs with symWf := hw, symBelow := hb }

theorem State.Inv.setBin (hs : s.Inv) {m : Memory 8} (hw : m.wf) (hb : m.below s.cfg.binCap) : (s.setBin m).Inv :=
  { hs with binWf := hw, binBelow := hb }

theorem State.Inv.setSrc (hs : s.Inv) {m : Memory 8} (hw : m.wf) (hb : m.below s.cfg.srcCap) : (s.setSrc m).Inv :=
  { hs with srcWf := hw, srcBelow := hb }

theorem State.Inv.setPmap (hs : s.Inv) {m : Memory 32} (hw : m.wf) (hb : m.below (s.cfg.binCap + 1)) :
    (s.setPmap m).Inv :=
  { hs with pmapWf := hw, pmapBelow := hb }

theorem State.Inv.clearDiag (hs : s.Inv) : s.clearDiag.Inv :=
  { hs with queueRoom := Nat.zero_le _, queueCodes := fun _ hr => nomatch hr }

/-- What only queues records keeps the invariant (spec/60_exceptions.md rule R306). -/
theorem State.Inv.of_onlyQueues (hs : s.Inv) (h : OnlyQueues s t) : t.Inv := by
  rw [h.frame]
  exact { hs with
    queueRoom := h.room hs.queueRoom
    queueCodes := fun r hr => (h.codes r hr).elim (hs.queueCodes r) id }

/-- A write to a register: CRC sets Z, every other register is none the invariant speaks of. -/
theorem State.Inv.writeReg (hs : s.Inv) (reg : Reg) (v : Word) : (s.writeReg reg v).Inv := by
  by_cases hc : reg = .crc
  · subst hc
    exact hs.setCrc _
  · rw [writeReg_of_ne_crc s reg v hc]
    exact hs.of_eq

/-- The bounds check on SYM_LEN passed (spec/20_memory.md rule R70). -/
theorem State.symLen_le_of_symOk (h : s.symOk = true) : s.symLen.toNat ≤ s.cfg.symCap := of_decide_eq_true h

/-- The bounds check on DST_CAP passed (spec/20_memory.md rule R70). -/
theorem State.dstCap_le_of_dstOk (h : s.dstOk = true) : s.dstCap.toNat ≤ s.cfg.binCap := of_decide_eq_true h

end Updates

/-! ## The demodulator and the block decoder -/

/-- What DECBLK and DECSEQ leave in BIN and the queue, behind the bounds check. -/
theorem State.Inv.of_decodeKeeps {s t : State} (hs : s.Inv) (hd : s.dstOk = true) (hk : DecodeKeeps s t)
    (hf : t = { s with
      inCur := t.inCur, outCur := t.outCur, gapEnd := t.gapEnd, diagQ := t.diagQ, nblocks := t.nblocks
      mem := { s.mem with bin := t.mem.bin } }) : t.Inv := by
  rw [hf]
  exact { hs with
    binWf := hk.wf hs.binWf
    binBelow := hk.below _ (s.dstCap_le_of_dstOk hd) hs.binBelow
    queueRoom := hk.room hs.queueRoom
    queueCodes := fun r hr => (hk.codes r hr).elim (hs.queueCodes r) id }

/-- Bits appended within DST_CAP stay below BIN_CAP. -/
theorem appendBits_inv {s : State} {bits : List Bool} (hs : s.Inv) (hd : s.dstOk = true)
    (hroom : s.outBit.toNat + bits.length ≤ s.dstCap.toNat * 8) : (appendBits bits s).Inv := by
  have hcap := s.dstCap_le_of_dstOk hd
  have written := hs.setBin (Memory.wf_writeBits _ s.outBit.toNat bits hs.binWf)
    (Memory.below_writeBits _ _ _ _ hs.binBelow (by omega))
  exact written.of_eq

theorem decodeBlock_inv {s : State} (y : Byte) (n : Nat) (hs : s.Inv) (hd : s.dstOk = true) :
    (decodeBlock y n s).1.Inv := by
  have hf := decodeBlock_frame y n s
  refine hs.of_decodeKeeps hd (decodeBlock_keeps y n s) ?_
  generalize (decodeBlock y n s).1 = t at hf
  rw [hf]

theorem decodeBlock_resultCode (y : Byte) (n : Nat) (s : State) :
    codeNumber (decodeBlock y n s).2.code ∈ resultCodes := by
  have tried : ∀ c ∈ [ResultCode.ok, .badCrc, .blockTypeMismatch], codeNumber c ∈ resultCodes := by decide
  have stopped : ∀ c ∈ [ResultCode.gapNotFound, .capacityExceeded, .endOfCapture], codeNumber c ∈ resultCodes := by
    decide
  rcases decodeBlock_progress y n s with ⟨h, -⟩ | ⟨h, -⟩
  · exact tried _ h
  · exact stopped _ h

theorem sequenceEnding_resultCode (e : Ending) : codeNumber (sequenceEnding e).code ∈ resultCodes := by
  unfold sequenceEnding
  split
  · rename_i h
    rw [h]
    decide
  · exact (by decide : codeNumber .ok ∈ resultCodes)

/-! ## The marking passes -/

/-- Markers below SYM_LEN keep SYM canonical and within its capacity. -/
theorem State.Inv.setSym_of_markedBelow {s : State} (hs : s.Inv) (hok : s.symOk = true) {sym : Memory 8}
    (hm : Memory.MarkedBelow s.symLen.toNat s.mem.sym sym) : (s.setSym sym).Inv :=
  hs.setSym (hm.wf hs.symWf) (hm.below _ (s.symLen_le_of_symOk hok) hs.symBelow)

section Passes

variable {s : State} (hs : s.Inv) (hok : s.symOk = true)

include hs hok

theorem pass1_inv : (pass1 s).1.Inv := by
  obtain ⟨sym, h, hm⟩ := pass1_marks s
  rw [h]
  exact hs.setSym_of_markedBelow hok hm

theorem pass2_inv : (pass2 s).1.Inv := by
  rcases pass2_cases s with h | ⟨p, sym, -, -, -, -, hm, h⟩ <;> rw [h]
  · exact (hs.setFlag .sigf false).of_eq
  · exact ((hs.setSym_of_markedBelow hok hm).setFlag .sigf true).of_eq

theorem pass3_inv : (pass3 s).1.Inv := by
  obtain ⟨sym, h, hm, -⟩ := pass3_marks s
  rw [h]
  exact (hs.setSym_of_markedBelow hok hm).scratchCrc

theorem pass4_inv : (pass4 s).1.Inv := by
  obtain ⟨sym, h, hm⟩ := pass4_marks s
  rw [h]
  exact hs.setSym_of_markedBelow hok hm

end Passes

/-! ## Pass 5 -/

theorem verifyBlock_inv {s : State} (start stop : Nat) (k : Walk) (hs : s.Inv) : (verifyBlock start stop s k).1.Inv :=
  (hs.setNblocks _).of_onlyQueues (verifyBlock_onlyQueues start stop s k)

theorem walkSetup_inv {s : State} (hs : s.Inv) : (walkSetup s).Inv := by
  have bin := hs.clearDiag.setBin (Memory.wf_zeroN _ 0 s.dstCap.toNat hs.binWf) (Memory.below_zeroN _ _ _ _ hs.binBelow)
  have pmap := bin.setPmap (Memory.wf_zeroN _ 0 (s.dstCap.toNat + 1) hs.pmapWf)
    (Memory.below_zeroN _ _ _ _ hs.pmapBelow)
  have cleared := (pmap.setNblocks 0).setFlag .trunc false
  unfold walkSetup
  dsimp only
  split
  · exact cleared
  · exact cleared.of_onlyQueues (State.pushDiag_onlyQueues _ _ (by decide))

theorem walkSetup_dstOk (s : State) : (walkSetup s).dstOk = s.dstOk := by
  rw [(walkSetup_effect s).frame]
  rfl

/-- The walk stays within DST_CAP (spec/44_recon_decode.md rule R271), so BIN stays below BIN_CAP and PMAP, which has
one entry more, below BIN_CAP + 1. -/
theorem walkLoop_inv {s : State} (fuel i : Nat) (k : Walk) (hs : s.Inv) (hd : s.dstOk = true) (hz : k.zsym ≤ k.out)
    (ho : k.out ≤ s.dstCap.toNat * 8) : (walkLoop fuel i s k).1.Inv := by
  have he := walkLoop_ends fuel i s k hz
  have hout : (walkLoop fuel i s k).2.1.out ≤ s.dstCap.toNat * 8 := he.out.2 ho
  have hcap : (walkLoop fuel i s k).2.1.out ≤ s.cfg.binCap * 8 := by
    have := s.dstCap_le_of_dstOk hd
    omega
  have hreserved : (walkLoop fuel i s k).1.status &&& 0xE0 = 0 := by
    rcases he.status with ⟨h, -⟩ | ⟨h, -⟩ <;> rw [h]
    · exact hs.statusReserved
    · exact putBit_reserved _ _ _ (by decide) hs.statusReserved
  rw [he.frame]
  exact { hs with
    binWf := he.binWf hs.binWf
    binBelow := he.binBelow _ hcap hs.binBelow
    pmapWf := he.pmapWf hs.pmapWf
    pmapBelow := he.pmapBelow _ (by dsimp only; omega) hs.pmapBelow
    statusReserved := hreserved
    queueRoom := he.room hs.queueRoom
    queueCodes := fun r hr => (he.codes r hr).elim (hs.queueCodes r) id }

theorem walkFinish_inv {s : State} (n i : Nat) (k : Walk) (hs : s.Inv) : (walkFinish n i s k).Inv := by
  have cursors : { s with outBit := word32 k.out, outLen := word32 ((k.out + 7) / 8) }.Inv := hs.of_eq
  have verified := verifyBlock_inv k.bstart ((k.out + 7) / 8) k cursors
  unfold walkFinish
  dsimp only
  split <;> split
  · exact (cursors.setFlag _ _).scratchCrc.finish _ _
  · exact (cursors.setFlag _ _).scratchCrc.finish _ _
  · exact (verified.setFlag _ _).scratchCrc.finish _ _
  · exact (verified.setFlag _ _).scratchCrc.finish _ _

theorem pass5_inv {s : State} (hs : s.Inv) (hd : s.dstOk = true) : (pass5 s).Inv :=
  walkFinish_inv _ _ _ (walkLoop_inv _ 0 Walk.start (walkSetup_inv hs) ((walkSetup_dstOk s).trans hd) (le_refl _)
    (Nat.zero_le _))

/-! ## Between the passes of RECON -/

/-- What each pass of RECON needs: the invariant and the bounds checks RECON makes once, before the first pass
(spec/44_recon_decode.md rule R285). -/
structure ReconReady (s : State) : Prop where
  inv : s.Inv
  symOk : s.symOk = true
  dstOk : s.dstOk = true

/-- A pass leaves SYM_LEN, DST_CAP and the sizes, so the checks hold for the pass behind it too. -/
theorem ReconReady.next {i : Instr} {s t : State} (h : ReconReady s) (he : Effect i s t) (ht : t.Inv)
    (hi : i ∈ reconPasses := by simp [reconPasses]) : ReconReady t := by
  have hf := (he.recon_of_pass hi).frame
  exact ⟨ht, by rw [hf]; exact h.symOk, by rw [hf]; exact h.dstOk⟩

end Sys2Proof.Machine
end

section
/-! PROOF. Every operation, every host access and so every step keeps the invariant. -/

namespace Sys2Proof.Machine

/-! ## One lemma per operation -/

section Operations

variable {s t : State} (hs : s.Inv)

include hs

theorem execNop_inv (h : execNop s = .next t) : t.Inv := by
  cases h
  exact hs.finish _ _

theorem execRdreg_inv {r : BitVec 8} (h : execRdreg r s = .next t) : t.Inv := by
  unfold execRdreg at h
  split at h <;> cases h
  · exact hs.illegal
  · exact { hs with responseCode := fun _ hr => by cases hr; exact (by decide : 0 ∈ resultCodes) }

theorem execWrreg_inv {r : BitVec 8} {v : Word} (h : execWrreg r v s = .next t) : t.Inv := by
  unfold execWrreg at h
  split at h <;> cases h
  · exact hs.illegal
  · exact (hs.writeReg _ _).finish _ _

/-- The record popped was queued, so it holds a code that can be queued (spec/45_system.md rule R363). -/
theorem execDiagrd_inv (h : execDiagrd s = .next t) : t.Inv := by
  unfold execDiagrd at h
  split at h <;> cases h
  · have zeroed : { s with diagRec := ⟨0, 0, 0, 0, 0⟩ }.Inv :=
      { hs with poppedCode := (by decide : 0 ∈ 0 :: queuedCodes) }
    exact zeroed.finish _ _
  · rename_i r rest hq
    have popped : { s with diagRec := r, diagQ := rest }.Inv := { hs with
      queueRoom := by
        have := hs.queueRoom
        rw [hq, List.length_cons] at this
        exact Nat.le_of_succ_le this
      queueCodes := fun x hx => hs.queueCodes x (by rw [hq]; exact List.mem_cons_of_mem r hx)
      poppedCode := List.mem_cons_of_mem 0 (hs.queueCodes r (by rw [hq]; exact List.mem_cons_self)) }
    exact popped.finish _ _

theorem execDiagclr_inv (h : execDiagclr s = .next t) : t.Inv := by
  cases h
  exact hs.clearDiag.finish _ _

theorem execCrcinit_inv (h : execCrcinit s = .next t) : t.Inv := by
  cases h
  exact (hs.setCrc _).finish _ _

theorem execCrcstart_inv (h : execCrcstart s = .next t) : t.Inv := by
  cases h
  exact (hs.setCrc _).finish _ _

theorem execCrcbit_inv {b : Bool} (h : execCrcbit b s = .next t) : t.Inv := by
  cases h
  exact (hs.setCrc _).finish _ _

theorem execCrcbyte_inv {v : Byte} (h : execCrcbyte v s = .next t) : t.Inv := by
  cases h
  exact (hs.setCrc _).finish _ _

theorem execCrcbuf_inv {a : BitVec 24} {n : Word} (h : execCrcbuf a n s = .next t) : t.Inv := by
  unfold execCrcbuf at h
  split at h <;> cases h
  · exact hs.illegal
  · exact (hs.setCrc _).finish _ _

theorem execCrcgen_inv {a : BitVec 24} {n : Word} (h : execCrcgen a n s = .next t) : t.Inv := by
  unfold execCrcgen at h
  split at h <;> cases h
  · exact hs.illegal
  · exact (hs.setCrc _).finish _ _

theorem execCrcchk_inv {a : BitVec 24} {n : Word} (h : execCrcchk a n s = .next t) : t.Inv := by
  unfold execCrcchk at h
  dsimp only at h
  split at h
  · cases h
    exact hs.illegal
  · split at h <;> cases h
    · exact (hs.setCrc _).finish _ _
    · exact (hs.setCrc _).finish _ _

theorem execCrcput_inv {a : BitVec 24} (h : execCrcput a s = .next t) : t.Inv := by
  unfold execCrcput at h
  split at h <;> cases h
  · exact hs.illegal
  · rename_i hp
    have room : a.toNat + 2 ≤ s.cfg.binCap := by simpa [State.binPassed] using hp
    exact (hs.setBin (Memory.wf_writeN _ _ _ hs.binWf) (Memory.below_writeN _ _ _ _ hs.binBelow room)).finish _ _

theorem execQuant_inv (h : execQuant s = .next t) : t.Inv := by
  unfold execQuant at h
  split at h <;> cases h
  · rename_i hok
    have room := s.symLen_le_of_symOk hok
    exact ((hs.setSym (Memory.wf_writeN _ _ _ hs.symWf)
      (Memory.below_writeN _ _ _ _ hs.symBelow (by simpa using room))).setFlag _ _).finish _ _
  · exact hs.illegal

theorem execDinit_inv {b : Bool} (h : execDinit b s = .next t) : t.Inv := by
  cases h
  exact (hs.setFlag _ _).finish _ _

theorem execDsym_inv {v : Byte} (h : execDsym v s = .next t) : t.Inv := by
  unfold execDsym at h
  dsimp only at h
  split at h
  · rename_i hd
    split at h <;> cases h
    · exact hs.finish _ _
    · rename_i hroom
      exact ((appendBits_inv hs hd (by omega)).setFlag _ _).finish _ _
  · cases h
    exact hs.illegal

theorem execGapfind_inv (h : execGapfind s = .next t) : t.Inv := by
  unfold execGapfind at h
  split at h
  · split at h <;> cases h
    · exact hs.finish _ _
    · exact hs.of_eq.finish _ _
  · cases h
    exact hs.illegal

theorem execDecblk_inv {y : Byte} {n : Word} (h : execDecblk y n s = .next t) : t.Inv := by
  unfold execDecblk at h
  dsimp only at h
  split at h <;> cases h
  · rename_i hok
    obtain ⟨-, -, hd⟩ := hok
    exact (decodeBlock_inv y n.toNat hs hd).scratchCrc.finish _ _ (decodeBlock_resultCode y n.toNat s)
  · exact hs.illegal

theorem execDecseq_inv (h : execDecseq s = .next t) : t.Inv := by
  unfold execDecseq at h
  dsimp only at h
  split at h <;> cases h
  · rename_i hok
    obtain ⟨-, hd⟩ := hok
    have cleared : { s.clearDiag with inCur := 0, outCur := 0, nblocks := 0, outLen := 0 }.Inv := hs.clearDiag.of_eq
    obtain ⟨hf, hk, -⟩ := decodeSequence_keeps (s.symLen.toNat + 1) .volume 0
      { s.clearDiag with inCur := 0, outCur := 0, nblocks := 0, outLen := 0 }
    have decoded := (cleared.of_decodeKeeps hd hk hf).scratchCrc
    exact decoded.of_eq.finish _ _ (sequenceEnding_resultCode _)
  · exact hs.illegal

theorem execFrblk_inv {a : BitVec 24} {n : Word} (h : execFrblk a n s = .next t) : t.Inv := by
  unfold execFrblk at h
  dsimp only at h
  split at h
  · rename_i hok
    obtain ⟨-, -, hd, -⟩ := hok
    split at h <;> cases h
    · exact hs.scratchCrc.finish _ _
    · rename_i hroom
      have room := s.dstCap_le_of_dstOk hd
      have framed := hs.setBin (Memory.wf_writeN s.mem.bin s.outCur.toNat _ hs.binWf)
        (Memory.below_writeN _ _ _ (frame s.conf (s.mem.src.readN a.toNat n.toNat)) hs.binBelow
          (by rw [frame_length, Memory.readN_length]; omega))
      exact framed.scratchCrc.of_eq.finish _ _
  · cases h
    exact hs.illegal

theorem execFrside_inv (h : execFrside s = .next t) : t.Inv := by
  unfold execFrside at h
  dsimp only at h
  split at h
  · rename_i hok
    obtain ⟨-, hd⟩ := hok
    split at h
    · cases h
      exact hs.scratchCrc.finish _ _
    · rename_i blocks _
      split at h <;> cases h
      · exact hs.scratchCrc.finish _ _
      · rename_i hroom
        have room := s.dstCap_le_of_dstOk hd
        obtain ⟨hw, hb, -⟩ := frameBlocks_keeps s.conf s.mem.src blocks 0 s.cfg.binCap s.mem.bin hs.binWf hs.binBelow
          (by omega)
        have filled := hs.setBin (Memory.wf_zeroN _ (framedNeed s.conf blocks) _ hw)
          (Memory.below_zeroN _ _ (s.dstCap.toNat - framedNeed s.conf blocks) _ hb)
        exact filled.scratchCrc.of_eq.finish _ _
  · cases h
    exact hs.illegal

theorem execRp1_inv (h : execRp1 s = .next t) : t.Inv := by
  unfold execRp1 at h
  split at h <;> cases h
  · exact (pass1_inv hs ‹_›).finish _ _
  · exact hs.illegal

theorem execRp2_inv (h : execRp2 s = .next t) : t.Inv := by
  unfold execRp2 at h
  split at h <;> cases h
  · exact (pass2_inv hs ‹_›).finish _ _
  · exact hs.illegal

theorem execRp3_inv (h : execRp3 s = .next t) : t.Inv := by
  unfold execRp3 at h
  split at h <;> cases h
  · exact (pass3_inv hs ‹_›).finish _ _
  · exact hs.illegal

theorem execRp4_inv (h : execRp4 s = .next t) : t.Inv := by
  unfold execRp4 at h
  split at h <;> cases h
  · exact (pass4_inv hs ‹_›).finish _ _
  · exact hs.illegal

theorem execRp5_inv (h : execRp5 s = .next t) : t.Inv := by
  unfold execRp5 at h
  split at h <;> cases h
  · rename_i hok
    exact pass5_inv hs hok.2
  · exact hs.illegal

theorem execRecon_inv (h : execRecon s = .next t) : t.Inv := by
  unfold execRecon at h
  split at h <;> cases h
  · rename_i hok
    have r0 : ReconReady s := ⟨hs, hok.1, hok.2⟩
    have r1 := r0.next (pass1_effect s) (pass1_inv r0.inv r0.symOk)
    have r2 := r1.next (pass2_effect _) (pass2_inv r1.inv r1.symOk)
    have r3 := r2.next (pass3_effect _) (pass3_inv r2.inv r2.symOk)
    have r4 := r3.next (pass4_effect _) (pass4_inv r3.inv r3.symOk)
    exact pass5_inv r4.inv r4.dstOk
  · exact hs.illegal

/-- Every operation keeps the invariant. -/
theorem exec_inv {i : Instr} (h : exec i s = .next t) : t.Inv := by
  cases i with
  | nop => exact execNop_inv hs h
  | rdreg => exact execRdreg_inv hs h
  | wrreg => exact execWrreg_inv hs h
  | diagrd => exact execDiagrd_inv hs h
  | diagclr => exact execDiagclr_inv hs h
  | crcinit => exact execCrcinit_inv hs h
  | crcstart => exact execCrcstart_inv hs h
  | crcbit => exact execCrcbit_inv hs h
  | crcbyte => exact execCrcbyte_inv hs h
  | crcbuf => exact execCrcbuf_inv hs h
  | crcgen => exact execCrcgen_inv hs h
  | crcchk => exact execCrcchk_inv hs h
  | crcput => exact execCrcput_inv hs h
  | quant => exact execQuant_inv hs h
  | dinit => exact execDinit_inv hs h
  | dsym => exact execDsym_inv hs h
  | gapfind => exact execGapfind_inv hs h
  | decblk => exact execDecblk_inv hs h
  | decseq => exact execDecseq_inv hs h
  | frblk => exact execFrblk_inv hs h
  | frside => exact execFrside_inv hs h
  | rp1 => exact execRp1_inv hs h
  | rp2 => exact execRp2_inv hs h
  | rp3 => exact execRp3_inv hs h
  | rp4 => exact execRp4_inv hs h
  | rp5 => exact execRp5_inv hs h
  | recon => exact execRecon_inv hs h

end Operations

/-! ## The host's actions -/

section Actions

variable {s t : State}

theorem runCommand_inv {w : CommandWord} (hs : s.Inv) (h : runCommand w s = .next t) : t.Inv := by
  unfold runCommand at h
  split at h
  · exact exec_inv hs h
  · cases h
    exact hs.illegal

theorem hostRead_inv {b : BufferName} {i : Nat} (hs : s.Inv) (h : hostRead b i s = .next t) : t.Inv := by
  rcases hostRead_cases b i s with ⟨-, hr⟩ | ⟨-, v, hr⟩ <;> rw [hr] at h <;> cases h
  exact hs.of_eq

theorem hostWrite_inv {b : BufferName} {i : Nat} {v : Byte} (hs : s.Inv) (h : hostWrite b i v s = .next t) : t.Inv := by
  rcases hostWrite_cases b i v s with ⟨-, hw⟩ | ⟨-, -, hw⟩ | ⟨-, hi, hw⟩ | ⟨-, hi, hw⟩ | ⟨-, hi, hw⟩ <;>
    rw [hw] at h <;> cases h
  · exact hs.setSym (Memory.wf_write _ _ _ hs.symWf) (Memory.below_write _ _ _ _ hs.symBelow hi)
  · exact hs.setBin (Memory.wf_write _ _ _ hs.binWf) (Memory.below_write _ _ _ _ hs.binBelow hi)
  · exact hs.setSrc (Memory.wf_write _ _ _ hs.srcWf) (Memory.below_write _ _ _ _ hs.srcBelow hi)

/-- Every reset meets the invariant, whatever the block and the action held (log 8). -/
theorem hostReset_inv {contents : Buffers} (h : hostReset contents s = .next t) : t.Inv := by
  cases h
  exact {
    symWf := Memory.wf_normalise _ _
    binWf := Memory.wf_normalise _ _
    srcWf := Memory.wf_normalise _ _
    pmapWf := Memory.wf_normalise _ _
    symBelow := Memory.below_normalise _ _
    binBelow := Memory.below_normalise _ _
    srcBelow := Memory.below_normalise _ _
    pmapBelow := Memory.below_normalise _ _
    statusReserved := (rfl : (0 : BitVec 8) &&& 0xE0 = 0)
    resultCode := (by decide : 0 ∈ resultCodes)
    responseCode := fun _ hr => nomatch hr
    queueRoom := Nat.zero_le _
    queueCodes := fun _ hr => nomatch hr
    poppedCode := (by decide : 0 ∈ 0 :: queuedCodes) }

theorem runAction_inv {a : HostAction} (hs : s.Inv) (h : runAction a s = .next t) : t.Inv := by
  cases a with
  | command w => exact runCommand_inv hs h
  | read b i => exact hostRead_inv hs h
  | write b i v => exact hostWrite_inv hs h
  | reset contents => exact hostReset_inv h

end Actions

/-! ## One step -/

/-- With an action next in line a step takes it from the host's list and carries it out. -/
theorem step_of_host {s : State} {a : HostAction} {rest : List HostAction} (h : s.host = a :: rest) :
    step s = runAction a { s with host := rest } := by
  unfold step
  rw [h]

theorem step_of_idle {s : State} (h : s.host = []) : step s = .next s := by
  unfold step
  rw [h]

/-- Settles O10: the block waits, or carries out one action, which keeps the invariant. -/
theorem stepKeepsInvariant : Obligations.StepKeepsInvariant := by
  unfold Obligations.StepKeepsInvariant
  intro s t hs h
  cases hh : s.host with
  | nil =>
    rw [step_of_idle hh] at h
    cases h
    exact hs
  | cons a rest =>
    rw [step_of_host hh] at h
    have taken : { s with host := rest }.Inv := hs.of_eq
    exact runAction_inv taken h

end Sys2Proof.Machine
end

section
/-! PROOF. The buffers' table of spec/20_memory.md rule R60: which operations write SYM, BIN and PMAP, and what the
host's own reads and writes do. -/

namespace Sys2Proof.Machine

section BufferTable

variable {i : Instr} {s t : State}

theorem exec_keeps_sym (h : exec i s = .next t) (hquant : i ≠ .quant) (hrp1 : i ≠ .rp1) (hrp2 : i ≠ .rp2)
    (hrp3 : i ≠ .rp3) (hrp4 : i ≠ .rp4) (hrecon : i ≠ .recon) : t.mem.sym = s.mem.sym := by
  rw [(exec_effect h).frame]
  cases i with
  | quant => exact absurd rfl hquant
  | rp1 => exact absurd rfl hrp1
  | rp2 => exact absurd rfl hrp2
  | rp3 => exact absurd rfl hrp3
  | rp4 => exact absurd rfl hrp4
  | recon => exact absurd rfl hrecon
  | _ => rfl

theorem exec_keeps_bin (h : exec i s = .next t) (hput : ∀ a, i ≠ .crcput a) (hdsym : ∀ v, i ≠ .dsym v)
    (hblk : ∀ y n, i ≠ .decblk y n) (hseq : i ≠ .decseq) (hfrblk : ∀ a n, i ≠ .frblk a n) (hfrside : i ≠ .frside)
    (hrp5 : i ≠ .rp5) (hrecon : i ≠ .recon) : t.mem.bin = s.mem.bin := by
  rw [(exec_effect h).frame]
  cases i with
  | crcput a => exact absurd rfl (hput a)
  | dsym v => exact absurd rfl (hdsym v)
  | decblk y n => exact absurd rfl (hblk y n)
  | decseq => exact absurd rfl hseq
  | frblk a n => exact absurd rfl (hfrblk a n)
  | frside => exact absurd rfl hfrside
  | rp5 => exact absurd rfl hrp5
  | recon => exact absurd rfl hrecon
  | _ => rfl

theorem exec_keeps_pmap (h : exec i s = .next t) (hrp5 : i ≠ .rp5) (hrecon : i ≠ .recon) :
    t.mem.pmap = s.mem.pmap := by
  rw [(exec_effect h).frame]
  cases i with
  | rp5 => exact absurd rfl hrp5
  | recon => exact absurd rfl hrecon
  | _ => rfl

end BufferTable

/-- Settles O14: each clause is a buffer the operation's footprint leaves as it was. -/
theorem onlyNamedOperationsWriteBuffers : Obligations.OnlyNamedOperationsWriteBuffers := by
  unfold Obligations.OnlyNamedOperationsWriteBuffers
  intro i s t h
  exact ⟨exec_keeps_sym h, exec_keeps_bin h, exec_keeps_pmap h⟩

/-- Settles O13: an access below the capacity reads or writes that entry, and a read after a write of SYM, BIN or SRC is
`Memory.read_write`. -/
theorem hostAccessesBuffers : Obligations.HostAccessesBuffers := by
  unfold Obligations.HostAccessesBuffers
  refine ⟨fun s i rest => ⟨fun h hi => ?_, fun h hi => ?_, fun h hi => ?_, fun h hi => ?_⟩,
    fun s i v rest => ⟨fun h hi => ⟨_, ?_, Memory.read_write s.mem.sym i v⟩,
      fun h hi => ⟨_, ?_, Memory.read_write s.mem.bin i v⟩, fun h hi => ⟨_, ?_, Memory.read_write s.mem.src i v⟩⟩⟩
  all_goals exact (step_of_host h).trans (if_neg (Nat.not_le.mpr hi))

end Sys2Proof.Machine
end

section
/-! PROOF. The decoder and the encoder undo each other: what each operand format accepts, said once as an equivalence,
then the word of an operation and the operation of a word (spec/30_encoding.md rules R111 to R115). -/

namespace Sys2Proof

open Laws (opcode operandA operandB)

/-! ## What each operand format accepts -/

section Formats

variable {a : BitVec 24} {b : Word} {i j : Instr}

theorem formatN_eq_ok : formatN a b j = .ok i ↔ a = 0 ∧ b = 0 ∧ j = i := by
  unfold formatN
  split_ifs with ha hb <;> simp_all

theorem formatA_eq_ok {mk : BitVec 24 → Instr} : formatA a b mk = .ok i ↔ b = 0 ∧ mk a = i := by
  unfold formatA
  split_ifs with hb <;> simp_all

/-- The values of operand A a byte can have are the bytes themselves. -/
theorem setWidth_byte_eq_iff {v : BitVec 8} : v.setWidth 24 = a ↔ a.toNat < 256 ∧ a.setWidth 8 = v := by
  constructor
  · rintro rfl
    exact ⟨by simp; omega, by simp⟩
  · rintro ⟨ha, rfl⟩
    apply BitVec.eq_of_toNat_eq
    simp
    omega

/-- The values of operand A a bit can have are 0 and 1. -/
theorem setWidth_bit_eq_iff {v : Bool} : (BitVec.ofBool v).setWidth 24 = a ↔ a.toNat < 2 ∧ a.getLsbD 0 = v := by
  constructor
  · rintro rfl
    cases v <;> decide
  · rintro ⟨ha, rfl⟩
    have bit : a = 0 ∨ a = 1 := by bv_omega
    rcases bit with rfl | rfl <;> rfl

theorem formatAByte_eq_ok {mk : BitVec 8 → Instr} :
    formatAByte a b mk = .ok i ↔ b = 0 ∧ ∃ v : BitVec 8, v.setWidth 24 = a ∧ mk v = i := by
  unfold formatAByte
  split_ifs with hb ha <;> simp_all [setWidth_byte_eq_iff]

theorem formatABit_eq_ok {mk : Bool → Instr} :
    formatABit a b mk = .ok i ↔ b = 0 ∧ ∃ v : Bool, (BitVec.ofBool v).setWidth 24 = a ∧ mk v = i := by
  unfold formatABit
  split_ifs with hb ha
  · simp_all
  · simp [setWidth_bit_eq_iff, Nat.not_lt.mpr ha]
  · simp_all [setWidth_bit_eq_iff]

theorem formatAByteB_eq_ok {mk : BitVec 8 → Word → Instr} :
    formatAByteB a b mk = .ok i ↔ ∃ v : BitVec 8, v.setWidth 24 = a ∧ mk v b = i := by
  unfold formatAByteB
  split_ifs with ha <;> simp_all [setWidth_byte_eq_iff]

end Formats

/-! ## From an operation to its word and back -/

/-- The word of an operation holds its opcode and its operands. -/
theorem encode_eq_commandWord (i : Instr) : encode i = commandWord (opcode i) (operandA i) (operandB i) := by
  cases i <;> rfl

/-- A word with the fields of an operation is the operation's word. -/
theorem encode_eq_of_fields {w : CommandWord} {i : Instr} (hop : (fieldOp w).toNat = (opcode i).toNat)
    (ha : operandA i = fieldA w) (hb : operandB i = fieldB w) : encode i = w := by
  rw [encode_eq_commandWord, ha, hb, ← BitVec.eq_of_toNat_eq hop, commandWord_fields]

theorem decode_encode (i : Instr) : decode (encode i) = .ok i := by
  rw [encode_eq_commandWord]
  unfold decode
  rw [fieldOp_commandWord, fieldA_commandWord, fieldB_commandWord]
  cases i with
  | crcbuf a n | crcgen a n | crcchk a n | frblk a n => rfl
  | crcput a => exact formatA_eq_ok.mpr ⟨rfl, rfl⟩
  | rdreg v | crcbyte v | dsym v => exact formatAByte_eq_ok.mpr ⟨rfl, v, rfl, rfl⟩
  | crcbit v | dinit v => exact formatABit_eq_ok.mpr ⟨rfl, v, rfl, rfl⟩
  | wrreg v n | decblk v n => exact formatAByteB_eq_ok.mpr ⟨v, rfl, rfl⟩
  | _ => exact formatN_eq_ok.mpr ⟨rfl, rfl, rfl⟩

/-- Each arm of the decoder accepts only the fields of the operation it names. -/
theorem encode_of_decode {w : CommandWord} {i : Instr} (h : decode w = .ok i) : encode i = w := by
  unfold decode at h
  dsimp only at h
  split at h
  case h_10 hop | h_11 hop | h_12 hop | h_20 hop =>
    cases h
    exact encode_eq_of_fields hop rfl rfl
  case h_13 hop =>
    obtain ⟨hb, rfl⟩ := formatA_eq_ok.mp h
    exact encode_eq_of_fields hop rfl hb.symm
  case h_2 hop | h_9 hop | h_16 hop =>
    obtain ⟨hb, v, ha, rfl⟩ := formatAByte_eq_ok.mp h
    exact encode_eq_of_fields hop ha hb.symm
  case h_8 hop | h_15 hop =>
    obtain ⟨hb, v, ha, rfl⟩ := formatABit_eq_ok.mp h
    exact encode_eq_of_fields hop ha hb.symm
  case h_3 hop | h_18 hop =>
    obtain ⟨v, ha, rfl⟩ := formatAByteB_eq_ok.mp h
    exact encode_eq_of_fields hop ha rfl
  case h_28 => cases h
  all_goals
    rename_i hop
    obtain ⟨ha, hb, rfl⟩ := formatN_eq_ok.mp h
    exact encode_eq_of_fields hop ha.symm hb.symm

/-! ## The statements -/

/-- Settles O1: OP selects the operation's format, which accepts the operands `encode` puts there. -/
theorem encodeThenDecode : Obligations.EncodeThenDecode := decode_encode

/-- Settles O2: what a format accepts is exactly the fields the operation's word has. -/
theorem decodeThenEncode : Obligations.DecodeThenEncode := fun _ _ => encode_of_decode

/-- Settles O3: bit by bit, each of the 64 positions belongs to one field. -/
theorem commandWordLayout : Obligations.CommandWordLayout := by
  unfold Obligations.CommandWordLayout
  intro op a b
  apply BitVec.eq_of_getLsbD_eq
  intro k hk
  rw [commandWord_getLsbD]
  by_cases h1 : k < 8
  · simp [h1, hk, show k < 32 by omega]
  · by_cases h2 : k < 32
    · simp [h1, h2, hk, show 8 ≤ k by omega]
    · simp [h1, h2, hk, show 8 ≤ k by omega, show 24 ≤ k - 8 by omega]

/-- Settles O4: each word is its operation's, so it decodes to it. -/
theorem listedWordsDecode : Obligations.ListedWordsDecode := by
  unfold Obligations.ListedWordsDecode
  have of_encode {w : CommandWord} {i : Instr} (h : encode i = w) : decode w = .ok i := h ▸ decode_encode i
  exact ⟨of_encode rfl, of_encode rfl, of_encode rfl, of_encode rfl, of_encode rfl, of_encode rfl⟩

end Sys2Proof
end

section
/-! PROOF. A command in one step: a word that decodes runs its operation, and an illegal one, whichever of the decoder
and the operation refuses it (log 9), is answered IllegalOp (spec/30_encoding.md rules R110, R114). -/

namespace Sys2Proof.Machine

theorem runCommand_of_decode {w : CommandWord} {i : Instr} {s : State} (h : decode w = .ok i) :
    runCommand w s = exec i s := by
  unfold runCommand
  rw [h]

theorem runCommand_of_error {w : CommandWord} {e : DecodeError} {s : State} (h : decode w = .error e) :
    runCommand w s = .next s.illegal := by
  unfold runCommand
  rw [h]

/-- An operation outside the limits of rule R112 refuses itself. Only the four operations with a limit that no bit mask
can say are ever outside them. -/
theorem exec_of_not_wellFormed {i : Instr} (s : State) (h : i.wellFormed = false) : exec i s = .next s.illegal := by
  cases i with
  | rdreg r =>
    have reserved : regOfNumber r = none := Option.isNone_iff_eq_none.mp (Option.isSome_eq_false_iff.mp h)
    show execRdreg r s = _
    unfold execRdreg
    rw [reserved]
  | wrreg r v =>
    have refused : wrregTarget r v = none := Option.isNone_iff_eq_none.mp (Option.isSome_eq_false_iff.mp h)
    show execWrreg r v s = _
    unfold execWrreg
    rw [refused]
  | decblk t n =>
    have badLength : blockLengthOk n = false := h
    exact if_neg (by simp [badLength])
  | frblk a n =>
    have badLength : blockLengthOk n = false := h
    exact if_neg (by simp [badLength])
  | _ => cases h

/-- Settles O6: the step takes the command and runs what it decodes to. -/
theorem stepRunsDecoded : Obligations.StepRunsDecoded := by
  unfold Obligations.StepRunsDecoded
  intro s w i rest hhost hdecode
  exact (step_of_host hhost).trans (runCommand_of_decode hdecode)

/-- Settles O5: the decoder refuses the word, or the operation it names refuses its operands. -/
theorem illegalCommandRefused : Obligations.IllegalCommandRefused := by
  unfold Obligations.IllegalCommandRefused
  intro s w rest hhost hillegal
  rw [step_of_host hhost, ← State.illegal_eq_answered]
  cases hdecode : decode w with
  | error e => exact runCommand_of_error hdecode
  | ok i => exact (runCommand_of_decode hdecode).trans (exec_of_not_wellFormed _ (hillegal i hdecode))

end Sys2Proof.Machine
end

section
/-! PROOF. The CRC of a payload stored behind it makes the residual 0 (spec/40_crc.md rule R136): `CRC_BIT` bit by bit,
from which it is linear, and bits fed into a register whose low bits are 0 only shift in; so the stored CRC, fed last,
meets itself and cancels. -/

namespace Sys2Proof.Machine

/-! ## One bit -/

/-- `CRC_BIT` bit by bit: everything moves down by one, the data bit comes in at the top, and the polynomial is added
where the bit that leaves is set (rule R131). -/
theorem crcBit_getLsbD (reg : CrcWord) (b : Bool) (j : Nat) (hj : j < 16) :
    (crcBit reg b).getLsbD j =
      ((if j = 15 then b else reg.getLsbD (j + 1)) ^^ (reg.getLsbD 0 && crcPoly.getLsbD (j + 1))) := by
  have extended (k : Nat) : (BitVec.ofBool b ++ reg).getLsbD k =
      if k < 16 then reg.getLsbD k else (BitVec.ofBool b).getLsbD (k - 16) := BitVec.getLsbD_append
  have incoming : (BitVec.ofBool b ++ reg).getLsbD (j + 1) = if j = 15 then b else reg.getLsbD (j + 1) := by
    rw [extended]
    by_cases top : j = 15
    · simp [top]
    · rw [if_pos (by omega), if_neg top]
  have leaving : (BitVec.ofBool b ++ reg).getLsbD 0 = reg.getLsbD 0 := extended 0
  rw [crcBit, BitVec.getLsbD_extractLsb', decide_eq_true hj, Bool.true_and, Nat.add_comm 1 j, leaving, ← incoming]
  cases reg.getLsbD 0 <;> simp

/-- `CRC_BIT` is linear in the register and the data bit together (rule R136 law 3). -/
theorem crcBit_xor (x y : CrcWord) (a b : Bool) : crcBit (x ^^^ y) (a ^^ b) = crcBit x a ^^^ crcBit y b := by
  apply BitVec.eq_of_getLsbD_eq
  intro j hj
  rw [BitVec.getLsbD_xor, crcBit_getLsbD _ _ _ hj, crcBit_getLsbD _ _ _ hj, crcBit_getLsbD _ _ _ hj,
    BitVec.getLsbD_xor, BitVec.getLsbD_xor, Bool.and_xor_distrib_right]
  split <;> simp only [Bool.xor_assoc, Bool.xor_left_comm]

/-! ## Many bits -/

/-- What a register adds to a stream is what it leaves behind as many 0 bits. -/
theorem crcBits_xor (x y : CrcWord) (bs : List Bool) :
    crcBits (x ^^^ y) bs = crcBits x (List.replicate bs.length false) ^^^ crcBits y bs := by
  induction bs generalizing x y with
  | nil => rfl
  | cons b bs ih =>
    have step : crcBit (x ^^^ y) b = crcBit x false ^^^ crcBit y b := by rw [← crcBit_xor, Bool.false_xor]
    rw [crcBits_cons, step, ih, List.length_cons, List.replicate_succ, crcBits_cons, crcBits_cons]

/-- As long as the bits that leave are 0, the register only shifts, and the bits fed stand at its top in order. -/
theorem crcBits_getLsbD_of_low_zero (reg : CrcWord) (bs : List Bool) (hlen : bs.length ≤ 16)
    (hlow : ∀ k, k < bs.length → reg.getLsbD k = false) (j : Nat) (hj : j < 16) :
    (crcBits reg bs).getLsbD j =
      if j + bs.length < 16 then reg.getLsbD (j + bs.length) else bs.getD (j + bs.length - 16) false := by
  induction bs generalizing reg with
  | nil => simp [hj]
  | cons b bs ih =>
    rw [List.length_cons] at hlen hlow ⊢
    have shifts (k : Nat) (hk : k < 16) : (crcBit reg b).getLsbD k = if k = 15 then b else reg.getLsbD (k + 1) := by
      rw [crcBit_getLsbD _ _ _ hk, hlow 0 (by omega), Bool.false_and, Bool.xor_false]
    have low (k : Nat) (hk : k < bs.length) : (crcBit reg b).getLsbD k = false := by
      rw [shifts k (by omega), if_neg (by omega), hlow _ (by omega)]
    rw [crcBits_cons, ih _ (by omega) low]
    rcases Nat.lt_trichotomy (j + bs.length) 15 with below | top | above
    · rw [if_pos (by omega), if_pos (by omega), shifts _ (by omega), if_neg (by omega), Nat.add_assoc]
    · rw [if_pos (by omega), if_neg (by omega), shifts _ (by omega), if_pos top,
        show j + (bs.length + 1) - 16 = 0 by omega, List.getD_cons_zero]
    · rw [if_neg (by omega), if_neg (by omega),
        show j + (bs.length + 1) - 16 = j + bs.length - 16 + 1 by omega, List.getD_cons_succ]

/-! ## The two stored bytes -/

/-- The stored bytes of a value feed its bits in order. -/
theorem getD_bitsOfByte_le16 (d : CrcWord) (j : Nat) (hj : j < 16) :
    ((le16 d).flatMap bitsOfByte).getD j false = d.getLsbD j := by
  simp only [le16, bitsOfByte, List.flatMap_cons, List.flatMap_nil]
  interval_cases j <;> simp

/-- From a register at 0 the two stored bytes of a value leave the value. -/
theorem crcStream_zero_le16 (d : CrcWord) : crcStream 0 (le16 d) = d := by
  have len : ((le16 d).flatMap bitsOfByte).length = 16 := rfl
  rw [crcStream_eq_crcBits]
  apply BitVec.eq_of_getLsbD_eq
  intro j hj
  rw [crcBits_getLsbD_of_low_zero _ _ (by omega) (by simp) _ hj, len, if_neg (by omega), Nat.add_sub_cancel,
    getD_bitsOfByte_le16 _ _ hj]

/-- The two stored bytes of a value add the value to what two zero bytes would leave. -/
theorem crcStream_le16 (reg d : CrcWord) : crcStream reg (le16 d) = crcStream reg [0, 0] ^^^ d := by
  calc crcStream reg (le16 d)
      = crcBits (reg ^^^ 0#16) ((le16 d).flatMap bitsOfByte) := by rw [crcStream_eq_crcBits, BitVec.xor_zero]
    _ = crcBits reg (List.replicate 16 false) ^^^ crcBits 0 ((le16 d).flatMap bitsOfByte) := crcBits_xor _ _ _
    _ = crcStream reg [0, 0] ^^^ d := by rw [← crcStream_eq_crcBits, crcStream_zero_le16]; rfl

/-- The round trip (rule R136 law 1): a payload with its CRC behind it has residual 0. -/
theorem crcResidual_append_crcGen (c : ConfRegs) (p : List Byte) : crcResidual c (p ++ le16 (crcGen c p)) = 0 := by
  rw [crcResidual, crcStream_append, crcStream_le16, crcGen, crcStream_append, BitVec.xor_self]
  rfl

end Sys2Proof.Machine
end

section
/-! PROOF. The pseudo-operation CRCBLK (spec/30_encoding.md rule R116): what CRCGEN, CRCPUT and CRCCHK do within
BIN_CAP, then the three run one after another. -/

namespace Sys2Proof.Machine

/-! ## The buffer operations within BIN_CAP -/

theorem State.binPassed_eq_false {s : State} {a n : Nat} (h : a + n ≤ s.cfg.binCap) : s.binPassed a n = false :=
  decide_eq_false (Nat.not_lt.mpr h)

section WithinBin

variable {s : State} {a : BitVec 24} {n : Word}

theorem exec_crcgen_of_le (h : a.toNat + n.toNat ≤ s.cfg.binCap) :
    exec (.crcgen a n) s = .next ((s.setCrc (crcGen s.conf (s.mem.bin.readN a.toNat n.toNat))).finish .ok 0) := by
  show execCrcgen a n s = _
  simp [execCrcgen, State.binPassed_eq_false h]

theorem exec_crcput_of_le (h : a.toNat + 2 ≤ s.cfg.binCap) :
    exec (.crcput a) s = .next ((s.setBin (s.mem.bin.writeN a.toNat (le16 s.crc))).finish .ok 0) := by
  show execCrcput a s = _
  simp [execCrcput, State.binPassed_eq_false h]

theorem exec_crcchk_of_residual_zero (h : a.toNat + n.toNat ≤ s.cfg.binCap)
    (hr : crcResidual s.conf (s.mem.bin.readN a.toNat n.toNat) = 0) :
    exec (.crcchk a n) s = .next ((s.setCrc 0).finish .ok 0) := by
  show execCrcchk a n s = _
  simp [execCrcchk, State.binPassed_eq_false h, hr]

end WithinBin

/-! ## A payload with something stored behind it -/

theorem Memory.readN_writeN_behind {w : Nat} (m : Memory w) (a n : Nat) (vs : List (BitVec w)) :
    (m.writeN (a + n) vs).readN a (n + vs.length) = m.readN a n ++ vs := by
  have payload : (m.writeN (a + n) vs).readN a n = m.readN a n :=
    Memory.readN_congr _ _ _ _ fun i hi => by rw [Memory.read_writeN, if_neg (by omega)]
  rw [Memory.readN_add, payload, Memory.readN_writeN]

/-- Settles O33: CRCPUT stores behind the payload the CRC that CRCGEN made of it: the round trip of rule R136. -/
theorem crcblkStoresGoodCrc : Obligations.CrcblkStoresGoodCrc := by
  unfold Obligations.CrcblkStoresGoodCrc
  intro s a n hfits hroom hlen
  have put_a : (BitVec.ofNat 24 (a.toNat + n.toNat)).toNat = a.toNat + n.toNat := by simp; omega
  have chk_n : (n + 2).toNat = n.toNat + 2 := by bv_omega
  refine ⟨_, _, _, _, _, if_pos hfits, exec_crcgen_of_le (by omega), exec_crcput_of_le (by simp; omega),
    exec_crcchk_of_residual_zero (by rw [chk_n]; simp; omega) ?_, rfl, rfl⟩
  simp only [State.finish_conf, State.finish_mem, State.setBin_conf, State.setBin_mem, State.setCrc_conf,
    State.setCrc_mem, State.finish_crc, State.setCrc_crc, put_a, chk_n]
  exact (congrArg _ (Memory.readN_writeN_behind ..)).trans (crcResidual_append_crcGen ..)

end Sys2Proof.Machine
end

section
/-! PROOF. The functions of the CRC unit: the 16-bit form of `CRC_BIT` (spec/40_crc.md rule R131) and the laws of rule
R136. -/

namespace Sys2Proof.Machine

/-- The constant of the 16-bit form is CRC_POLY without the bit that is shifted out (rules R130, R131). -/
theorem crcPoly_getLsbD_succ (j : Nat) (hj : j < 16) : crcPoly.getLsbD (j + 1) = (0x8408 : CrcWord).getLsbD j := by
  interval_cases j <;> rfl

/-- The register moved down by one with the data bit at its top. -/
theorem getLsbD_shifted (reg : CrcWord) (b : Bool) (j : Nat) (hj : j < 16) :
    ((reg >>> 1) ||| (if b then 0x8000 else 0)).getLsbD j = if j = 15 then b else reg.getLsbD (j + 1) := by
  have top : (if b then 0x8000 else 0 : CrcWord).getLsbD j = (decide (j = 15) && b) := by
    cases b
    · simp
    · interval_cases j <;> rfl
  rw [BitVec.getLsbD_or, BitVec.getLsbD_ushiftRight, top, Nat.add_comm]
  by_cases h : j = 15 <;> simp [h]

/-- Settles O22: both forms shift alike and add the same constant where the bit that leaves is set. -/
theorem crcBitHasSixteenBitForm : Obligations.CrcBitHasSixteenBitForm := by
  unfold Obligations.CrcBitHasSixteenBitForm
  intro reg b
  apply BitVec.eq_of_getLsbD_eq
  intro j hj
  rw [crcBit_getLsbD _ _ _ hj, crcPoly_getLsbD_succ _ hj, ← getLsbD_shifted _ _ _ hj]
  cases reg.getLsbD 0
  · simp
  · simp

/-- Settles O23: the two bytes of the statement are the stored form of the CRC. -/
theorem crcRoundTrip : Obligations.CrcRoundTrip := crcResidual_append_crcGen

theorem crcBits_zero_replicate_false (n : Nat) : crcBits 0 (List.replicate n false) = 0 := by
  induction n with
  | zero => rfl
  | succ n ih => exact ih

theorem crcStream_zero_replicate_zero (n : Nat) : crcStream 0 (List.replicate n 0) = 0 := by
  induction n with
  | zero => rfl
  | succ n ih => exact ih

/-- Settles O24: the register of 0 is the same after one more zero bit and after one more zero byte. -/
theorem crcLinearAndZeroStays : Obligations.CrcLinearAndZeroStays :=
  ⟨crcBit_xor, crcBits_zero_replicate_false, crcStream_zero_replicate_zero⟩

end Sys2Proof.Machine
end

section
/-! PROOF. The eight operations of the CRC unit (spec/40_crc.md rules R140 to R147): how an update of CRC and a buffer
operation end, then one statement after another. -/

namespace Sys2Proof.Machine

/-! ## How the operations end -/

/-- CRC written with its Z flag, then the operation ended. -/
theorem State.setCrc_finish (s : State) (v : CrcWord) (c : ResultCode) (n : Nat) :
    (s.setCrc v).finish c n =
      { s with crc := v, status := zFlag s.status v }.answered (codeByte c) (word32 n) := by
  have z : putBit s.status 0 (v == 0) = zFlag s.status v := by rw [putBit_zero, zFlag]; simp
  rw [← z]
  rfl

theorem State.binPassed_eq_true {s : State} {a n : Nat} (h : s.cfg.binCap < a + n) : s.binPassed a n = true :=
  decide_eq_true h

theorem State.next_illegal_of_binPassed {s : State} {a n : Nat} (h : s.cfg.binCap < a + n) (o : Outcome) :
    (if s.binPassed a n then .next s.illegal else o) = .next (s.answered 8 0) := by
  rw [if_pos (State.binPassed_eq_true h), State.illegal_eq_answered]

theorem crcByte_eq_foldl (reg : CrcWord) (v : Byte) :
    crcByte reg v = (List.range 8).foldl (fun c i => crcBit c (v.getLsbD i)) reg := rfl

/-! ## The register operations -/

/-- Settles O25: one update of CRC with its Z flag, from CRC_INIT. -/
theorem crcinitLoadsInit : Obligations.CrcinitLoadsInit :=
  ⟨rfl, fun s => congrArg _ (s.setCrc_finish s.conf.crcInit .ok 0)⟩

theorem exec_crcstart (s : State) : exec .crcstart s =
    .next ({ s with crc := crcStart s.conf, status := zFlag s.status (crcStart s.conf) }.answered 0 0) :=
  congrArg _ (s.setCrc_finish _ .ok 0)

/-- Settles O26: `CRC_START()` by the two values of CRC_COVERS_MARKER. -/
theorem crcstartLoadsStart : Obligations.CrcstartLoadsStart := by
  unfold Obligations.CrcstartLoadsStart
  refine ⟨rfl, fun s covers => ?_, fun s covers => ?_, rfl⟩
  · have start : crcStart s.conf = crcByte s.conf.crcInit 0x80 := if_pos covers
    rw [exec_crcstart, start]
  · have start : crcStart s.conf = s.conf.crcInit := if_neg (by rw [covers]; decide)
    rw [exec_crcstart, start]

/-- Operand A of a CRCBIT must fit one bit (spec/30_encoding.md rule R112). -/
theorem decode_crcbit_of_wide {w : CommandWord} (hop : fieldOp w = 0x12) (ha : 1 < (fieldA w).toNat) :
    ∃ e, decode w = .error e := by
  have format : decode w = formatABit (fieldA w) (fieldB w) .crcbit := by
    unfold decode
    rw [hop]
    rfl
  cases h : formatABit (fieldA w) (fieldB w) .crcbit with
  | error e => exact ⟨e, format.trans h⟩
  | ok i =>
    obtain ⟨-, v, hv, -⟩ := formatABit_eq_ok.mp h
    have narrow := (setWidth_bit_eq_iff.mp hv).1
    omega

/-- Settles O27: the decoder refuses a wide operand A before the operation runs. -/
theorem crcbitShiftsBit : Obligations.CrcbitShiftsBit := by
  unfold Obligations.CrcbitShiftsBit
  refine ⟨by decide, fun s b => congrArg _ (s.setCrc_finish _ .ok 0), fun s w hop ha => ?_, rfl, rfl, rfl⟩
  obtain ⟨e, he⟩ := decode_crcbit_of_wide hop ha
  rw [runCommand_of_error he, State.illegal_eq_answered]

/-- Settles O28: the bits of a byte are listed least significant first. -/
theorem crcbyteShiftsByte : Obligations.CrcbyteShiftsByte := by
  unfold Obligations.CrcbyteShiftsByte
  refine ⟨fun _ => rfl, fun s v => ?_⟩
  rw [← crcByte_eq_foldl]
  exact congrArg _ (s.setCrc_finish _ .ok 0)

/-! ## The buffer operations -/

section Buffer

variable {s : State} {a : BitVec 24} {n : Word}

theorem exec_crcbuf_of_le (h : a.toNat + n.toNat ≤ s.cfg.binCap) :
    exec (.crcbuf a n) s = .next ((s.setCrc (crcStream s.crc (s.mem.bin.readN a.toNat n.toNat))).finish .ok 0) := by
  show execCrcbuf a n s = _
  simp [execCrcbuf, State.binPassed_eq_false h]

theorem exec_crcchk_of_residual_ne_zero (h : a.toNat + n.toNat ≤ s.cfg.binCap) {r : CrcWord}
    (hr : crcResidual s.conf (s.mem.bin.readN a.toNat n.toNat) = r) (hne : r ≠ 0) :
    exec (.crcchk a n) s = .next ((s.setCrc r).finish .badCrc r.toNat) := by
  show execCrcchk a n s = _
  rw [execCrcchk, State.binPassed_eq_false h, if_neg Bool.false_ne_true, hr]
  exact if_neg hne

end Buffer

/-- Settles O29: the bytes read from BIN are shifted in one after another. -/
theorem crcbufShiftsBytes : Obligations.CrcbufShiftsBytes := by
  unfold Obligations.CrcbufShiftsBytes
  refine ⟨fun _ _ => rfl, fun s a n h => State.next_illegal_of_binPassed h _, fun s a n h => ?_⟩
  rw [exec_crcbuf_of_le h, State.setCrc_finish, crcStream_readN]
  rfl

/-- Settles O30: the two zero bytes come after the bytes of BIN. -/
theorem crcgenGenerates : Obligations.CrcgenGenerates := by
  unfold Obligations.CrcgenGenerates
  refine ⟨fun _ _ => rfl, fun s a n h => State.next_illegal_of_binPassed h _, fun s a n h => ?_⟩
  rw [exec_crcgen_of_le h, State.setCrc_finish, crcGen_eq, crcStream_readN]
  rfl

/-- Settles O31: by whether the residual is 0. -/
theorem crcchkChecks : Obligations.CrcchkChecks := by
  unfold Obligations.CrcchkChecks
  refine ⟨fun _ _ => rfl, fun s a n h => State.next_illegal_of_binPassed h _, fun s a n h => ?_⟩
  rw [← crcStream_readN]
  intro r t
  by_cases hr : r = 0
  · rw [exec_crcchk_of_residual_zero h hr, State.setCrc_finish, if_pos hr, ← hr]
    rfl
  · rw [exec_crcchk_of_residual_ne_zero h rfl hr, State.setCrc_finish, if_neg hr, word32, BitVec.ofNat_toNat]
    rfl

/-- Settles O32: the buffer is BIN with the two stored bytes of CRC written at a. -/
theorem crcputStoresCrc : Obligations.CrcputStoresCrc := by
  unfold Obligations.CrcputStoresCrc
  refine ⟨fun _ => rfl, fun s a h => State.next_illegal_of_binPassed h _, fun s a h => ?_⟩
  have len : (le16 s.crc).length = 2 := rfl
  refine ⟨s.mem.bin.writeN a.toNat (le16 s.crc), exec_crcput_of_le h, ?_, ?_, fun k hlow hhigh => ?_⟩
  · rw [Memory.read_writeN, if_pos (by omega), Nat.sub_self]
    rfl
  · rw [Memory.read_writeN, if_pos (by omega), Nat.add_sub_cancel_left]
    rfl
  · rw [Memory.read_writeN, if_neg (by omega)]

end Sys2Proof.Machine
end

section
/-! PROOF. The quantiser and the demodulator's operations (spec/41_demod.md sections 1 and 2): the bounds checks of the
family, what QUANT makes of an entry, and the bits of one symbol appended to BIN. -/

namespace Sys2Proof.Machine

/-! ## The bounds checks -/

theorem State.symOk_iff {s : State} : s.symOk = true ↔ s.symLen.toNat ≤ s.cfg.symCap := decide_eq_true_iff

theorem State.dstOk_iff {s : State} : s.dstOk = true ↔ s.dstCap.toNat ≤ s.cfg.binCap := decide_eq_true_iff

theorem State.not_symOk {s : State} (h : s.cfg.symCap < s.symLen.toNat) : ¬ s.symOk = true :=
  mt State.symOk_iff.mp (Nat.not_le.mpr h)

theorem State.not_dstOk {s : State} (h : s.cfg.binCap < s.dstCap.toNat) : ¬ s.dstOk = true :=
  mt State.dstOk_iff.mp (Nat.not_le.mpr h)

/-! ## The quantiser -/

/-- The byte QUANT leaves for an entry, by the four thresholds in order (rule R160). -/
theorem symByte_quantise (c : ConfRegs) (v : Byte) : symByte (quantise c v) =
    if v < c.qT0 then 3 else if v < c.qT1 then 0 else if v < c.qT2 then 1 else if v < c.qT3 then 2 else 3 := by
  unfold quantise
  simp only [BitVec.lt_def]
  split_ifs <;> rfl

/-- A buffer whose first n entries are replaced, each by f of what it held. -/
theorem Memory.read_writeN_map_readN (m : Memory 8) (f : Byte → Byte) (n k : Nat) :
    (m.writeN 0 ((m.readN 0 n).map f)).read k = if k < n then f (m.read k) else m.read k := by
  have len : ((m.readN 0 n).map f).length = n := by rw [List.length_map, Memory.readN_length]
  rw [Memory.read_writeN, len, Nat.zero_add, Nat.sub_zero]
  by_cases hk : k < n
  · have entry : (m.readN 0 n)[k]'(by simpa using hk) = m.read k := by
      have read := m.readN_getD 0 n k unwritten
      rwa [if_pos hk, Nat.zero_add, List.getD_eq_getElem _ _ (by simpa using hk)] at read
    rw [if_pos ⟨Nat.zero_le k, hk⟩, if_pos hk, List.getD_eq_getElem _ _ (by rwa [len]), List.getElem_map, entry]
  · rw [if_neg (fun h => hk h.2), if_neg hk]

/-- Settles O34: the entries below SYM_LEN are replaced by their quantised bytes, those from it on are not written. -/
theorem quantQuantises : Obligations.QuantQuantises := by
  unfold Obligations.QuantQuantises
  refine ⟨rfl, fun s h => if_neg (State.not_symOk h), fun s h => ⟨_, if_pos (State.symOk_iff.mpr h), ?_, ?_⟩⟩
  · intro i hi
    rw [Memory.read_writeN_map_readN, if_pos hi, symByte_quantise]
  · intro i hi
    rw [Memory.read_writeN_map_readN, if_neg (Nat.not_lt.mpr hi)]

/-! ## The demodulator -/

/-- Every entry above 2 is symbol 3 (rule R162). -/
theorem symv_of_ge {v : Byte} (h : 3 ≤ v.toNat) : symv v = .s3 := by
  unfold symv
  rw [if_neg (by omega), if_neg (by omega), if_neg (by omega)]

/-- The new previous bit is the last bit emitted (rule R163). -/
theorem demodBits_getLast? (p : Bool) (y : Sym) : (demodBits p y).getLast? = some (demodPrev p y) := by
  rcases demodBits_cases p y with h | h <;> rw [h] <;> rfl

/-- Settles O35: the rows of the table, then the two general facts. -/
theorem demodulatorTable : Obligations.DemodulatorTable := by
  unfold Obligations.DemodulatorTable
  refine ⟨rfl, rfl, rfl, rfl, rfl, rfl, fun b => ?_, demodBits_getLast?, rfl, rfl, rfl, fun _ => symv_of_ge⟩
  cases b <;> rfl

/-- PREV written is bit 1 of STATUS written (spec/10_state.md rule R30). -/
theorem putBit_prev (v : BitVec 8) (b : Bool) : putBit v (flagBit .prev) b = withFlag v 0x02 b := rfl

/-- Settles O38: one flag written, and the word of either operand. -/
theorem dinitSetsPrev : Obligations.DinitSetsPrev := by
  unfold Obligations.DinitSetsPrev
  refine ⟨fun b => ?_, fun s b => ?_⟩
  · cases b <;> rfl
  · rw [← putBit_prev]
    rfl

theorem word32_toNat_add (v : Word) (n : Nat) : word32 (v.toNat + n) = v + BitVec.ofNat 32 n := by
  rw [word32, BitVec.ofNat_add, BitVec.ofNat_toNat, BitVec.setWidth_eq]

/-- The bits of one symbol, one or two, appended to BIN at bit k. -/
theorem Memory.readBit_writeBits_demodBits (m : Memory 8) (k : Nat) (p : Bool) (y : Sym) (j : Nat) :
    (m.writeBits k (demodBits p y)).readBit j =
      if j = k then (demodBits p y).getD 0 false
      else if j = k + 1 ∧ (demodBits p y).length = 2 then (demodBits p y).getD 1 false
      else m.readBit j := by
  rcases demodBits_cases p y with h | h <;> rw [h] <;> simp only [Memory.writeBits, Memory.readBit_writeBit]
  · simp
  · by_cases hj : j = k
    · simp [hj]
    · simp [hj]

/-- Settles O39: the three cases of rule R165; where the bits fit, they are written from bit OUT_BIT on. -/
theorem dsymAppendsBits : Obligations.DsymAppendsBits := by
  unfold Obligations.DsymAppendsBits
  refine ⟨fun _ => rfl, fun s v => ⟨fun h => if_neg (State.not_dstOk h), fun h hfull => ?_, fun h hroom => ?_⟩⟩
  · exact (if_pos (State.dstOk_iff.mpr h)).trans (if_pos hfull)
  · refine ⟨s.mem.bin.writeBits s.outBit.toNat (demodBits (s.status.getLsbD 1) (symv v)), ?_,
      Memory.readBit_writeBits_demodBits _ _ _ _⟩
    rw [← word32_toNat_add, ← putBit_prev]
    exact (if_pos (State.dstOk_iff.mpr h)).trans (if_neg (Nat.not_lt.mpr hroom))

end Sys2Proof.Machine
end

section
/-! PROOF. Locating a gap (spec/41_demod.md section 3): the run of 0 symbols the search has counted decides whether the
symbol behind it ends a gap, so `GAP_LOCATE` gives the first gap end. -/

namespace Sys2Proof.Machine

/-- Directly before index i stand `zeros` 0 symbols, all from `start` on, and no more: what `GAP_LOCATE` has counted
when it reads symbol i (rule R166). -/
structure State.ZeroRun (s : State) (start i zeros : Nat) : Prop where
  inside : start + zeros ≤ i
  zero : ∀ k, i - zeros ≤ k → k < i → s.mem.sym.symAt k = .s0
  stop : start + zeros < i → s.mem.sym.symAt (i - zeros - 1) ≠ .s0

theorem State.zeroRun_start (s : State) (start : Nat) : s.ZeroRun start start 0 :=
  ⟨by omega, fun _ h1 h2 => by omega, fun h => by omega⟩

theorem State.ZeroRun.next {s : State} {start i zeros : Nat} (h : s.ZeroRun start i zeros) :
    s.ZeroRun start (i + 1) (if s.mem.sym.symAt i = .s0 then zeros + 1 else 0) := by
  obtain ⟨inside, zero, stop⟩ := h
  by_cases hi : s.mem.sym.symAt i = .s0
  · rw [if_pos hi]
    have same_begin : i + 1 - (zeros + 1) = i - zeros := by omega
    refine ⟨by omega, fun k h1 h2 => ?_, fun hlt => ?_⟩
    · rcases Nat.lt_or_eq_of_le (Nat.le_of_lt_succ h2) with hk | rfl
      · exact zero k (by omega) hk
      · exact hi
    · rw [same_begin]
      exact stop (by omega)
  · rw [if_neg hi]
    exact ⟨by omega, fun _ h1 h2 => by omega, fun _ => hi⟩

/-- Behind a counted run, a symbol ends a gap exactly if it is a 1 and the run is long enough. -/
theorem State.ZeroRun.isGapEnd_iff {s : State} {start i zeros : Nat} (h : s.ZeroRun start i zeros)
    (hi : i < s.symLen.toNat) :
    isGapEnd s start i ↔ s.mem.sym.symAt i = .s1 ∧ s.conf.minGap.toNat ≤ zeros := by
  obtain ⟨inside, zero, stop⟩ := h
  constructor
  · rintro ⟨hstart, -, hone, hzero⟩
    refine ⟨hone, Nat.le_of_not_lt fun hlt => ?_⟩
    exact stop (by omega) (hzero _ (by omega) (by omega))
  · rintro ⟨hone, hrun⟩
    exact ⟨by omega, hi, hone, fun k h1 h2 => zero k (by omega) h2⟩

/-- What a search from `start` is to give: the first gap end, or none where there is none. -/
def State.gapSearch (s : State) (start : Nat) : Option Nat → Prop
  | some e => firstGapEnd s start e
  | none => ∀ e, ¬ isGapEnd s start e

theorem gapScan_spec (s : State) (start fuel i zeros : Nat) (hfuel : fuel = s.symLen.toNat - i)
    (hrun : s.ZeroRun start i zeros) (hbefore : ∀ k, k < i → ¬ isGapEnd s start k) :
    s.gapSearch start (gapScan s.mem.sym s.conf.minGap.toNat fuel i zeros) := by
  induction fuel generalizing i zeros with
  | zero =>
    rintro e ⟨hstart, hlen, hend⟩
    exact hbefore e (by omega) ⟨hstart, hlen, hend⟩
  | succ fuel ih =>
    have end_iff := hrun.isGapEnd_iff (i := i) (by omega)
    rw [gapScan]
    by_cases hfound : s.mem.sym.symAt i = .s1 ∧ s.conf.minGap.toNat ≤ zeros
    · rw [if_pos hfound]
      exact ⟨end_iff.mpr hfound, hbefore⟩
    · rw [if_neg hfound]
      refine ih (i + 1) _ (by omega) hrun.next fun k hk => ?_
      rcases Nat.lt_or_eq_of_le (Nat.le_of_lt_succ hk) with hlt | rfl
      · exact hbefore k hlt
      · exact mt end_iff.mp hfound

theorem State.gapLocate_spec (s : State) (start : Nat) : s.gapSearch start (s.gapLocate start) :=
  gapScan_spec s start _ start 0 rfl (s.zeroRun_start start) fun k hk hend => by
    have := hend.1
    omega

theorem State.gapLocate_eq_none {s : State} {start : Nat} (h : ∀ e, ¬ isGapEnd s start e) :
    s.gapLocate start = none := by
  have spec := s.gapLocate_spec start
  cases hg : s.gapLocate start with
  | none => rfl
  | some e =>
    rw [hg] at spec
    exact absurd spec.1 (h e)

/-- There is one first gap end. -/
theorem firstGapEnd_unique {s : State} {start e f : Nat} (he : firstGapEnd s start e) (hf : firstGapEnd s start f) :
    e = f :=
  Nat.le_antisymm (Nat.le_of_not_lt fun h => he.2 f h hf.1) (Nat.le_of_not_lt fun h => hf.2 e h he.1)

theorem State.gapLocate_eq_some {s : State} {start e : Nat} (h : firstGapEnd s start e) :
    s.gapLocate start = some e := by
  have spec := s.gapLocate_spec start
  cases hg : s.gapLocate start with
  | none =>
    rw [hg] at spec
    exact absurd h.1 (spec e)
  | some f =>
    rw [hg] at spec
    rw [firstGapEnd_unique spec h]

theorem exec_gapfind_of_none {s : State} (hsym : s.symLen.toNat ≤ s.cfg.symCap)
    (hgap : s.gapLocate s.inCur.toNat = none) : exec .gapfind s = .next (s.finish .gapNotFound 0) := by
  show execGapfind s = _
  rw [execGapfind, if_pos (State.symOk_iff.mpr hsym), hgap]

theorem exec_gapfind_of_some {s : State} {e : Nat} (hsym : s.symLen.toNat ≤ s.cfg.symCap)
    (hgap : s.gapLocate s.inCur.toNat = some e) :
    exec .gapfind s = .next ({ s with gapEnd := word32 e }.finish .ok e) := by
  show execGapfind s = _
  rw [execGapfind, if_pos (State.symOk_iff.mpr hsym), hgap]

/-- Settles O40: `GAP_LOCATE` gives the first gap end, or none. -/
theorem gapfindFindsFirstGapEnd : Obligations.GapfindFindsFirstGapEnd :=
  ⟨rfl, fun _ h => if_neg (State.not_symOk h),
    fun _ h hnone => exec_gapfind_of_none h (State.gapLocate_eq_none hnone),
    fun _ _ h hfirst => exec_gapfind_of_some h (State.gapLocate_eq_some hfirst)⟩

end Sys2Proof.Machine
end

section
/-! PROOF. The bits of a block (spec/41_demod.md rule R170): the loop over symbols as one write of the bits they
demodulate to, and bits written as the bytes they make (spec/20_memory.md rule R62). -/

namespace Sys2Proof.Machine

/-! ## Bits written, bytes read -/

theorem Memory.writeBits_append (m : Memory 8) (k : Nat) (xs ys : List Bool) :
    m.writeBits k (xs ++ ys) = (m.writeBits k xs).writeBits (k + xs.length) ys := by
  induction xs generalizing m k with
  | nil => rfl
  | cons x xs ih =>
    rw [List.cons_append, Memory.writeBits, Memory.writeBits, ih, List.length_cons, Nat.add_right_comm, Nat.add_assoc]

theorem Memory.readBit_byte (m : Memory 8) (a j : Nat) (hj : j < 8) : m.readBit (8 * a + j) = (m.read a).getLsbD j := by
  unfold Memory.readBit
  rw [show (8 * a + j) / 8 = a by omega, show (8 * a + j) % 8 = j by omega]

theorem Memory.readBit_zeroN (m : Memory 8) (a n k : Nat) :
    (m.zeroN a n).readBit k = if a * 8 ≤ k ∧ k < (a + n) * 8 then false else m.readBit k := by
  unfold Memory.readBit
  rw [Memory.read_zeroN]
  by_cases h : a ≤ k / 8 ∧ k / 8 < a + n
  · rw [if_pos h, if_pos (by omega)]
    exact BitVec.getLsbD_zero
  · rw [if_neg h, if_neg (by omega)]

@[simp] theorem bitsOfBytes_length (vs : List Byte) : (bitsOfBytes vs).length = vs.length * 8 := by
  induction vs with
  | nil => rfl
  | cons v vs ih =>
    show (bitsOfByte v ++ bitsOfBytes vs).length = _
    rw [List.length_append, ih, List.length_cons, show (bitsOfByte v).length = 8 from rfl]
    omega

theorem bitsOfByte_getD (v : Byte) (j : Nat) (hj : j < 8) : (bitsOfByte v).getD j false = v.getLsbD j := by
  interval_cases j <;> rfl

/-- The bits of bytes, byte by byte. -/
theorem bitsOfBytes_getD (vs : List Byte) (d j : Nat) (hj : j < 8) :
    (bitsOfBytes vs).getD (8 * d + j) false = (vs.getD d 0).getLsbD j := by
  have len (v : Byte) : (bitsOfByte v).length = 8 := rfl
  induction vs generalizing d with
  | nil => simp [bitsOfBytes]
  | cons v vs ih =>
    show (bitsOfByte v ++ bitsOfBytes vs).getD _ _ = _
    cases d with
    | zero =>
      rw [List.getD_append _ _ _ _ (by rw [len]; omega), Nat.mul_zero, Nat.zero_add, bitsOfByte_getD _ _ hj,
        List.getD_cons_zero]
    | succ d =>
      rw [List.getD_append_right _ _ _ _ (by rw [len]; omega), len, show 8 * (d + 1) + j - 8 = 8 * d + j by omega, ih,
        List.getD_cons_succ]

/-- The bits of bytes written from a byte boundary on are the bytes written. -/
theorem Memory.read_writeBits_bitsOfBytes (m : Memory 8) (o : Nat) (vs : List Byte) (k : Nat) :
    (m.writeBits (o * 8) (bitsOfBytes vs)).read k =
      if o ≤ k ∧ k < o + vs.length then vs.getD (k - o) 0 else m.read k := by
  apply BitVec.eq_of_getLsbD_eq
  intro j hj
  rw [← Memory.readBit_byte _ _ _ hj, Memory.readBit_writeBits, bitsOfBytes_length]
  by_cases h : o ≤ k ∧ k < o + vs.length
  · rw [if_pos h, if_pos (by omega), show 8 * k + j - o * 8 = 8 * (k - o) + j by omega, bitsOfBytes_getD _ _ _ hj]
  · rw [if_neg h, if_neg (by omega), Memory.readBit_byte _ _ _ hj]

/-- Entries that read as a list of values do are read as that list. -/
theorem Memory.readN_eq_of_read {w : Nat} (m : Memory w) (a : Nat) (vs : List (BitVec w))
    (h : ∀ i, i < vs.length → m.read (a + i) = vs.getD i unwritten) : m.readN a vs.length = vs := by
  have same : m.readN a vs.length = (m.writeN a vs).readN a vs.length :=
    Memory.readN_congr _ _ _ _ fun i hi => by
      rw [h i hi, Memory.read_writeN, if_pos (by omega), Nat.add_sub_cancel_left]
  rw [same, Memory.readN_writeN]

/-! ## The bits of a block -/

section DecodeBits

variable {sym : Memory 8} {base total : Nat}

theorem symsAt_cons (m : Memory 8) (i n : Nat) : symsAt m i (n + 1) = m.symAt i :: symsAt m (i + 1) n := rfl

theorem demodAll_cons (p : Bool) (y : Sym) (ys : List Sym) :
    demodAll p (y :: ys) = demodBits p y ++ demodAll (demodPrev p y) ys := rfl

theorem decodeBits_of_le {fuel i nb : Nat} {prev : Bool} {bin : Memory 8} (h : total ≤ nb) :
    decodeBits sym base total fuel i nb prev bin = (bin, some i) := by
  cases fuel <;> exact if_neg (Nat.not_lt.mpr h)

theorem decodeBits_of_lt {fuel i nb : Nat} {prev : Bool} {bin : Memory 8} (h : nb < total) :
    decodeBits sym base total (fuel + 1) i nb prev bin =
      decodeBits sym base total fuel (i + 1) (nb + ((demodBits prev (sym.symAt i)).take (total - nb)).length)
        (demodPrev prev (sym.symAt i)) (bin.writeBits (base + nb) ((demodBits prev (sym.symAt i)).take (total - nb))) :=
  if_pos h

/-- A symbol whose bits are all wanted. -/
theorem decodeBits_of_fits {fuel i nb : Nat} {prev : Bool} {bin : Memory 8} (h : nb < total)
    (hfit : nb + (demodBits prev (sym.symAt i)).length ≤ total) :
    decodeBits sym base total (fuel + 1) i nb prev bin =
      decodeBits sym base total fuel (i + 1) (nb + (demodBits prev (sym.symAt i)).length)
        (demodPrev prev (sym.symAt i)) (bin.writeBits (base + nb) (demodBits prev (sym.symAt i))) := by
  rw [decodeBits_of_lt h, List.take_of_length_le (by omega)]

/-- Where the symbols given do not make all bits wanted, the bits they make are written (rule R170, EndOfCapture). -/
theorem decodeBits_short (fuel i nb : Nat) (prev : Bool) (bin : Memory 8)
    (h : nb + (demodAll prev (symsAt sym i fuel)).length < total) :
    decodeBits sym base total fuel i nb prev bin =
      (bin.writeBits (base + nb) (demodAll prev (symsAt sym i fuel)), none) := by
  induction fuel generalizing i nb prev bin with
  | zero => exact if_pos h
  | succ fuel ih =>
    rw [symsAt_cons, demodAll_cons, List.length_append] at h
    rw [decodeBits_of_fits (by omega) (by omega), ih _ _ _ _ (by omega), symsAt_cons, demodAll_cons,
      Memory.writeBits_append, Nat.add_assoc]

/-- Where the bits wanted are there with symbol i + m and not before, they are written, and what that symbol gives
beyond them is dropped (rule R170). -/
theorem decodeBits_complete (m fuel i nb : Nat) (prev : Bool) (bin : Memory 8) (hm : m < fuel)
    (hbefore : nb + (demodAll prev (symsAt sym i m)).length < total)
    (hreached : total ≤ nb + (demodAll prev (symsAt sym i (m + 1))).length) :
    decodeBits sym base total fuel i nb prev bin =
      (bin.writeBits (base + nb) ((demodAll prev (symsAt sym i (m + 1))).take (total - nb)), some (i + (m + 1))) := by
  induction m generalizing fuel i nb prev bin with
  | zero =>
    obtain ⟨fuel, rfl⟩ := Nat.exists_eq_add_of_lt hm
    have one_symbol : demodAll prev (symsAt sym i (0 + 1)) = demodBits prev (sym.symAt i) := List.append_nil _
    rw [one_symbol] at hreached ⊢
    rw [Nat.zero_add, decodeBits_of_lt (by omega), decodeBits_of_le (by rw [List.length_take]; omega)]
  | succ m ih =>
    obtain ⟨fuel, rfl⟩ := Nat.exists_eq_add_of_lt hm
    rw [symsAt_cons, demodAll_cons, List.length_append] at hbefore hreached
    rw [decodeBits_of_fits (by omega) (by omega), ih _ _ _ _ _ (by omega) (by omega) (by omega),
      symsAt_cons _ _ (m + 1), demodAll_cons, List.take_append, List.take_of_length_le (l := demodBits _ _) (by omega),
      Memory.writeBits_append, Nat.add_assoc base, Nat.sub_sub, show i + 1 + (m + 1) = i + (m + 1 + 1) by omega]

end DecodeBits

end Sys2Proof.Machine
end

section
/-! PROOF. DECBLK (spec/41_demod.md section 4): what the checks make of a block that stands in BIN, the four ways
through a block, and the operation's statements. -/

namespace Sys2Proof.Machine

/-! ## A block in BIN -/

/-- BIN holds the bytes of `block` from index o on and is otherwise as in m. -/
def Memory.HoldsBlock (bin m : Memory 8) (o : Nat) (block : List Byte) : Prop :=
  ∀ k, bin.read k = if o ≤ k ∧ k < o + block.length then block.getD (k - o) 0 else m.read k

section HoldsBlock

variable {bin m : Memory 8} {o n : Nat} {block : List Byte}

/-- The bits of a block written over its zeroed region. -/
theorem Memory.holdsBlock_writeBits (m : Memory 8) (o : Nat) (block : List Byte) :
    Memory.HoldsBlock ((m.zeroN o block.length).writeBits (o * 8) (bitsOfBytes block)) m o block := by
  intro k
  rw [Memory.read_writeBits_bitsOfBytes]
  by_cases h : o ≤ k ∧ k < o + block.length
  · rw [if_pos h, if_pos h]
  · rw [if_neg h, if_neg h, Memory.read_zeroN, if_neg h]

theorem Memory.HoldsBlock.read (h : Memory.HoldsBlock bin m o block) {i : Nat} (hi : i < block.length) :
    bin.read (o + i) = block.getD i 0 := by
  rw [h, if_pos (by omega), Nat.add_sub_cancel_left]

theorem Memory.HoldsBlock.readN (h : Memory.HoldsBlock bin m o block) (hlen : block.length = n + 2) :
    bin.readN o (n + 2) = block := by
  rw [← hlen]
  exact Memory.readN_eq_of_read _ _ _ fun _ => h.read

/-- The payload, without the two CRC bytes. -/
theorem Memory.HoldsBlock.readN_payload (h : Memory.HoldsBlock bin m o block) (hlen : block.length = n + 2) :
    bin.readN o n = block.take n := by
  rw [← h.readN hlen, Memory.readN_add, List.take_left' (Memory.readN_length _ _ _)]

theorem Memory.HoldsBlock.readLe16 (h : Memory.HoldsBlock bin m o block) (hlen : block.length = n + 2) :
    bin.readLe16 (o + n) = (block.getD n 0).toNat ||| ((block.getD (n + 1) 0).toNat <<< 8) := by
  unfold Memory.readLe16
  rw [Nat.add_assoc, h.read (by omega), h.read (by omega)]

/-- The block with its two CRC bytes zeroed (rule R173). -/
theorem Memory.HoldsBlock.read_zeroN (h : Memory.HoldsBlock bin m o block) (hlen : block.length = n + 2) (k : Nat) :
    (bin.zeroN (o + n) 2).read k = if o ≤ k ∧ k < o + n then block.getD (k - o) 0
      else if k = o + n ∨ k = o + n + 1 then 0 else m.read k := by
  rw [Memory.read_zeroN, h]
  by_cases hcrc : o + n ≤ k ∧ k < o + n + 2
  · rw [if_pos hcrc, if_neg (by omega), if_pos (by omega)]
    rfl
  · rw [if_neg hcrc]
    by_cases hpay : o ≤ k ∧ k < o + n
    · rw [if_pos (by omega), if_pos hpay]
    · rw [if_neg (by omega), if_neg hpay, if_neg (by omega)]

end HoldsBlock

/-! ## The checks on a decoded block -/

section CheckBlock

variable {t : Byte} {n e i : Nat} {s : State}

theorem checkBlock_of_type_ne (h : s.mem.bin.read s.outCur.toNat ≠ t) :
    checkBlock t n e i s =
      ({ s.pushDiag (diagRecord .blockTypeMismatch s.outCur.toNat
          ((t.toNat <<< 8) ||| (s.mem.bin.read s.outCur.toNat).toNat) e i) with inCur := word32 i },
        ⟨.blockTypeMismatch, (s.mem.bin.read s.outCur.toNat).toNat⟩) :=
  if_pos h

theorem checkBlock_of_residual_zero (ht : s.mem.bin.read s.outCur.toNat = t)
    (hr : crcResidual s.conf (s.mem.bin.readN s.outCur.toNat (n + 2)) = 0) :
    checkBlock t n e i s =
      ({ s.setBin (s.mem.bin.zeroN (s.outCur.toNat + n) 2) with
          inCur := word32 i, outCur := word32 (s.outCur.toNat + n) }, ⟨.ok, 0⟩) := by
  unfold checkBlock
  dsimp only
  rw [if_neg (not_not_intro ht), if_neg (not_not_intro hr), if_neg (not_not_intro hr)]

theorem checkBlock_of_residual_ne_zero (ht : s.mem.bin.read s.outCur.toNat = t)
    (hr : crcResidual s.conf (s.mem.bin.readN s.outCur.toNat (n + 2)) ≠ 0) :
    checkBlock t n e i s =
      ({ (s.pushDiag (diagRecord .badCrc s.outCur.toNat (s.mem.bin.readLe16 (s.outCur.toNat + n))
            (crcGen s.conf (s.mem.bin.readN s.outCur.toNat n)).toNat e)).setBin
              (s.mem.bin.zeroN (s.outCur.toNat + n) 2) with
          inCur := word32 i, outCur := word32 (s.outCur.toNat + n) },
        ⟨.badCrc, (crcGen s.conf (s.mem.bin.readN s.outCur.toNat n)).toNat⟩) := by
  unfold checkBlock
  dsimp only
  rw [if_neg (not_not_intro ht), if_pos hr, if_pos hr]

end CheckBlock

/-! ## The four ways through a block -/

section DecodeBlock

variable {t : Byte} {n e : Nat} {s : State}

theorem decodeBlock_of_no_gap (hgap : s.gapLocate s.inCur.toNat = none) :
    decodeBlock t n s = (s, ⟨.gapNotFound, 0⟩) := by
  rw [decodeBlock, hgap]

theorem decodeBlock_of_no_room (hgap : s.gapLocate s.inCur.toNat = some e)
    (hfull : s.dstCap.toNat < s.outCur.toNat + n + 2) :
    decodeBlock t n s =
      ({ s with gapEnd := word32 e }, ⟨.capacityExceeded, s.outCur.toNat + n + 2 - s.dstCap.toNat⟩) := by
  rw [decodeBlock, hgap]
  exact if_pos hfull

theorem decodeBlock_of_short {bin : Memory 8} (hgap : s.gapLocate s.inCur.toNat = some e)
    (hroom : s.outCur.toNat + n + 2 ≤ s.dstCap.toNat)
    (hbits : decodeBits s.mem.sym (s.outCur.toNat * 8) ((n + 2) * 8) (s.symLen.toNat - (e + 1)) (e + 1) 0 true
      (s.mem.bin.zeroN s.outCur.toNat (n + 2)) = (bin, none)) :
    decodeBlock t n s = ({ s with gapEnd := word32 e }.setBin bin, ⟨.endOfCapture, 0⟩) := by
  rw [decodeBlock, hgap]
  dsimp only
  rw [if_neg (Nat.not_lt.mpr hroom), hbits]

theorem decodeBlock_of_complete {bin : Memory 8} {i : Nat} (hgap : s.gapLocate s.inCur.toNat = some e)
    (hroom : s.outCur.toNat + n + 2 ≤ s.dstCap.toNat)
    (hbits : decodeBits s.mem.sym (s.outCur.toNat * 8) ((n + 2) * 8) (s.symLen.toNat - (e + 1)) (e + 1) 0 true
      (s.mem.bin.zeroN s.outCur.toNat (n + 2)) = (bin, some i)) :
    decodeBlock t n s = checkBlock t n e i ({ s with gapEnd := word32 e }.setBin bin) := by
  rw [decodeBlock, hgap]
  dsimp only
  rw [if_neg (Nat.not_lt.mpr hroom), hbits]

end DecodeBlock

/-! ## DECBLK -/

section Decblk

variable {s u : State} {y : Byte} {n : Word} {c : ResultCode} {info : Nat}

theorem exec_decblk_refused
    (h : n.toNat = 0 ∨ 65536 < n.toNat ∨ s.cfg.symCap < s.symLen.toNat ∨ s.cfg.binCap < s.dstCap.toNat) :
    exec (.decblk y n) s = .next s.illegal := by
  refine if_neg ?_
  rintro ⟨hlen, hsym, hdst⟩
  have len : 1 ≤ n.toNat ∧ n.toNat ≤ 65536 := of_decide_eq_true hlen
  have sym := State.symOk_iff.mp hsym
  have dst := State.dstOk_iff.mp hdst
  omega

theorem exec_decblk (h1 : 1 ≤ n.toNat) (h2 : n.toNat ≤ 65536) (hsym : s.symLen.toNat ≤ s.cfg.symCap)
    (hdst : s.dstCap.toNat ≤ s.cfg.binCap) (hdec : decodeBlock y n.toNat s = (u, ⟨c, info⟩)) :
    exec (.decblk y n) s = .next (u.scratchCrc.finish c info) := by
  have len : blockLengthOk n = true := decide_eq_true ⟨h1, h2⟩
  show execDecblk y n s = _
  rw [execDecblk, if_pos ⟨len, State.symOk_iff.mpr hsym, State.dstOk_iff.mpr hdst⟩, hdec]

end Decblk

/-- An operation that ends with CRC used as scratch answers as one that left CRC alone, but for CRC (U6). -/
theorem State.scratchCrc_finish_sameButCrc (s : State) (c : ResultCode) (n : Nat) :
    (s.scratchCrc.finish c n).sameButCrc (s.answered (codeByte c) (word32 n)) :=
  State.sameButCrc_finish s _ s.scratchCrc_sameButCrc c n

theorem word32_toNat_setWidth {w : Nat} (v : BitVec w) : word32 v.toNat = v.setWidth 32 := BitVec.ofNat_toNat 32 v

/-- Settles O41: the bounds check, the search for the gap, and the room for the block, in that order. -/
theorem decblkDecodesNothing : Obligations.DecblkDecodesNothing := by
  unfold Obligations.DecblkDecodesNothing
  refine ⟨fun _ _ => rfl, fun s y n => exec_decblk_refused, fun s y n h1 h2 hsym hdst =>
    ⟨fun hnone => ?_, fun e hfirst hfull => ?_⟩⟩
  · have dec : decodeBlock y n.toNat s = _ := decodeBlock_of_no_gap (State.gapLocate_eq_none hnone)
    exact ⟨_, exec_decblk h1 h2 hsym hdst dec, State.scratchCrc_finish_sameButCrc ..⟩
  · have dec : decodeBlock y n.toNat s = _ := decodeBlock_of_no_room (State.gapLocate_eq_some hfirst) hfull
    exact ⟨_, exec_decblk h1 h2 hsym hdst dec, State.scratchCrc_finish_sameButCrc ..⟩

/-- Settles O43: the bits the capture still gives stand over the zeroed region. -/
theorem decblkEndOfCapture : Obligations.DecblkEndOfCapture := by
  unfold Obligations.DecblkEndOfCapture
  intro s y n e h1 h2 hsym hdst hfirst hroom bits hshort o
  have written := decodeBits_short (base := o * 8) (s.symLen.toNat - (e + 1)) (e + 1) 0 true
    (s.mem.bin.zeroN o (n.toNat + 2)) (by rwa [Nat.zero_add])
  have dec : decodeBlock y n.toNat s = _ := decodeBlock_of_short (State.gapLocate_eq_some hfirst) hroom written
  refine ⟨_, _, exec_decblk h1 h2 hsym hdst dec, State.scratchCrc_finish_sameButCrc .., fun k => ?_⟩
  rw [Memory.readBit_writeBits, Memory.readBit_zeroN, Nat.add_zero, ← Nat.add_assoc]
  change (if _ ∧ k < o * 8 + bits.length then bits.getD (k - o * 8) false else _) = _
  by_cases hregion : o * 8 ≤ k ∧ k < (o + n.toNat + 2) * 8
  · rw [if_pos hregion, if_pos hregion]
    by_cases hbit : k < o * 8 + bits.length
    · rw [if_pos ⟨hregion.1, hbit⟩]
    · rw [if_neg (fun h => hbit h.2), List.getD_eq_default _ _ (by omega)]
  · rw [if_neg (by omega), if_neg hregion, if_neg hregion]

/-- The bits of a whole block, with or without one dropped bit, are found and stand in BIN. -/
theorem decodeBlock_of_block {s : State} {n e i : Nat} {block : List Byte} {extra : List Bool} (t : Byte)
    (hfirst : firstGapEnd s s.inCur.toNat e) (hroom : s.outCur.toNat + n + 2 ≤ s.dstCap.toNat)
    (hlen : block.length = n + 2) (hei : e + 1 < i) (hi : i ≤ s.symLen.toNat)
    (hbits : demodAll true (symsAt s.mem.sym (e + 1) (i - (e + 1))) = bitsOfBytes block ++ extra)
    (hbefore : (demodAll true (symsAt s.mem.sym (e + 1) (i - 1 - (e + 1)))).length < (n + 2) * 8) :
    ∃ bin : Memory 8, Memory.HoldsBlock bin s.mem.bin s.outCur.toNat block ∧
      decodeBlock t n s = checkBlock t n e i ({ s with gapEnd := word32 e }.setBin bin) := by
  have size : (bitsOfBytes block).length = (n + 2) * 8 := by rw [bitsOfBytes_length, hlen]
  have count : i - 1 - (e + 1) + 1 = i - (e + 1) := by omega
  have written := decodeBits_complete (sym := s.mem.sym) (base := s.outCur.toNat * 8) (total := (n + 2) * 8)
    (i - 1 - (e + 1)) (s.symLen.toNat - (e + 1)) (e + 1) 0 true (s.mem.bin.zeroN s.outCur.toNat (n + 2)) (by omega)
    (by omega) (by rw [count, hbits, List.length_append]; omega)
  rw [count, hbits, Nat.sub_zero, List.take_left' size, show e + 1 + (i - (e + 1)) = i by omega] at written
  exact ⟨_, hlen ▸ Memory.holdsBlock_writeBits s.mem.bin s.outCur.toNat block,
    decodeBlock_of_complete (State.gapLocate_eq_some hfirst) hroom written⟩

/-- Settles O42: the block stands in BIN, and the type and the residual decide which of the three checks' ends it is. -/
theorem decblkDecodesBlock : Obligations.DecblkDecodesBlock := by
  unfold Obligations.DecblkDecodesBlock
  intro s y n e i block extra h1 h2 hsym hdst hfirst hroom hlen hei hi hbits _ hbefore o payload stored queued
  obtain ⟨bin, holds, dec⟩ := decodeBlock_of_block y hfirst hroom hlen hei hi hbits hbefore
  have type : bin.read o = block.getD 0 0 := holds.read (i := 0) (by omega)
  have bytes : bin.readN o (n.toNat + 2) = block := holds.readN hlen
  have data : bin.readN o n.toNat = payload := holds.readN_payload hlen
  have cursor : word32 o = s.outCur := word32_toNat_self s.outCur
  refine ⟨fun hne => ?_, fun heq => ?_⟩
  · have check := dec.trans (checkBlock_of_type_ne (fun h => hne (type.symm.trans h)))
    have record : diagRecord .blockTypeMismatch o ((y.toNat <<< 8) ||| (bin.read o).toNat) e i =
        ⟨4, s.outCur, BitVec.ofNat 32 ((y.toNat <<< 8) ||| (block.getD 0 0).toNat), BitVec.ofNat 32 e,
          BitVec.ofNat 32 i⟩ := by
      rw [type, diagRecord, cursor]
      rfl
    refine ⟨_, bin, exec_decblk h1 h2 hsym hdst check, ?_, fun k => by rw [holds, hlen, Nat.add_assoc]⟩
    rw [← record, ← type, ← word32_toNat_setWidth]
    exact State.scratchCrc_finish_sameButCrc ..
  · by_cases hr : crcResidual s.conf block = 0
    · have check := dec.trans (checkBlock_of_residual_zero (type.trans heq) ((congrArg _ bytes).trans hr))
      exact ⟨_, _, exec_decblk h1 h2 hsym hdst check, holds.read_zeroN hlen,
        fun _ => State.scratchCrc_finish_sameButCrc .., fun hne => absurd hr hne⟩
    · have check := dec.trans (checkBlock_of_residual_ne_zero (type.trans heq)
        (fun h => hr ((congrArg _ bytes).symm.trans h)))
      have record : diagRecord .badCrc o (bin.readLe16 (o + n.toNat)) (crcGen s.conf (bin.readN o n.toNat)).toNat e =
          ⟨5, s.outCur, BitVec.ofNat 32 stored, (crcGen s.conf payload).setWidth 32, BitVec.ofNat 32 e⟩ := by
        rw [holds.readLe16 hlen, data, diagRecord, cursor, word32_toNat_setWidth]
        rfl
      refine ⟨_, _, exec_decblk h1 h2 hsym hdst check, holds.read_zeroN hlen, fun h => absurd h hr, fun _ => ?_⟩
      rw [← record, ← data, ← word32_toNat_setWidth]
      exact State.scratchCrc_finish_sameButCrc ..

end Sys2Proof.Machine
end

section
/-! PROOF. DECSEQ (spec/41_demod.md section 5): how one turn of its loop goes on, that its turns suffice, and that it
runs beside the host's loop of DECBLKs, turn by turn. -/

namespace Sys2Proof.Machine

/-! ## One turn of the loop -/

/-- The size field in force behind an accepted block: the one just decoded where the block is a file header (rules R174,
R175). -/
def sizeAfter (stage : Stage) (size : Nat) (s : State) : Nat :=
  if stage = .header then s.mem.bin.readLe16 (s.outCur.toNat - 16 + 13) else size

/-- NBLOCKS counts an accepted block (rule R174). -/
def State.countBlock (s : State) : State := { s with nblocks := word32 (s.nblocks.toNat + 1) }

section Turn

variable {fuel size info : Nat} {stage : Stage} {s u : State} {c : ResultCode}

theorem decodeSequence_of_accepted
    (h : decodeBlock (expectBlock size stage).1 (expectBlock size stage).2 s = (u, ⟨c, info⟩))
    (hc : c = .ok ∨ c = .badCrc) :
    decodeSequence (fuel + 1) stage size s =
      decodeSequence fuel (nextStage stage) (sizeAfter stage size u) u.countBlock := by
  rw [decodeSequence]
  dsimp only
  rw [h]
  rcases hc with rfl | rfl <;> rfl

theorem decodeSequence_of_mismatch
    (h : decodeBlock (expectBlock size stage).1 (expectBlock size stage).2 s = (u, ⟨.blockTypeMismatch, info⟩)) :
    decodeSequence (fuel + 1) stage size s = decodeSequence fuel stage size u := by
  rw [decodeSequence]
  dsimp only
  rw [h]

theorem decodeSequence_of_stopped
    (h : decodeBlock (expectBlock size stage).1 (expectBlock size stage).2 s = (u, ⟨c, info⟩))
    (hc : c = .gapNotFound ∨ c = .capacityExceeded ∨ c = .endOfCapture) :
    decodeSequence (fuel + 1) stage size s = (u, ⟨c, info⟩) := by
  rw [decodeSequence]
  dsimp only
  rw [h]
  rcases hc with rfl | rfl | rfl <;> rfl

end Turn

/-- The symbols of the capture from IN_CUR on. -/
def State.symbolsLeft (s : State) : Nat := s.symLen.toNat - s.inCur.toNat

/-- How a block ends for the loop: accepted or skipped, with fewer symbols left (rule R175), or as the last one. -/
theorem decodeBlock_outcomes (t : Byte) (n : Nat) (s : State) :
    ∃ u c info, decodeBlock t n s = (u, ⟨c, info⟩) ∧
      (((c = .ok ∨ c = .badCrc) ∨ c = .blockTypeMismatch) ∧ u.symbolsLeft < s.symbolsLeft ∨
        c = .gapNotFound ∨ c = .capacityExceeded ∨ c = .endOfCapture) := by
  obtain ⟨-, -, hlen, -⟩ := decodeBlock_same t n s
  refine ⟨(decodeBlock t n s).1, (decodeBlock t n s).2.code, (decodeBlock t n s).2.info, rfl, ?_⟩
  unfold State.symbolsLeft
  rcases decodeBlock_progress t n s with ⟨hc, hmoved, hend⟩ | ⟨hc, -⟩ <;>
    simp only [List.mem_cons, List.not_mem_nil, or_false, ← or_assoc (a := _ = ResultCode.ok)] at hc
  · exact .inl ⟨hc, by rw [hlen]; omega⟩
  · exact .inr hc

/-! ## The turns suffice -/

/-- Any two bounds that allow more turns than symbols are left give the same: each turn that goes on leaves fewer
(spec/70_reset_and_hazards.md rule R350). -/
theorem decodeSequence_fuel (fuel fuel1 : Nat) (stage : Stage) (size : Nat) (s : State)
    (h : s.symbolsLeft < fuel) (h1 : s.symbolsLeft < fuel1) :
    decodeSequence fuel stage size s = decodeSequence fuel1 stage size s := by
  induction fuel generalizing fuel1 stage size s with
  | zero => omega
  | succ fuel ih =>
    cases fuel1 with
    | zero => omega
    | succ fuel1 =>
      obtain ⟨u, c, info, dec, ⟨hc | rfl, hleft⟩ | hc⟩ :=
        decodeBlock_outcomes (expectBlock size stage).1 (expectBlock size stage).2 s
      · have fewer : u.countBlock.symbolsLeft < s.symbolsLeft := hleft
        rw [decodeSequence_of_accepted dec hc, decodeSequence_of_accepted dec hc]
        exact ih _ _ _ _ (by omega) (by omega)
      · rw [decodeSequence_of_mismatch dec, decodeSequence_of_mismatch dec]
        exact ih _ _ _ _ (by omega) (by omega)
      · rw [decodeSequence_of_stopped dec hc, decodeSequence_of_stopped dec hc]

/-- Settles O45: SYM_LEN + 1 turns are more than the symbols left, wherever IN_CUR stands. -/
theorem decseqTurnsSuffice : Obligations.DecseqTurnsSuffice := by
  unfold Obligations.DecseqTurnsSuffice
  intro s stage size extra
  have left : s.symbolsLeft ≤ s.symLen.toNat := Nat.sub_le _ _
  exact decodeSequence_fuel _ _ stage size s (by omega) (by omega)

/-! ## The block decoder beside the host -/

/-- s with what the block decoder neither reads nor writes and a row of DECBLKs leaves otherwise than DECSEQ taken
from v. -/
def State.asideFrom (s v : State) : State :=
  { s with
    crc := v.crc, freeCount := v.freeCount, result := v.result, info := v.info, response := v.response
    nblocks := v.nblocks, outLen := v.outLen }

theorem checkBlock_asideFrom (t : Byte) (n e i : Nat) (s v : State) :
    checkBlock t n e i (s.asideFrom v) = ((checkBlock t n e i s).1.asideFrom v, (checkBlock t n e i s).2) := by
  by_cases ht : s.mem.bin.read s.outCur.toNat = t
  · by_cases hr : crcResidual s.conf (s.mem.bin.readN s.outCur.toNat (n + 2)) = 0
    · rw [checkBlock_of_residual_zero (s := s.asideFrom v) ht hr, checkBlock_of_residual_zero ht hr]
      rfl
    · rw [checkBlock_of_residual_ne_zero (s := s.asideFrom v) ht hr, checkBlock_of_residual_ne_zero ht hr]
      rfl
  · rw [checkBlock_of_type_ne (s := s.asideFrom v) ht, checkBlock_of_type_ne ht]
    rfl

theorem decodeBlock_asideFrom (t : Byte) (n : Nat) (s v : State) :
    decodeBlock t n (s.asideFrom v) = ((decodeBlock t n s).1.asideFrom v, (decodeBlock t n s).2) := by
  rcases decodeBlock_cases t n s with ⟨hgap, h⟩ | ⟨e, hgap, hfull, h⟩ | ⟨e, bin, hgap, hroom, hbits, h⟩ |
    ⟨e, bin, i, hgap, hroom, hbits, -, -, h⟩ <;> rw [h]
  · exact decodeBlock_of_no_gap (s := s.asideFrom v) hgap
  · exact decodeBlock_of_no_room (s := s.asideFrom v) hgap hfull
  · exact decodeBlock_of_short (s := s.asideFrom v) hgap hroom hbits
  · rw [decodeBlock_of_complete (s := s.asideFrom v) hgap hroom hbits, ← checkBlock_asideFrom]
    rfl

/-! ## One turn of the host's loop -/

theorem Memory.readLe16_lt (m : Memory 8) (a : Nat) : m.readLe16 a < 65536 := by
  have low : (m.read a).toNat < 2 ^ 16 := lt_trans (m.read a).isLt (by decide)
  have high : (m.read (a + 1)).toNat <<< 8 < 2 ^ 16 := by
    have := (m.read (a + 1)).isLt
    rw [Nat.shiftLeft_eq]
    omega
  exact Nat.or_lt_two_pow low high

theorem sizeAfter_lt {stage : Stage} {size : Nat} (s : State) (h : size < 65536) : sizeAfter stage size s < 65536 := by
  unfold sizeAfter
  split
  · exact Memory.readLe16_lt _ _
  · exact h

/-- The lengths of the sequence are lengths DECBLK takes (spec/30_encoding.md rules R97, R112). -/
theorem expectBlock_length (stage : Stage) {size : Nat} (h : size < 65536) :
    1 ≤ (expectBlock size stage).2 ∧ (expectBlock size stage).2 ≤ 65536 := by
  cases stage <;> simp only [expectBlock] <;> omega

section HostTurn

variable {fuel size blocks info : Nat} {stage : Stage} {s u : State} {c : ResultCode}

theorem exec_decblk_expected (hsize : size < 65536) (hsym : s.symLen.toNat ≤ s.cfg.symCap)
    (hdst : s.dstCap.toNat ≤ s.cfg.binCap)
    (h : decodeBlock (expectBlock size stage).1 (expectBlock size stage).2 s = (u, ⟨c, info⟩)) :
    exec (.decblk (expectBlock size stage).1 (BitVec.ofNat 32 (expectBlock size stage).2)) s =
      .next (u.scratchCrc.finish c info) := by
  obtain ⟨h1, h2⟩ := expectBlock_length stage hsize
  have len : (BitVec.ofNat 32 (expectBlock size stage).2).toNat = (expectBlock size stage).2 :=
    word32_toNat_of_lt _ (by omega)
  exact exec_decblk (by rwa [len]) (by rwa [len]) hsym hdst (by rwa [len])

variable
  (h : exec (.decblk (expectBlock size stage).1 (BitVec.ofNat 32 (expectBlock size stage).2)) s =
    .next (u.scratchCrc.finish c info))

include h

theorem hostDecodes_of_accepted (hc : c = .ok ∨ c = .badCrc) :
    hostDecodes (fuel + 1) stage size blocks s =
      hostDecodes fuel (nextStage stage) (sizeAfter stage size u) (blocks + 1) (u.scratchCrc.finish c info) := by
  have result : codeByte c = 0 ∨ codeByte c = 5 := by rcases hc with rfl | rfl <;> decide
  rw [hostDecodes, h]
  exact if_pos result

theorem hostDecodes_of_mismatch (hc : c = .blockTypeMismatch) :
    hostDecodes (fuel + 1) stage size blocks s =
      hostDecodes fuel stage size blocks (u.scratchCrc.finish c info) := by
  have result : ¬ (codeByte c = 0 ∨ codeByte c = 5) ∧ codeByte c = 4 := by rw [hc]; decide
  rw [hostDecodes, h]
  exact (if_neg result.1).trans (if_pos result.2)

theorem hostDecodes_of_stopped (hc : c = .gapNotFound ∨ c = .capacityExceeded ∨ c = .endOfCapture) :
    hostDecodes (fuel + 1) stage size blocks s = (u.scratchCrc.finish c info, blocks) := by
  have result : ¬ (codeByte c = 0 ∨ codeByte c = 5) ∧ codeByte c ≠ 4 := by
    rcases hc with rfl | rfl | rfl <;> decide
  rw [hostDecodes, h]
  exact (if_neg result.1).trans (if_neg result.2)

end HostTurn

/-- The count of blocks as NBLOCKS holds it. -/
theorem State.countBlock_nblocks {s : State} {blocks : Nat} (h : s.nblocks = BitVec.ofNat 32 blocks) :
    s.countBlock.nblocks = BitVec.ofNat 32 (blocks + 1) := by
  show word32 (s.nblocks.toNat + 1) = _
  rw [word32_toNat_add, h, BitVec.ofNat_add]

/-- What the host's loop leaves where DECSEQ's leaves s with the ending e: s, but for what stands aside, with the ending
as the answer of the last DECBLK and the blocks counted as in NBLOCKS. -/
def HostEnds (s : State) (e : Ending) (r : State × Nat) : Prop :=
  r.1 = s.asideFrom r.1 ∧ r.1.result = codeByte e.code ∧ r.1.info = word32 e.info ∧ s.nblocks = BitVec.ofNat 32 r.2

/-- Turn by turn the host's loop does what DECSEQ's does (rule R174). -/
theorem hostDecodes_ends (fuel : Nat) (stage : Stage) (size blocks : Nat) (s v : State)
    (hsym : s.symLen.toNat ≤ s.cfg.symCap) (hdst : s.dstCap.toNat ≤ s.cfg.binCap) (hsize : size < 65536)
    (hturns : s.symbolsLeft < fuel) (hcount : s.nblocks = BitVec.ofNat 32 blocks) :
    HostEnds (decodeSequence fuel stage size s).1 (decodeSequence fuel stage size s).2
      (hostDecodes fuel stage size blocks (s.asideFrom v)) := by
  induction fuel generalizing stage size blocks s v with
  | zero => omega
  | succ fuel ih =>
    obtain ⟨u, c, info, dec, outcome⟩ := decodeBlock_outcomes (expectBlock size stage).1 (expectBlock size stage).2 s
    obtain ⟨hd, hcfg, hlen, -, -, hn⟩ := decodeBlock_same (expectBlock size stage).1 (expectBlock size stage).2 s
    rw [dec] at hd hcfg hlen hn
    dsimp only at hd hcfg hlen hn
    have hdec : decodeBlock (expectBlock size stage).1 (expectBlock size stage).2 (s.asideFrom v) =
        (u.asideFrom v, ⟨c, info⟩) := by rw [decodeBlock_asideFrom, dec]
    have hexec := exec_decblk_expected (s := s.asideFrom v) hsize hsym hdst hdec
    have sym1 : u.symLen.toNat ≤ u.cfg.symCap := by rwa [hlen, hcfg]
    have dst1 : u.dstCap.toNat ≤ u.cfg.binCap := by rwa [hd, hcfg]
    have count1 : u.nblocks = BitVec.ofNat 32 blocks := hn.trans hcount
    rcases outcome with ⟨hc | rfl, hleft⟩ | hc
    · have fewer : u.countBlock.symbolsLeft < s.symbolsLeft := hleft
      rw [decodeSequence_of_accepted dec hc, hostDecodes_of_accepted hexec hc]
      exact ih _ _ _ u.countBlock ((u.asideFrom v).scratchCrc.finish c info) sym1 dst1 (sizeAfter_lt u hsize) (by omega)
        (State.countBlock_nblocks count1)
    · rw [decodeSequence_of_mismatch dec, hostDecodes_of_mismatch hexec rfl]
      exact ih _ _ _ u ((u.asideFrom v).scratchCrc.finish _ info) sym1 dst1 hsize (by omega) count1
    · rw [decodeSequence_of_stopped dec hc, hostDecodes_of_stopped hexec hc]
      exact ⟨rfl, rfl, rfl, count1⟩

/-! ## DECSEQ -/

/-- How DECSEQ answers for the result that ended its loop (rule R176). -/
theorem sequenceEnding_answer {e : Ending}
    (h : e.code ∈ [ResultCode.gapNotFound, .capacityExceeded, .endOfCapture]) :
    codeByte (sequenceEnding e).code = (if codeByte e.code = 2 then 2 else 0) ∧
      word32 (sequenceEnding e).info =
        if codeByte e.code = 2 then word32 e.info else (codeByte e.code).setWidth 32 := by
  obtain ⟨c, info⟩ := e
  simp only [List.mem_cons, List.not_mem_nil, or_false] at h
  rcases h with rfl | rfl | rfl <;> exact ⟨rfl, rfl⟩

/-- Where DECSEQ's loop starts (rule R174). -/
def State.decseqStart (s : State) : State :=
  { s.clearDiag with inCur := 0, outCur := 0, nblocks := 0, outLen := 0 }

/-- What DECSEQ leaves where its loop leaves r (rule R176; CRC as scratch, U6). -/
def decseqResult (r : State × Ending) : State :=
  { r.1.scratchCrc with outLen := r.1.outCur }.finish (sequenceEnding r.2).code (sequenceEnding r.2).info

theorem exec_decseq {s : State} (hsym : s.symLen.toNat ≤ s.cfg.symCap) (hdst : s.dstCap.toNat ≤ s.cfg.binCap) :
    exec .decseq s = .next (decseqResult (decodeSequence (s.symLen.toNat + 1) .volume 0 s.decseqStart)) :=
  if_pos ⟨State.symOk_iff.mpr hsym, State.dstOk_iff.mpr hdst⟩

theorem exec_decseq_refused {s : State} (h : s.cfg.symCap < s.symLen.toNat ∨ s.cfg.binCap < s.dstCap.toNat) :
    exec .decseq s = .next s.illegal := by
  refine if_neg ?_
  rintro ⟨hsym, hdst⟩
  have sym := State.symOk_iff.mp hsym
  have dst := State.dstOk_iff.mp hdst
  omega

/-- Settles O44: the two loops side by side, from the same start. -/
theorem decseqIsHostLoop : Obligations.DecseqIsHostLoop := by
  unfold Obligations.DecseqIsHostLoop
  refine ⟨rfl, fun s => exec_decseq_refused, fun s hsym hdst => ?_⟩
  intro h
  have left : s.decseqStart.symbolsLeft < s.symLen.toNat + 1 := Nat.lt_succ_of_le (Nat.sub_le _ _)
  have ends : HostEnds _ _ h :=
    hostDecodes_ends (s.symLen.toNat + 1) .volume 0 0 s.decseqStart s hsym hdst (by decide) left rfl
  obtain ⟨frame, -, code⟩ := decodeSequence_keeps (s.symLen.toNat + 1) .volume 0 s.decseqStart
  refine ⟨_, exec_decseq hsym hdst, ?_⟩
  clear_value h
  generalize decodeSequence (s.symLen.toNat + 1) .volume 0 s.decseqStart = r at ends frame code
  obtain ⟨agree, result, info, count⟩ := ends
  obtain ⟨code_eq, info_eq⟩ := sequenceEnding_answer code
  refine ⟨?_, ?_⟩
  · rw [result]
    simp only [List.mem_cons, List.not_mem_nil, or_false] at code
    rcases code with hc | hc | hc <;> rw [hc] <;> decide
  · rw [decseqResult, result, info, ← code_eq, ← info_eq, ← count, agree, frame]
    rfl

end Sys2Proof.Machine
end

section
/-! PROOF. The walk of a side (spec/42_framer.md rule R201): the three ways on from an index where a file header could
start, the files of a side read in one go, and from that where the walk ends and where it fails. -/

namespace Sys2Proof.Machine

/-! ## Bytes that stand one behind another -/

section ReadsAs

variable {w : Nat} {m : Memory w} {a : Nat} {vs : List (BitVec w)}

/-- A buffer that holds a sequence of values holds each of them. -/
theorem Memory.read_of_readN_eq (h : m.readN a vs.length = vs) {i : Nat} (hi : i < vs.length) (d : BitVec w) :
    m.read (a + i) = vs.getD i d := by
  rw [← h, Memory.readN_getD, if_pos hi]

/-- Two sequences stand one behind the other exactly if each stands in its place. -/
theorem Memory.readN_eq_append {xs ys : List (BitVec w)} :
    m.readN a (xs ++ ys).length = xs ++ ys ↔
      m.readN a xs.length = xs ∧ m.readN (a + xs.length) ys.length = ys := by
  rw [List.length_append, Memory.readN_add]
  exact ⟨fun h => List.append_inj h (Memory.readN_length ..), fun ⟨hx, hy⟩ => congrArg₂ _ hx hy⟩

end ReadsAs

/-! ## One turn of the walk -/

section Turn

variable {src : Memory 8} {n i : Nat}

/-- The walk ends where no file header stands. -/
theorem walkFiles_of_end (fuel : Nat) (h : ¬ (i < n ∧ src.read i = 3)) : walkFiles src n fuel i = .ok [] := by
  cases fuel with
  | zero => rfl
  | succ fuel => exact if_neg h

theorem walkFiles_of_cut (fuel : Nat) (hi : i < n) (hread : src.read i = 3)
    (hcut : n < i + 16 ∨ n < i + 16 + (1 + src.readLe16 (i + 13))) : walkFiles src n (fuel + 1) i = .error i := by
  rw [walkFiles, if_pos ⟨hi, hread⟩]
  by_cases header : n < i + 16
  · rw [if_pos header]
  · rw [if_neg header]
    exact if_pos (hcut.resolve_left header)

theorem walkFiles_of_fits (fuel : Nat) (hread : src.read i = 3) (hfits : i + 16 + (1 + src.readLe16 (i + 13)) ≤ n) :
    walkFiles src n (fuel + 1) i = (walkFiles src n fuel (i + 16 + (1 + src.readLe16 (i + 13)))).map
      fun rest => (i, 16) :: (i + 16, 1 + src.readLe16 (i + 13)) :: rest := by
  rw [walkFiles, if_pos ⟨by omega, hread⟩, if_neg (by omega)]
  dsimp only
  rw [if_neg (by omega)]
  cases walkFiles src n fuel (i + 16 + (1 + src.readLe16 (i + 13))) <;> rfl

theorem walk_of_le (h : 0x3A ≤ n) :
    walk src n = (walkFiles src n n 0x3A).map fun files => (0, 0x38) :: (0x38, 2) :: files := by
  rw [walk, if_neg (by omega)]
  cases walkFiles src n n 0x3A <;> rfl

end Turn

/-! ## The files of a side -/

section Files

variable {src : Memory 8} {i : Nat} {f : SideFile} {fs : List SideFile}

theorem sideBytes_cons : sideBytes (f :: fs) = (f.header ++ f.data) ++ sideBytes fs := List.flatMap_cons

/-- A file takes more than its 16 header bytes, so there are fewer files than bytes. -/
theorem length_le_sideBytes_length (hok : ∀ f ∈ fs, f.ok) : fs.length ≤ (sideBytes fs).length := by
  induction fs with
  | nil => exact Nat.le_refl 0
  | cons f fs ih =>
    obtain ⟨hf, hrest⟩ := List.forall_mem_cons.mp hok
    have fewer := ih hrest
    rw [sideBytes_cons, List.length_append, List.length_append, hf.1, List.length_cons]
    omega

/-- What the walk looks at in a file that stands at index i: its type and its size field (spec/30_encoding.md rule
R97). -/
theorem SideFile.ok.read (hok : f.ok) (hstands : src.readN i f.header.length = f.header) :
    src.read i = 3 ∧ 1 + src.readLe16 (i + 13) = f.data.length := by
  obtain ⟨hlen, htype, hsize⟩ := hok
  have entry {k : Nat} (hk : k < 16) : src.read (i + k) = f.header.getD k 0 :=
    Memory.read_of_readN_eq hstands (by omega) 0
  refine ⟨(entry (k := 0) (by omega)).trans htype, ?_⟩
  rw [hsize, Memory.readLe16, Nat.add_assoc, entry (by omega), entry (by omega)]

/-- The walk passes over files that stand one behind another within the side, and lists them. -/
theorem walkFiles_of_files {n : Nat} (fuel : Nat) (hok : ∀ f ∈ fs, f.ok)
    (hstand : src.readN i (sideBytes fs).length = sideBytes fs) (hfits : i + (sideBytes fs).length ≤ n) :
    walkFiles src n (fs.length + fuel) i =
      (walkFiles src n fuel (i + (sideBytes fs).length)).map (sideBlocks i fs ++ ·) := by
  induction fs generalizing i with
  | nil =>
    show walkFiles src n (0 + fuel) i = (walkFiles src n fuel i).map fun rest => rest
    rw [Nat.zero_add]
    cases walkFiles src n fuel i <;> rfl
  | cons f fs ih =>
    obtain ⟨hf, hrest⟩ := List.forall_mem_cons.mp hok
    rw [sideBytes_cons] at hstand
    obtain ⟨hfile, hbehind⟩ := Memory.readN_eq_append.mp hstand
    obtain ⟨hread, hsize⟩ := hf.read (Memory.readN_eq_append.mp hfile).1
    have next : i + (f.header ++ f.data).length = i + 16 + f.data.length := by
      rw [List.length_append, hf.1, Nat.add_assoc]
    rw [sideBytes_cons, List.length_append, ← Nat.add_assoc, next] at hfits ⊢
    rw [next] at hbehind
    rw [List.length_cons, Nat.add_right_comm, walkFiles_of_fits _ hread (by omega), hsize,
      ih hrest hbehind hfits]
    cases walkFiles src n fuel (i + 16 + f.data.length + (sideBytes fs).length) <;> rfl

/-- The walk of a side behind files that stand in it goes on from the index behind them, with turns left. -/
theorem walk_of_files {n : Nat} (hok : ∀ f ∈ fs, f.ok)
    (hstand : src.readN 0x3A (sideBytes fs).length = sideBytes fs) (hfits : 0x3A + (sideBytes fs).length ≤ n) :
    ∃ fuel, walk src n = (walkFiles src n (fuel + 1) (0x3A + (sideBytes fs).length)).map
      fun rest => (0, 0x38) :: (0x38, 2) :: (sideBlocks 0x3A fs ++ rest) := by
  have fewer := length_le_sideBytes_length hok
  obtain ⟨fuel, hfuel⟩ : ∃ fuel, n = fs.length + (fuel + 1) := ⟨n - fs.length - 1, by omega⟩
  have files := walkFiles_of_files (fuel + 1) hok hstand hfits
  rw [← hfuel] at files
  refine ⟨fuel, ?_⟩
  rw [walk_of_le (by omega), files]
  cases walkFiles src n (fuel + 1) (0x3A + (sideBytes fs).length) <;> rfl

end Files

/-- Settles O48: behind the last file the side is at its end or holds no file header. -/
theorem walkListsFiles : Obligations.WalkListsFiles := by
  unfold Obligations.WalkListsFiles
  intro src n fs hok hstand hfits hend
  obtain ⟨fuel, walk_eq⟩ := walk_of_files hok hstand hfits
  have no_header : ¬ (0x3A + (sideBytes fs).length < n ∧ src.read (0x3A + (sideBytes fs).length) = 3) :=
    fun ⟨hlt, hread⟩ => hend.elim (Nat.ne_of_lt hlt) fun hne => hne hread
  rw [walk_eq, walkFiles_of_end _ no_header]
  exact congrArg (fun files => Except.ok ((0, 0x38) :: (0x38, 2) :: files)) (List.append_nil _)

/-- Settles O49: the turn behind the last whole file fails, and its failure is the walk's. -/
theorem walkFailsAtCutFile : Obligations.WalkFailsAtCutFile := by
  unfold Obligations.WalkFailsAtCutFile
  refine ⟨fun src n hshort => if_pos hshort, fun src n fs hok hstand => ?_⟩
  intro i hi hread hcut
  obtain ⟨fuel, walk_eq⟩ := walk_of_files hok hstand (Nat.le_of_lt hi)
  rw [walk_eq, walkFiles_of_cut fuel hi hread hcut]
  rfl

end Sys2Proof.Machine
end

section
/-! PROOF. Framing (spec/42_framer.md sections 2 and 3): the bytes of a framed block, what FRBLK can do, and the blocks
of a side framed one behind another with zeros behind them. -/

namespace Sys2Proof.Machine

/-! ## The bytes of a framed block -/

section Frame

variable (c : ConfRegs) (p : List Byte)

/-- The frame with its checked part, the payload and the stored CRC, in one piece (rule R203). -/
theorem frame_eq_append :
    frame c p = [0x80] ++ ((p ++ le16 (crcGen c p)) ++ List.replicate c.gapLen.toNat 0) := rfl

theorem frame_getD_zero : (frame c p).getD 0 0 = 0x80 := rfl

variable {p}

theorem frame_getD_payload {k : Nat} (hk : k < p.length) : (frame c p).getD (1 + k) 0 = p.getD k 0 := by
  rw [frame_eq_append, List.append_assoc p, List.getD_append_right _ _ _ _ (Nat.le_add_right 1 k), List.length_singleton,
    Nat.add_sub_cancel_left, List.getD_append _ _ _ _ hk]

/-- What stands behind the payload: the stored CRC, then the gap. -/
theorem frame_getD_behind (k : Nat) : (frame c p).getD (1 + p.length + k) 0 =
    (le16 (crcGen c p) ++ List.replicate c.gapLen.toNat 0).getD k 0 := by
  rw [frame_eq_append, List.append_assoc p, List.getD_append_right _ _ _ _ (by simp; omega),
    List.getD_append_right _ _ _ _ (by simp; omega), List.length_singleton, Nat.add_assoc, Nat.add_sub_cancel_left,
    Nat.add_sub_cancel_left]

theorem frame_getD_gap (k : Nat) : (frame c p).getD (1 + p.length + (2 + k)) 0 = 0 := by
  have len : (le16 (crcGen c p)).length = 2 := rfl
  rw [frame_getD_behind, List.getD_append_right _ _ _ _ (by omega), len, Nat.add_sub_cancel_left]
  rcases Nat.lt_or_ge k c.gapLen.toNat with hk | hk
  · exact List.getD_replicate 0 hk
  · exact List.getD_eq_default _ _ (by rwa [List.length_replicate])

end Frame

/-! ## Blocks in a buffer -/

/-- A sequence of bytes written stands in the buffer. -/
theorem Memory.holdsBlock_writeN (m : Memory 8) (o : Nat) (vs : List Byte) : Memory.HoldsBlock (m.writeN o vs) m o vs :=
  m.read_writeN o vs

/-- A second sequence written behind the first. -/
theorem Memory.HoldsBlock.append {bin bin1 m : Memory 8} {o : Nat} {xs ys : List Byte}
    (hx : Memory.HoldsBlock bin1 m o xs) (hy : Memory.HoldsBlock bin bin1 (o + xs.length) ys) :
    Memory.HoldsBlock bin m o (xs ++ ys) := by
  intro k
  rw [hy, hx, List.length_append]
  rcases Nat.lt_or_ge k (o + xs.length) with hk | hk
  · rw [if_neg (by omega)]
    by_cases hok : o ≤ k
    · rw [if_pos ⟨hok, hk⟩, if_pos (by omega), List.getD_append _ _ _ _ (by omega)]
    · rw [if_neg (by omega), if_neg (by omega)]
  · rw [if_neg (c := o ≤ k ∧ k < o + xs.length) (by omega)]
    by_cases hend : k < o + xs.length + ys.length
    · rw [if_pos ⟨hk, hend⟩, if_pos (by omega), List.getD_append_right _ _ _ _ (by omega), Nat.sub_sub]
    · rw [if_neg (by omega), if_neg (by omega)]

/-- The bytes of a list of blocks framed one behind another (rule R205). -/
def framedBytes (c : ConfRegs) (src : Memory 8) (blocks : List (Nat × Nat)) : List Byte :=
  blocks.flatMap fun b => frame c (src.readN b.1 b.2)

theorem framedBytes_cons (c : ConfRegs) (src : Memory 8) (b : Nat × Nat) (blocks : List (Nat × Nat)) :
    framedBytes c src (b :: blocks) = frame c (src.readN b.1 b.2) ++ framedBytes c src blocks := List.flatMap_cons

theorem framedBytes_length (c : ConfRegs) (src : Memory 8) (blocks : List (Nat × Nat)) :
    (framedBytes c src blocks).length = framedNeed c blocks := by
  induction blocks with
  | nil => rfl
  | cons b blocks ih =>
    rw [framedBytes_cons, List.length_append, frame_length, Memory.readN_length, ih]
    rfl

theorem frameBlocks_holdsBlock (c : ConfRegs) (src : Memory 8) (blocks : List (Nat × Nat)) (o : Nat) (bin : Memory 8) :
    Memory.HoldsBlock (frameBlocks c src blocks o bin) bin o (framedBytes c src blocks) := by
  induction blocks generalizing o bin with
  | nil => exact fun k => (if_neg fun h => absurd h.2 (Nat.not_lt.mpr h.1)).symm
  | cons b blocks ih =>
    have rest := ih (o + framedLength c b.2) (bin.writeN o (frame c (src.readN b.1 b.2)))
    rw [framedBytes_cons]
    refine (bin.holdsBlock_writeN o _).append ?_
    rwa [frame_length, Memory.readN_length]

/-! ## FRBLK -/

theorem State.srcOk_iff {s : State} : s.srcOk = true ↔ s.srcLen.toNat ≤ s.cfg.srcCap := decide_eq_true_iff

section Frblk

variable {s t : State} {a : BitVec 24} {n : Word}

/-- What FRBLK a, n asks of its operands and of the length registers (rule R204). -/
structure State.AllowsFrblk (s : State) (a : BitVec 24) (n : Word) : Prop where
  pos : 1 ≤ n.toNat
  le : n.toNat ≤ 65536
  src : s.srcLen.toNat ≤ s.cfg.srcCap
  dst : s.dstCap.toNat ≤ s.cfg.binCap
  payload : a.toNat + n.toNat ≤ s.srcLen.toNat

theorem State.allowsFrblk_iff : s.AllowsFrblk a n ↔
    blockLengthOk n = true ∧ s.srcOk = true ∧ s.dstOk = true ∧ a.toNat + n.toNat ≤ s.srcLen.toNat := by
  rw [State.srcOk_iff, State.dstOk_iff, blockLengthOk, decide_eq_true_iff]
  exact ⟨fun ⟨pos, le, src, dst, payload⟩ => ⟨⟨pos, le⟩, src, dst, payload⟩,
    fun ⟨⟨pos, le⟩, src, dst, payload⟩ => ⟨pos, le, src, dst, payload⟩⟩

/-- The payload of FRBLK a, n. -/
def State.frblkPayload (s : State) (a : BitVec 24) (n : Word) : List Byte := s.mem.src.readN a.toNat n.toNat

/-- What FRBLK a, n leaves of s where the framed block has room. -/
def State.afterFrblk (s : State) (a : BitVec 24) (n : Word) : State :=
  { (s.setBin (s.mem.bin.writeN s.outCur.toNat (frame s.conf (s.frblkPayload a n)))).scratchCrc with
    outCur := word32 (s.outCur.toNat + framedLength s.conf n.toNat) }.finish .ok 0

theorem exec_frblk_of_not_allowed (h : ¬ s.AllowsFrblk a n) : exec (.frblk a n) s = .next s.illegal :=
  if_neg (mt State.allowsFrblk_iff.mpr h)

theorem exec_frblk_of_no_room (h : s.AllowsFrblk a n)
    (hfull : s.dstCap.toNat < s.outCur.toNat + framedLength s.conf n.toNat) :
    exec (.frblk a n) s = .next (s.scratchCrc.finish .capacityExceeded
      (s.outCur.toNat + framedLength s.conf n.toNat - s.dstCap.toNat)) :=
  (if_pos (State.allowsFrblk_iff.mp h)).trans (if_pos hfull)

theorem exec_frblk_of_room (h : s.AllowsFrblk a n)
    (hroom : s.outCur.toNat + framedLength s.conf n.toNat ≤ s.dstCap.toNat) :
    exec (.frblk a n) s = .next (s.afterFrblk a n) :=
  (if_pos (State.allowsFrblk_iff.mp h)).trans (if_neg (Nat.not_lt.mpr hroom))

/-- FRBLK ends with OK only where it framed the block. -/
theorem frblk_framed_of_ok (h : exec (.frblk a n) s = .next t) (hok : t.result = 0) :
    s.AllowsFrblk a n ∧ s.outCur.toNat + framedLength s.conf n.toNat ≤ s.dstCap.toNat ∧ t = s.afterFrblk a n := by
  by_cases allowed : s.AllowsFrblk a n
  · rcases Nat.lt_or_ge s.dstCap.toNat (s.outCur.toNat + framedLength s.conf n.toNat) with hfull | hroom
    · rw [exec_frblk_of_no_room allowed hfull] at h
      cases h
      exact absurd hok (by decide : (2 : BitVec 8) ≠ 0)
    · rw [exec_frblk_of_room allowed hroom] at h
      cases h
      exact ⟨allowed, hroom, rfl⟩
  · rw [exec_frblk_of_not_allowed allowed] at h
    cases h
    exact absurd hok (by decide : (8 : BitVec 8) ≠ 0)

end Frblk

/-- Settles O46: the refusals, the shortfall, and the bytes of the frame where it is written. -/
theorem frblkFramesBlock : Obligations.FrblkFramesBlock := by
  unfold Obligations.FrblkFramesBlock
  refine ⟨fun _ _ => rfl, fun s a n h => exec_frblk_of_not_allowed ?_, fun s a n h1 h2 hsrc hdst hpay => ?_⟩
  · rintro ⟨pos, le, src, dst, payload⟩
    omega
  · intro o len crc
    have allowed : s.AllowsFrblk a n := ⟨h1, h2, hsrc, hdst, hpay⟩
    have plen : (s.frblkPayload a n).length = n.toNat := Memory.readN_length ..
    have flen : (frame s.conf (s.frblkPayload a n)).length = len := by rw [frame_length, plen]; rfl
    have holds := s.mem.bin.holdsBlock_writeN o (frame s.conf (s.frblkPayload a n))
    refine ⟨fun hfull => ⟨_, exec_frblk_of_no_room allowed hfull, State.scratchCrc_finish_sameButCrc ..⟩, fun hroom =>
      ⟨_, _, exec_frblk_of_room allowed hroom, rfl, ?marker, fun k hk => ?payload, ?low, ?high, fun k hlow hhigh => ?gap,
        fun k hout => ?frame⟩⟩
    case marker => exact holds.read (i := 0) (by omega)
    case payload =>
      rw [Nat.add_assoc, holds.read (by omega), frame_getD_payload _ (by omega), State.frblkPayload, Memory.readN_getD,
        if_pos hk]
    case low =>
      rw [Nat.add_assoc, holds.read (by omega), ← plen]
      exact frame_getD_behind _ 0
    case high =>
      rw [show o + 2 + n.toNat = o + (1 + n.toNat + 1) by omega, holds.read (by omega), ← plen]
      exact frame_getD_behind _ 1
    case gap =>
      obtain ⟨j, rfl⟩ := Nat.exists_eq_add_of_le hlow
      rw [show o + 3 + n.toNat + j = o + (1 + n.toNat + (2 + j)) by omega, holds.read (by omega), ← plen]
      exact frame_getD_gap _ j
    case frame => rw [holds, flen, if_neg (by omega)]

/-- Settles O47: behind the marker stand the payload and the CRC generated from it: the round trip of rule R136. -/
theorem framedBlockChecksGood : Obligations.FramedBlockChecksGood := by
  unfold Obligations.FramedBlockChecksGood
  intro s t a n h hok haddr
  obtain ⟨allowed, hroom, rfl⟩ := frblk_framed_of_ok h hok
  obtain ⟨-, hle, -, hdst, -⟩ := allowed
  have chk_a : (BitVec.ofNat 24 (s.outCur.toNat + 1)).toNat = s.outCur.toNat + 1 := by simp; omega
  have chk_n : (n + 2).toNat = n.toNat + 2 := by bv_omega
  have checked : (s.frblkPayload a n ++ le16 (crcGen s.conf (s.frblkPayload a n))).length = n.toNat + 2 := by
    rw [List.length_append, State.frblkPayload, Memory.readN_length]
    rfl
  have written := s.mem.bin.readN_writeN s.outCur.toNat (frame s.conf (s.frblkPayload a n))
  rw [frame_eq_append] at written
  have good := (Memory.readN_eq_append.mp (Memory.readN_eq_append.mp written).2).1
  rw [checked, List.length_singleton, ← frame_eq_append] at good
  refine ⟨_, exec_crcchk_of_residual_zero ?room ?residual, rfl, rfl⟩
  case room =>
    rw [framedLength] at hroom
    show _ ≤ s.cfg.binCap
    rw [chk_a, chk_n]
    omega
  case residual =>
    rw [chk_a, chk_n]
    exact (congrArg _ good).trans (crcResidual_append_crcGen ..)

/-! ## FRSIDE -/

section Frside

variable {s : State}

/-- BIN as a successful FRSIDE leaves it: the framed blocks, and zeros behind them up to DST_CAP (rules R205, R206). -/
def State.framedSide (s : State) (blocks : List (Nat × Nat)) : Memory 8 :=
  (frameBlocks s.conf s.mem.src blocks 0 s.mem.bin).zeroN (framedNeed s.conf blocks)
    (s.dstCap.toNat - framedNeed s.conf blocks)

theorem State.framedSide_read {blocks : List (Nat × Nat)} (hroom : framedNeed s.conf blocks ≤ s.dstCap.toNat) (k : Nat) :
    (s.framedSide blocks).read k =
      if k < framedNeed s.conf blocks then (framedBytes s.conf s.mem.src blocks).getD k 0
      else if k < s.dstCap.toNat then 0 else s.mem.bin.read k := by
  have framed := frameBlocks_holdsBlock s.conf s.mem.src blocks 0 s.mem.bin k
  rw [framedBytes_length, Nat.zero_add, Nat.sub_zero] at framed
  rw [State.framedSide, Memory.read_zeroN, Nat.add_sub_cancel' hroom, framed]
  rcases Nat.lt_or_ge k (framedNeed s.conf blocks) with hk | hk
  · rw [if_neg (by omega), if_pos ⟨Nat.zero_le k, hk⟩, if_pos hk]
  · rw [if_neg (c := 0 ≤ k ∧ _) (by omega), if_neg (c := k < framedNeed s.conf blocks) (by omega)]
    by_cases hcap : k < s.dstCap.toNat
    · rw [if_pos ⟨hk, hcap⟩, if_pos hcap]
      rfl
    · rw [if_neg (by omega), if_neg hcap]

theorem exec_frside_refused (h : s.cfg.srcCap < s.srcLen.toNat ∨ s.cfg.binCap < s.dstCap.toNat) :
    exec .frside s = .next s.illegal := by
  refine if_neg ?_
  rintro ⟨hsrc, hdst⟩
  have src := State.srcOk_iff.mp hsrc
  have dst := State.dstOk_iff.mp hdst
  omega

variable (hsrc : s.srcLen.toNat ≤ s.cfg.srcCap) (hdst : s.dstCap.toNat ≤ s.cfg.binCap)

include hsrc hdst

theorem exec_frside_of_error {f : Nat} (hwalk : walk s.mem.src s.srcLen.toNat = .error f) :
    exec .frside s = .next (s.scratchCrc.finish .formatError f) := by
  show execFrside s = _
  rw [execFrside, if_pos ⟨State.srcOk_iff.mpr hsrc, State.dstOk_iff.mpr hdst⟩, hwalk]

variable {blocks : List (Nat × Nat)} (hwalk : walk s.mem.src s.srcLen.toNat = .ok blocks)

include hwalk

theorem exec_frside_of_no_room (hfull : s.dstCap.toNat < framedNeed s.conf blocks) :
    exec .frside s =
      .next (s.scratchCrc.finish .capacityExceeded (framedNeed s.conf blocks - s.dstCap.toNat)) := by
  show execFrside s = _
  rw [execFrside, if_pos ⟨State.srcOk_iff.mpr hsrc, State.dstOk_iff.mpr hdst⟩, hwalk]
  exact if_pos hfull

theorem exec_frside_of_room (hroom : framedNeed s.conf blocks ≤ s.dstCap.toNat) :
    exec .frside s = .next ({ (s.setBin (s.framedSide blocks)).scratchCrc with
      outCur := word32 (framedNeed s.conf blocks), outLen := word32 (framedNeed s.conf blocks)
      nblocks := word32 blocks.length }.finish .ok (framedNeed s.conf blocks)) := by
  show execFrside s = _
  rw [execFrside, if_pos ⟨State.srcOk_iff.mpr hsrc, State.dstOk_iff.mpr hdst⟩, hwalk]
  exact if_neg (Nat.not_lt.mpr hroom)

end Frside

/-- Settles O50: by how the walk ends and whether the framed side has room. -/
theorem frsideFramesSide : Obligations.FrsideFramesSide := by
  unfold Obligations.FrsideFramesSide
  refine ⟨rfl, fun s => exec_frside_refused, fun s hsrc hdst =>
    ⟨fun f hwalk => ⟨_, exec_frside_of_error hsrc hdst hwalk, State.scratchCrc_finish_sameButCrc ..⟩,
      fun blocks hwalk => ⟨fun hfull => ?_, fun hroom => ?_⟩⟩⟩
  · exact ⟨_, exec_frside_of_no_room hsrc hdst hwalk hfull, State.scratchCrc_finish_sameButCrc ..⟩
  · exact ⟨_, _, exec_frside_of_room hsrc hdst hwalk hroom, rfl, State.framedSide_read hroom⟩

end Sys2Proof.Machine
end

section
/-! PROOF. Passes that mark a stated set of symbols (spec/43_recon_marking.md rules R231, R232, R250): a scan that
writes its markers lowest index first, and how an operation that ends with such a scan answers. Then RP4. -/

namespace Sys2Proof.Machine

/-! ## Markers written one behind another -/

/-- A pass that has written `before` markers and finds `sym` leaves r: markers at exactly the `marked` indices, every
other entry as it was, and the markers counted. -/
def MarksExactly (marked : Nat → Prop) (sym : Memory 8) (before : Nat) (r : Memory 8 × Nat) : Prop :=
  ∃ marks : List Nat, marks.Pairwise (· < ·) ∧ (∀ a, a ∈ marks ↔ marked a) ∧ r.2 = before + marks.length ∧
    ∀ k, (marked k → r.1.read k = 3) ∧ (¬ marked k → r.1.read k = sym.read k)

section MarksExactly

variable {marked later : Nat → Prop} {sym : Memory 8} {before a : Nat} {r : Memory 8 × Nat}

theorem MarksExactly.nothing (h : ∀ a, ¬ marked a) : MarksExactly marked sym before (sym, before) :=
  ⟨[], .nil, fun a => by simp [h a], rfl, fun k => ⟨fun hk => absurd hk (h k), fun _ => rfl⟩⟩

/-- One marker written before a scan that writes all its markers behind it. -/
theorem MarksExactly.mark (h : MarksExactly later (sym.mark a) (before + 1) r)
    (hmarked : ∀ b, marked b ↔ b = a ∨ later b) (hlater : ∀ b, later b → a < b) :
    MarksExactly marked sym before r := by
  obtain ⟨marks, sorted, mem, count, read⟩ := h
  refine ⟨a :: marks, List.pairwise_cons.mpr ⟨fun b hb => hlater b ((mem b).mp hb), sorted⟩,
    fun b => by rw [List.mem_cons, mem, hmarked], by rw [count, List.length_cons]; omega,
    fun k => ⟨fun hk => ?_, fun hk => ?_⟩⟩
  · by_cases hl : later k
    · exact (read k).1 hl
    · have hka : k = a := ((hmarked k).mp hk).resolve_right hl
      rw [(read k).2 hl, Memory.read_mark, if_pos hka]
  · obtain ⟨hka, hl⟩ := not_or.mp (mt (hmarked k).mpr hk)
    rw [(read k).2 hl, Memory.read_mark, if_neg hka]

theorem MarksExactly.congr (h : MarksExactly later sym before r) (hiff : ∀ a, marked a ↔ later a) :
    MarksExactly marked sym before r := by
  obtain rfl : marked = later := funext fun a => propext (hiff a)
  exact h

/-- What an operation answers that ends with such a pass over SYM. -/
theorem MarksExactly.answered {s : State} {i : Instr} (h : MarksExactly marked s.mem.sym 0 r)
    (hexec : exec i s = .next ((s.setSym r.1).finish .ok r.2)) :
    ∃ (sym : Memory 8) (marks : List Nat), marks.Pairwise (· < ·) ∧ (∀ a, a ∈ marks ↔ marked a) ∧
      exec i s = .next ({ s with mem := { s.mem with sym := sym } }.answered 0 (BitVec.ofNat 32 marks.length)) ∧
      ∀ k, (marked k → sym.read k = 3) ∧ (¬ marked k → sym.read k = s.mem.sym.read k) := by
  obtain ⟨marks, sorted, mem, count, read⟩ := h
  refine ⟨r.1, marks, sorted, mem, ?_, read⟩
  rw [hexec, count, Nat.zero_add]
  rfl

end MarksExactly

/-- A marker written before index i leaves the symbols from i on. -/
theorem Memory.symAt_mark_of_lt (m : Memory 8) {a k : Nat} (h : a < k) : (m.mark a).symAt k = m.symAt k := by
  rw [Memory.symAt_mark, if_neg (by omega)]

/-! ## RP4 -/

/-- Symbol i is a marker directly behind a run of more than LONG_GAP 0 symbols, whose first one is a (rule R250). -/
structure State.LongGapEnds (s : State) (a i : Nat) : Prop where
  first : a = 0 ∨ s.mem.sym.symAt (a - 1) ≠ .s0
  long : a + s.conf.longGap.toNat < i
  marker : s.mem.sym.symAt i = .s3
  zero : ∀ k, a ≤ k → k < i → s.mem.sym.symAt k = .s0

theorem State.ZeroRun.longGapEnds_iff {s : State} {i zeros : Nat} (h : s.ZeroRun 0 i zeros) (a : Nat) :
    s.LongGapEnds a i ↔ a = i - zeros ∧ s.mem.sym.symAt i = .s3 ∧ s.conf.longGap.toNat < zeros := by
  obtain ⟨inside, zero, stop⟩ := h
  constructor
  · rintro ⟨first, long, marker, run⟩
    have not_before : ¬ a < i - zeros := fun hlt => stop (by omega) (run _ (by omega) (by omega))
    have not_behind : ¬ i - zeros < a := fun hlt => by
      rcases first with rfl | hne
      · omega
      · exact hne (zero _ (by omega) (by omega))
    exact ⟨by omega, marker, by omega⟩
  · rintro ⟨rfl, marker, long⟩
    refine ⟨?_, by omega, marker, zero⟩
    rcases Nat.eq_zero_or_pos (i - zeros) with hzero | hpos
    · exact .inl hzero
    · exact .inr (stop (by omega))

/-- Pass 4 from symbol i on marks the long gaps that end there or later. -/
theorem pass4Scan_marksExactly (s : State) (fuel i zeros marks : Nat) (sym : Memory 8)
    (hfuel : i + fuel = s.symLen.toNat) (hrun : s.ZeroRun 0 i zeros)
    (hsame : ∀ k, i ≤ k → sym.symAt k = s.mem.sym.symAt k) :
    MarksExactly (fun a => ∃ j, i ≤ j ∧ j < s.symLen.toNat ∧ s.LongGapEnds a j) sym marks
      (pass4Scan s.conf fuel i (i - zeros) marks sym) := by
  induction fuel generalizing i zeros marks sym with
  | zero => exact .nothing fun a ⟨j, h1, h2, _⟩ => by omega
  | succ fuel ih =>
    have ends_here := hrun.longGapEnds_iff
    have here_or_later (a : Nat) : (∃ j, i ≤ j ∧ j < s.symLen.toNat ∧ s.LongGapEnds a j) ↔
        s.LongGapEnds a i ∨ ∃ j, i + 1 ≤ j ∧ j < s.symLen.toNat ∧ s.LongGapEnds a j := by
      constructor
      · rintro ⟨j, h1, h2, h⟩
        rcases Nat.eq_or_lt_of_le h1 with rfl | hlt
        · exact .inl h
        · exact .inr ⟨j, hlt, h2, h⟩
      · rintro (h | ⟨j, h1, h2, h⟩)
        · exact ⟨i, le_refl i, by omega, h⟩
        · exact ⟨j, by omega, h2, h⟩
    have run_begin : (if s.mem.sym.symAt i = .s0 then i - zeros else i + 1) =
        i + 1 - (if s.mem.sym.symAt i = .s0 then zeros + 1 else 0) := by split <;> omega
    have run_length : i - (i - zeros) = zeros := by have := hrun.inside; omega
    rw [pass4Scan, hsame i (le_refl i)]
    rw [run_begin, run_length]
    by_cases hgap : s.mem.sym.symAt i = .s3 ∧ s.conf.longGap.toNat < zeros
    · rw [if_pos hgap]
      refine (ih (i + 1) _ (marks + 1) (sym.mark (i - zeros)) (by omega) hrun.next fun k hk => ?_).mark
        (fun a => ?_) ?_
      · rw [Memory.symAt_mark_of_lt _ (by omega), hsame k (by omega)]
      · rw [here_or_later, ends_here]
        simp only [hgap, and_true]
      · rintro b ⟨j, hj, -, later⟩
        by_contra hle
        have zero_here := later.zero i (by omega) hj
        rw [hgap.1] at zero_here
        cases zero_here
    · rw [if_neg hgap]
      refine (ih (i + 1) _ marks sym (by omega) hrun.next fun k hk => hsame k (by omega)).congr fun a => ?_
      rw [here_or_later, ends_here]
      simp only [hgap, and_false, false_or]

theorem pass4_marksExactly (s : State) :
    MarksExactly (fun a => ∃ i, i < s.symLen.toNat ∧ s.LongGapEnds a i) s.mem.sym 0
      (pass4Scan s.conf s.symLen.toNat 0 0 0 s.mem.sym) :=
  (pass4Scan_marksExactly s _ 0 0 0 _ (Nat.zero_add _) (s.zeroRun_start 0) fun _ _ => rfl).congr fun a => by simp

/-- Settles O55: a long gap ends at the marker at which pass 4 writes its start's. -/
theorem rp4MarksLongGapStart : Obligations.Rp4MarksLongGapStart := by
  unfold Obligations.Rp4MarksLongGapStart
  refine ⟨rfl, fun s h => if_neg (State.not_symOk h), fun s h => ?_⟩
  refine ((pass4_marksExactly s).congr fun a => ?_).answered (if_pos (State.symOk_iff.mpr h))
  constructor
  · rintro ⟨first, i, long, inside, marker, zero⟩
    exact ⟨i, inside, first, long, marker, zero⟩
  · rintro ⟨i, inside, first, long, marker, zero⟩
    exact ⟨first, i, long, inside, marker, zero⟩

end Sys2Proof.Machine
end

section
/-! PROOF. RP1 (spec/43_recon_marking.md rule R232): while the search is armed no run has become long since its glitch,
so the first one that does is the run behind that glitch; disarmed, no run behind an earlier glitch is still to come. -/

namespace Sys2Proof.Machine

/-- A run of more than SHORT_GAP 0 symbols stands from index b on. -/
def State.longRunAt (s : State) (b : Nat) : Prop :=
  b + s.conf.shortGap.toNat < s.symLen.toNat ∧
    ∀ k, b ≤ k → k ≤ b + s.conf.shortGap.toNat → s.mem.sym.symAt k = .s0

/-- The first long run behind the glitch g, with no other glitch between, starts at a. -/
structure State.RunBehind (s : State) (g a : Nat) : Prop where
  behind : g < a
  glitch : s.mem.sym.symAt g = .s3
  clear : ∀ k, g < k → k < a → s.mem.sym.symAt k ≠ .s3
  run : s.longRunAt a
  first : ∀ b, g < b → b < a → ¬ s.longRunAt b

/-- What pass 1 knows of its search when it reads symbol i. -/
def State.searchAt (s : State) (i : Nat) : Option Nat → Prop
  | some g => g < i ∧ s.mem.sym.symAt g = .s3 ∧ (∀ k, g < k → k < i → s.mem.sym.symAt k ≠ .s3) ∧
      ∀ b, g < b → b + s.conf.shortGap.toNat < i → ¬ s.longRunAt b
  | none => ∀ g a, g < i → s.RunBehind g a → a + s.conf.shortGap.toNat < i

/-- With symbol i no search finds a run: it is disarmed, or the run it counts does not just become long. -/
def State.quietAt (s : State) (i : Nat) (search : Option Nat) (zeros : Nat) : Prop :=
  search = none ∨ zeros ≠ s.conf.shortGap.toNat ∨ s.mem.sym.symAt i ≠ .s0

section Search

variable {s : State} {g h a i zeros : Nat}

theorem State.longRunAt.not_glitch (hrun : s.longRunAt a) {k : Nat} (h1 : a ≤ k)
    (h2 : k ≤ a + s.conf.shortGap.toNat) : s.mem.sym.symAt k ≠ .s3 := by
  rw [hrun.2 k h1 h2]
  decide

/-- An armed search whose run becomes long with symbol i has found the run behind its glitch. -/
theorem State.searchAt.found (hsearch : s.searchAt i (some g)) (hzeros : s.ZeroRun 0 i s.conf.shortGap.toNat)
    (hi : i < s.symLen.toNat) (hzero : s.mem.sym.symAt i = .s0) : s.RunBehind g (i - s.conf.shortGap.toNat) := by
  obtain ⟨before, glitch, clear, first⟩ := hsearch
  obtain ⟨inside, zero, -⟩ := hzeros
  have run : s.longRunAt (i - s.conf.shortGap.toNat) := by
    refine ⟨by omega, fun k h1 h2 => ?_⟩
    rcases Nat.lt_or_ge k i with hk | hk
    · exact zero k h1 hk
    · obtain rfl : k = i := by omega
      exact hzero
  have behind : g < i - s.conf.shortGap.toNat := by
    by_contra hle
    exact run.not_glitch (by omega) (by omega) glitch
  exact ⟨behind, glitch, fun k h1 h2 => clear k h1 (by omega), run, fun b h1 h2 => first b h1 (by omega)⟩

/-- An armed search knows the glitch of every run still to become long behind a glitch it has passed. -/
theorem State.searchAt.glitch_eq (hsearch : s.searchAt i (some g)) (hrun : s.RunBehind h a) (hh : h < i)
    (ha : i ≤ a + s.conf.shortGap.toNat) : h = g := by
  obtain ⟨before, glitch, clear, -⟩ := hsearch
  have behind : g < a := by
    by_contra hle
    exact hrun.run.not_glitch (by omega) (by omega) glitch
  rcases Nat.lt_trichotomy h g with hlt | heq | hgt
  · exact absurd glitch (hrun.clear g hlt behind)
  · exact heq
  · exact absurd hrun.glitch (clear h hgt hh)

/-- A run behind a glitch that becomes long with symbol i is the one the search finds there. -/
theorem State.searchAt.run_ends {search : Option Nat} (hsearch : s.searchAt i search) (hzeros : s.ZeroRun 0 i zeros)
    (hrun : s.RunBehind h a) (ha : a + s.conf.shortGap.toNat = i) :
    search = some h ∧ zeros = s.conf.shortGap.toNat ∧ s.mem.sym.symAt i = .s0 := by
  have behind := hrun.behind
  cases search with
  | none =>
    have := hsearch h a (by omega) hrun
    omega
  | some g =>
    obtain rfl : h = g := hsearch.glitch_eq hrun (by omega) (by omega)
    obtain ⟨-, glitch, -, first⟩ := hsearch
    obtain ⟨inside, zero, stop⟩ := hzeros
    refine ⟨rfl, ?_, hrun.run.2 i (by omega) (by omega)⟩
    rcases Nat.lt_trichotomy zeros s.conf.shortGap.toNat with hlt | heq | hgt
    · exact absurd (hrun.run.2 _ (by omega) (by omega)) (stop (by omega))
    · exact heq
    · have glitch_before : h < i - zeros := by
        by_contra hle
        have := zero h (by omega) (by omega)
        rw [glitch] at this
        cases this
      have run_before : s.longRunAt (a - 1) :=
        ⟨by have := hrun.run.1; omega, fun k h1 h2 => zero k (by omega) (by omega)⟩
      exact absurd run_before (first _ (by omega) (by omega))

/-- A glitch arms the search. -/
theorem State.searchAt.armed (hglitch : s.mem.sym.symAt i = .s3) : s.searchAt (i + 1) (some i) :=
  ⟨by omega, hglitch, fun k h1 h2 => by omega, fun b h1 h2 => by omega⟩

/-- The search goes on past a symbol that is no glitch and with which it finds no run. -/
theorem State.searchAt.next {search : Option Nat} (hsearch : s.searchAt i search) (hzeros : s.ZeroRun 0 i zeros)
    (hglitch : s.mem.sym.symAt i ≠ .s3) (hquiet : s.quietAt i search zeros) : s.searchAt (i + 1) search := by
  cases search with
  | none =>
    intro h a hh hrun
    rcases Nat.eq_or_lt_of_le (Nat.le_of_lt_succ hh) with rfl | hlt
    · exact absurd hrun.glitch hglitch
    · have := hsearch h a hlt hrun
      omega
  | some g =>
    have ⟨before, glitch, clear, first⟩ := hsearch
    refine ⟨by omega, glitch, fun k h1 h2 => ?_, fun b h1 h2 hrun => ?_⟩
    · rcases Nat.eq_or_lt_of_le (Nat.le_of_lt_succ h2) with rfl | hlt
      · exact hglitch
      · exact clear k h1 hlt
    · rcases Nat.eq_or_lt_of_le (Nat.le_of_lt_succ h2) with heq | hlt
      · have behind : s.RunBehind g b := ⟨h1, glitch, fun k hk1 hk2 => clear k hk1 (by omega), hrun,
          fun c hc1 hc2 => first c hc1 (by omega)⟩
        obtain ⟨-, hlong, hzero⟩ := hsearch.run_ends hzeros behind heq
        rcases hquiet with h | h | h
        · cases h
        · exact h hlong
        · exact h hzero
      · exact first b h1 hlt hrun

/-- The search is disarmed where its run has become long. -/
theorem State.searchAt.disarmed (hsearch : s.searchAt i (some g)) (hglitch : s.mem.sym.symAt i ≠ .s3)
    (hfound : s.RunBehind g (i - s.conf.shortGap.toNat)) (hi : s.conf.shortGap.toNat ≤ i) :
    s.searchAt (i + 1) none := by
  intro h a hh hrun
  by_contra hlate
  rcases Nat.eq_or_lt_of_le (Nat.le_of_lt_succ hh) with rfl | hlt
  · exact hglitch hrun.glitch
  · obtain rfl : h = g := hsearch.glitch_eq hrun hlt (by omega)
    exact hrun.first _ hfound.behind (by omega) hfound.run

end Search

/-- Pass 1 marks the start of a run behind a glitch that starts within the window. -/
def State.markedByPass1 (s : State) (a : Nat) : Prop :=
  ∃ g, s.RunBehind g a ∧ a - g ≤ s.conf.glitchWindow.toNat

/-- What pass 1 has still to mark when it reads symbol i: the runs that become long there or later. -/
def State.leftToPass1 (s : State) (i a : Nat) : Prop := s.markedByPass1 a ∧ i ≤ a + s.conf.shortGap.toNat

section Pass1

variable {s : State} {i zeros marks : Nat} {search : Option Nat} {sym : Memory 8} {r : Memory 8 × Nat}

/-- Where no run to be marked becomes long with symbol i, all are left to the symbols behind it. -/
theorem MarksExactly.pass1_skip (h : MarksExactly (s.leftToPass1 (i + 1)) sym marks r)
    (hnone : ∀ a, s.markedByPass1 a → a + s.conf.shortGap.toNat ≠ i) :
    MarksExactly (s.leftToPass1 i) sym marks r :=
  h.congr fun a => and_congr_right fun hmarked => by
    have := hnone a hmarked
    omega

theorem State.searchAt.not_marked_of_quiet (hsearch : s.searchAt i search) (hzeros : s.ZeroRun 0 i zeros)
    (hquiet : s.quietAt i search zeros) : ∀ a, s.markedByPass1 a → a + s.conf.shortGap.toNat ≠ i := by
  rintro a ⟨g, hrun, -⟩ ha
  obtain ⟨harmed, hlong, hzero⟩ := hsearch.run_ends hzeros hrun ha
  rcases hquiet with h | h | h
  · rw [harmed] at h
    cases h
  · exact h hlong
  · exact h hzero

theorem State.searchAt.not_marked_of_far {g : Nat} (hsearch : s.searchAt i (some g)) (hzeros : s.ZeroRun 0 i zeros)
    (hfar : s.conf.glitchWindow.toNat < i - s.conf.shortGap.toNat - g) :
    ∀ a, s.markedByPass1 a → a + s.conf.shortGap.toNat ≠ i := by
  rintro a ⟨h, hrun, hnear⟩ ha
  obtain ⟨hg, -⟩ := hsearch.run_ends hzeros hrun ha
  obtain rfl : g = h := by simpa using hg
  omega

end Pass1

/-- Pass 1 from symbol i on writes the markers left to it. -/
theorem pass1Scan_marksExactly (s : State) (fuel i : Nat) (search : Option Nat) (zeros marks : Nat) (sym : Memory 8)
    (hfuel : i + fuel = s.symLen.toNat) (hsearch : s.searchAt i search) (hzeros : s.ZeroRun 0 i zeros)
    (hsame : ∀ k, i ≤ k → sym.symAt k = s.mem.sym.symAt k) :
    MarksExactly (s.leftToPass1 i) sym marks (pass1Scan s.conf fuel i search zeros marks sym) := by
  induction fuel generalizing i search zeros marks sym with
  | zero =>
    refine .nothing ?_
    rintro a ⟨⟨g, hrun, -⟩, ha⟩
    have := hrun.run.1
    omega
  | succ fuel ih =>
    have hnext := hzeros.next
    have hsame1 : ∀ k, i + 1 ≤ k → sym.symAt k = s.mem.sym.symAt k := fun k hk => hsame k (by omega)
    have goes_on {zeros1 : Nat} (hnext : s.ZeroRun 0 (i + 1) zeros1) (hglitch : s.mem.sym.symAt i ≠ .s3)
        (hquiet : s.quietAt i search zeros) :
        MarksExactly (s.leftToPass1 i) sym marks (pass1Scan s.conf fuel (i + 1) search zeros1 marks sym) :=
      (ih _ _ _ _ _ (by omega) (hsearch.next hzeros hglitch hquiet) hnext hsame1).pass1_skip
        (hsearch.not_marked_of_quiet hzeros hquiet)
    rw [pass1Scan.eq_def]
    dsimp only
    rw [hsame i (le_refl i)]
    cases hs : s.mem.sym.symAt i with
    | s3 =>
      rw [if_neg (by rw [hs]; decide)] at hnext
      have hquiet : s.quietAt i search zeros := .inr (.inr (by rw [hs]; decide))
      exact (ih _ _ _ _ _ (by omega) (.armed hs) hnext hsame1).pass1_skip (hsearch.not_marked_of_quiet hzeros hquiet)
    | s1 =>
      rw [if_neg (by rw [hs]; decide)] at hnext
      exact goes_on hnext (by rw [hs]; decide) (.inr (.inr (by rw [hs]; decide)))
    | s2 =>
      rw [if_neg (by rw [hs]; decide)] at hnext
      exact goes_on hnext (by rw [hs]; decide) (.inr (.inr (by rw [hs]; decide)))
    | s0 =>
      rw [if_pos hs] at hnext
      have no_glitch : s.mem.sym.symAt i ≠ .s3 := by rw [hs]; decide
      cases search with
      | none => exact goes_on hnext no_glitch (.inl rfl)
      | some g =>
        dsimp only
        by_cases hlong : zeros = s.conf.shortGap.toNat
        · have hinside := hzeros.inside
          have hfound := hsearch.found (hlong ▸ hzeros) (by omega) hs
          have hdisarmed := hsearch.disarmed no_glitch hfound (by omega)
          rw [if_pos (by omega)]
          by_cases hwindow : i - s.conf.shortGap.toNat - g ≤ s.conf.glitchWindow.toNat
          · rw [if_pos hwindow]
            refine (ih _ _ _ _ _ (by omega) hdisarmed hnext fun k hk => ?_).mark (fun a => ?_) fun a ha => ?_
            · rw [Memory.symAt_mark_of_lt _ (by omega), hsame1 k hk]
            · constructor
              · rintro ⟨hmarked, ha⟩
                by_cases heq : a = i - s.conf.shortGap.toNat
                · exact .inl heq
                · exact .inr ⟨hmarked, by omega⟩
              · rintro (rfl | ⟨hmarked, ha⟩)
                · exact ⟨⟨g, hfound, hwindow⟩, by omega⟩
                · exact ⟨hmarked, by omega⟩
            · have := ha.2
              omega
          · rw [if_neg hwindow]
            exact (ih _ _ _ _ _ (by omega) hdisarmed hnext hsame1).pass1_skip
              (hsearch.not_marked_of_far hzeros (by omega))
        · rw [if_neg (by omega)]
          exact goes_on hnext no_glitch (.inr (.inl hlong))

theorem pass1_marksExactly (s : State) :
    MarksExactly s.markedByPass1 s.mem.sym 0 (pass1Scan s.conf s.symLen.toNat 0 none 0 0 s.mem.sym) := by
  have start : s.searchAt 0 none := fun _ _ h => absurd h (Nat.not_lt_zero _)
  exact (pass1Scan_marksExactly s _ 0 none 0 0 _ (Nat.zero_add _) start (s.zeroRun_start 0) fun _ _ => rfl).congr
    fun a => by simp [State.leftToPass1]

/-- Settles O51: pass 1 marks exactly the starts of the runs behind a glitch, within the window. -/
theorem rp1MarksGapAfterGlitch : Obligations.Rp1MarksGapAfterGlitch := by
  unfold Obligations.Rp1MarksGapAfterGlitch
  refine ⟨rfl, fun s h => if_neg (State.not_symOk h), fun s h => ?_⟩
  refine ((pass1_marksExactly s).congr fun a => ?_).answered (if_pos (State.symOk_iff.mpr h))
  constructor
  · rintro ⟨run, g, behind, window, glitch, clear, first⟩
    exact ⟨g, ⟨behind, glitch, clear, run, first⟩, window⟩
  · rintro ⟨g, ⟨behind, glitch, clear, run, first⟩, window⟩
    exact ⟨run, g, behind, window, glitch, clear, first⟩

end Sys2Proof.Machine
end

section
/-! PROOF. RP2 (spec/43_recon_marking.md section 3): SIG by its bits, and the search for the least index where it
stands. -/

namespace Sys2Proof.Machine

/-- Settles O37: both sides are closed lists of 43 bits. -/
theorem signatureDemodulates : Obligations.SignatureDemodulates := by
  unfold Obligations.SignatureDemodulates
  exact ⟨rfl, rfl⟩

theorem matchesAt_iff (sym : Memory 8) (p : Nat) (pattern : List Sym) :
    matchesAt sym p pattern = true ↔ ∀ k, k < pattern.length → sym.symAt (p + k) = pattern.getD k .s3 := by
  induction pattern generalizing p with
  | nil => simp [matchesAt]
  | cons y ys ih =>
    rw [matchesAt, Bool.and_eq_true, beq_iff_eq, ih]
    constructor
    · rintro ⟨head, tail⟩ k hk
      cases k with
      | zero => exact head
      | succ k =>
        rw [List.getD_cons_succ, ← tail k (Nat.lt_of_succ_lt_succ hk), show p + (k + 1) = p + 1 + k by omega]
    · intro h
      refine ⟨h 0 (Nat.succ_pos _), fun k hk => ?_⟩
      have := h (k + 1) (Nat.succ_lt_succ hk)
      rwa [List.getD_cons_succ, show p + (k + 1) = p + 1 + k by omega] at this

/-- The search gives the least index where the signature stands (rule R237). -/
theorem findSignature_eq_some (sym : Memory 8) (fuel p q : Nat) (h1 : p ≤ q) (h2 : q < p + fuel)
    (hq : matchesAt sym q signature = true) (hleast : ∀ r, r < q → ¬ matchesAt sym r signature = true) :
    findSignature sym fuel p = some q := by
  induction fuel generalizing p with
  | zero => omega
  | succ fuel ih =>
    rw [findSignature]
    rcases Nat.eq_or_lt_of_le h1 with rfl | hlt
    · rw [if_pos hq]
    · rw [if_neg (hleast p hlt)]
      exact ih (p + 1) hlt (by omega)

/-- The signature stands at index p, wholly inside the first SIG_LIMIT symbols (rule R237). -/
structure State.SignatureAt (s : State) (p : Nat) : Prop where
  inside : p + 32 ≤ s.symLen.toNat
  limit : p + 32 ≤ s.conf.sigLimit.toNat
  symbols : ∀ k, k < 32 → s.mem.sym.symAt (p + k) = signature.getD k .s3

section Pass2

variable {s : State} {p : Nat}

theorem State.signatureAt_iff : s.SignatureAt p ↔
    p + 32 ≤ s.symLen.toNat ∧ p + 32 ≤ s.conf.sigLimit.toNat ∧ matchesAt s.mem.sym p signature = true := by
  rw [matchesAt_iff]
  exact ⟨fun ⟨inside, limit, symbols⟩ => ⟨inside, limit, symbols⟩, fun ⟨inside, limit, symbols⟩ =>
    ⟨inside, limit, symbols⟩⟩

theorem pass2_of_none (hnone : ∀ p, ¬ s.SignatureAt p) :
    pass2 s = ({ s.setFlag .sigf false with sigPos := 0 }, 0) := by
  rcases pass2_cases s with h | ⟨p, -, inside, limit, symbols, -⟩
  · exact h
  · exact absurd (State.signatureAt_iff.mpr ⟨inside, limit, symbols⟩) (hnone p)

theorem pass2_of_first (hp : s.SignatureAt p) (hfirst : ∀ q, q < p → ¬ s.SignatureAt q) :
    pass2 s = ({ (s.setSym (if 1 ≤ p then s.mem.sym.mark (p - 1) else s.mem.sym)).setFlag .sigf true with
      sigPos := word32 p }, p) := by
  obtain ⟨inside, limit, symbols⟩ := State.signatureAt_iff.mp hp
  have found : findSignature s.mem.sym (min s.symLen.toNat s.conf.sigLimit.toNat - 31) 0 = some p :=
    findSignature_eq_some _ _ _ _ (Nat.zero_le p) (by omega) symbols fun q hq hm =>
      hfirst q hq (State.signatureAt_iff.mpr ⟨by omega, by omega, hm⟩)
  unfold pass2
  dsimp only
  rw [found]

theorem exec_rp2 (h : s.symLen.toNat ≤ s.cfg.symCap) : exec .rp2 s = .next ((pass2 s).1.finish .ok (pass2 s).2) :=
  if_pos (State.symOk_iff.mpr h)

end Pass2

/-- Settles O52: the search of pass 2 finds the least index where the signature stands, or none. -/
theorem rp2FindsSignature : Obligations.Rp2FindsSignature := by
  unfold Obligations.Rp2FindsSignature
  refine ⟨rfl, fun s h => if_neg (State.not_symOk h), fun s h => ⟨fun hnone => ?_, fun p hp hfirst => ?_⟩⟩
  · rw [exec_rp2 h, pass2_of_none fun p ⟨inside, limit, symbols⟩ => hnone p ⟨inside, limit, symbols⟩]
    rfl
  · obtain ⟨inside, limit, symbols⟩ := hp
    have first : ∀ q, q < p → ¬ s.SignatureAt q := fun q hq ⟨inside, limit, symbols⟩ =>
      hfirst q hq ⟨inside, limit, symbols⟩
    refine ⟨if 1 ≤ p then s.mem.sym.mark (p - 1) else s.mem.sym, ?_, fun k => ?_⟩
    · rw [exec_rp2 h, pass2_of_first ⟨inside, limit, symbols⟩ first]
      rfl
    · by_cases hp : 1 ≤ p
      · rw [if_pos hp, Memory.read_mark]
        exact if_congr (by omega) rfl rfl
      · rw [if_neg hp, if_neg (by omega)]

end Sys2Proof.Machine
end

section
/-! PROOF. RP3 (spec/43_recon_marking.md section 4): each case of a turn is the only one there is, a turn and the
rest of the loop are the operation started again at the next gap end, and a good block before a gap to the end of the
capture takes one turn. -/

namespace Sys2Proof.Machine

/-! ## The operation -/

section Rp3

variable {s : State}

theorem exec_rp3 (h : s.symLen.toNat ≤ s.cfg.symCap) : exec .rp3 s = .next ((pass3 s).1.finish .ok (pass3 s).2) :=
  if_pos (State.symOk_iff.mpr h)

/-- SYM and the number of markers RP3 leaves where SIGF is set: the loop from the gap-end symbol SIG_POS. -/
def State.rp3Marks (s : State) : Memory 8 × Nat :=
  pass3Loop s.conf s.symLen.toNat (s.symLen.toNat + 1) (some s.sigPos.toNat) 0 s.mem.sym

theorem exec_rp3_of_sigf (h : s.symLen.toNat ≤ s.cfg.symCap) (hsig : s.status.getLsbD 2 = true) :
    exec .rp3 s = .next ((s.setSym s.rp3Marks.1).scratchCrc.finish .ok s.rp3Marks.2) := by
  have hpass : pass3 s = ((s.setSym s.rp3Marks.1).scratchCrc, s.rp3Marks.2) := if_pos hsig
  rw [exec_rp3 h, hpass]

end Rp3

/-- Settles O53: pass 3 only marks, and nothing without SIGF. -/
theorem rp3OnlyMarks : Obligations.Rp3OnlyMarks := by
  unfold Obligations.Rp3OnlyMarks
  refine ⟨rfl, fun s h => if_neg (State.not_symOk h), fun s h hsig => ?_, fun s h _ => ?_⟩
  · obtain ⟨sym, hstate, -, unmarked⟩ := pass3_marks s
    obtain ⟨rfl, hcount⟩ := unmarked hsig
    refine ⟨_, exec_rp3 h, ?_⟩
    rw [hstate, hcount]
    exact State.scratchCrc_finish_sameButCrc ..
  · obtain ⟨sym, hstate, hmarks, -⟩ := pass3_marks s
    refine ⟨_, sym, word32 (pass3 s).2, exec_rp3 h, ?_, hmarks.read⟩
    rw [hstate]
    exact State.scratchCrc_finish_sameButCrc ..

/-! ## The cases of a turn -/

section Turn

variable {s : State} {e i : Nat} {next : Option Nat}

/-- A block ends with a symbol's last bit or with the bit before it, not with both: the two boundaries are one bit
apart. -/
theorem State.blockEndsIn_unique {a b : Bool} (ha : s.blockEndsIn e i a) (hb : s.blockEndsIn e i b) : a = b := by
  have not_both : ¬ (s.blockEndsIn e i false ∧ s.blockEndsIn e i true) := by
    rw [s.blockEndsIn_last_iff, s.blockEndsIn_inside_iff]
    rintro ⟨⟨scans, whole, -⟩, -, two, whole_before, -⟩
    rw [s.bitsTo_succ e i scans.1, two, List.length_append, List.length_cons, List.length_singleton] at whole
    omega
  cases a <;> cases b
  · rfl
  · exact absurd ⟨ha, hb⟩ not_both
  · exact absurd ⟨hb, ha⟩ not_both
  · rfl

/-- There is one first block end. -/
theorem State.firstBlockEnd_unique {j : Nat} {a b : Bool} (ha : s.firstBlockEnd e i a) (hb : s.firstBlockEnd e j b) :
    i = j ∧ a = b := by
  obtain rfl : i = j :=
    Nat.le_antisymm (Nat.le_of_not_lt fun h => ha.2 j h b hb.1) (Nat.le_of_not_lt fun h => hb.2 i h a ha.1)
  exact ⟨rfl, s.blockEndsIn_unique ha.1 hb.1⟩

/-- The last run of zero bits begins at one symbol. -/
theorem State.zeroRunStart_unique {c y z : Nat} (hy : s.zeroRunStart e c y) (hz : s.zeroRunStart e c z) : y = z := by
  rcases hy with ⟨y_before, y_zero, y_first, y_last⟩ | ⟨rfl, none⟩
  · rcases hz with ⟨z_before, z_zero, z_first, z_last⟩ | ⟨-, none⟩
    · rcases Nat.lt_trichotomy y z with hlt | heq | hgt
      · exact absurd (y_last z hlt z_before z_zero) z_first
      · exact heq
      · exact absurd (z_last y hgt y_before y_zero) y_first
    · exact absurd y_zero (none y y_before)
  · rcases hz with ⟨z_before, z_zero, -⟩ | ⟨rfl, -⟩
    · exact absurd z_zero (none z z_before)
    · rfl

/-- A turn in which a block ends (rule R244): m is the symbol to be marked. -/
theorem pass3Turn_of_blockEnd {inside : Bool} {m : Nat} (hm : m = if inside then i else i + 1)
    (hend : s.firstBlockEnd e i inside) (hnext : s.nextGapEnd (m + 1) next) :
    pass3Turn s.conf s.symLen.toNat e s.mem.sym = ⟨if m < s.symLen.toNat then s.mem.sym.mark m else s.mem.sym,
      if m < s.symLen.toNat then 1 else 0, next⟩ := by
  generalize ht : pass3Turn s.conf s.symLen.toNat e s.mem.sym = t
  rcases pass3Turn_cases s e t ht with ⟨j, b, hend1, hnext1, hsym, hmarks⟩ | ⟨none, -⟩
  · obtain ⟨rfl, rfl⟩ := State.firstBlockEnd_unique hend hend1
    rw [← hm] at hnext1 hsym hmarks
    rw [s.nextGapEnd_unique _ _ _ hnext hnext1, ← hsym, ← hmarks]
  · exact absurd hend.1 (none i inside)

/-- A turn that crosses a gap (rule R245). -/
theorem pass3Turn_of_candidate {c z : Nat} (hnone : ∀ i b, ¬ s.blockEndsIn e i b) (hcand : s.gapCandidate e c)
    (hfirst : ∀ k, k < c → ¬ s.gapCandidate e k) (hz : s.zeroRunStart e c z) :
    pass3Turn s.conf s.symLen.toNat e s.mem.sym = ⟨s.mem.sym.mark z, 1, some c⟩ := by
  rcases pass3Turn_cases s e _ rfl with ⟨i, b, hend, -⟩ | ⟨-, ⟨d, y, ⟨hcand1, hfirst1, hy⟩, ht⟩ | ⟨no_cand, -⟩⟩
  · exact absurd hend.1 (hnone i b)
  · obtain rfl : c = d :=
      Nat.le_antisymm (Nat.le_of_not_lt fun h => hfirst d h hcand1) (Nat.le_of_not_lt fun h => hfirst1 c h hcand)
    rw [ht, State.zeroRunStart_unique hz hy]
  · exact absurd hcand (no_cand c)

/-- A turn that meets a marker (rule R247). -/
theorem pass3Turn_of_marker (hnone : ∀ i b, ¬ s.blockEndsIn e i b) (no_cand : ∀ c, ¬ s.gapCandidate e c) (hei : e < i)
    (hin : i < s.symLen.toNat) (hi : s.mem.sym.symAt i = .s3) (hclean : ∀ k, e < k → k < i → s.mem.sym.symAt k ≠ .s3)
    (hnext : s.nextGapEnd (i + 1) next) :
    pass3Turn s.conf s.symLen.toNat e s.mem.sym = ⟨s.mem.sym, 0, next⟩ := by
  generalize ht : pass3Turn s.conf s.symLen.toNat e s.mem.sym = t
  rcases pass3Turn_cases s e t ht with ⟨j, b, hend, -⟩ | ⟨-, ⟨c, z, hcand, -⟩ |
    ⟨-, ⟨j, hej, -, hj, hclean1, hnext1, hsym, hmarks⟩ | ⟨no_marker, -⟩⟩⟩
  · exact absurd hend.1 (hnone j b)
  · exact absurd hcand.1 (no_cand c)
  · obtain rfl : i = j :=
      Nat.le_antisymm (Nat.le_of_not_lt fun h => hclean j hej h hj) (Nat.le_of_not_lt fun h => hclean1 i hei h hi)
    rw [s.nextGapEnd_unique _ _ _ hnext hnext1, ← hsym, ← hmarks]
  · exact absurd hi (no_marker i hei hin)

/-- A turn that reaches the end of the capture (rule R247). -/
theorem pass3Turn_of_capture (hnone : ∀ i b, ¬ s.blockEndsIn e i b) (no_cand : ∀ c, ¬ s.gapCandidate e c)
    (hclean : ∀ k, e < k → k < s.symLen.toNat → s.mem.sym.symAt k ≠ .s3) :
    pass3Turn s.conf s.symLen.toNat e s.mem.sym = ⟨s.mem.sym, 0, none⟩ := by
  rcases pass3Turn_cases s e _ rfl with ⟨j, b, hend, -⟩ | ⟨-, ⟨c, z, hcand, -⟩ | ⟨-, ⟨j, hej, hin, hj, -⟩ | ⟨-, ht⟩⟩⟩
  · exact absurd hend.1 (hnone j b)
  · exact absurd hcand.1 (no_cand c)
  · exact absurd hj (hclean j hej hin)
  · exact ht

end Turn

/-! ## One turn and the rest -/

/-- RP3 leaves SYM as `sym` with `marks` markers counted and goes on from `next` as it would started there. -/
def State.rp3GoesOn (s : State) (sym : Memory 8) (marks : Word) (next : Option Nat) : Prop :=
  ∃ t, exec .rp3 s = .next t ∧
    t.sameButCrc ({ s with mem := { s.mem with sym := t.mem.sym } }.answered 0 t.info) ∧
    (next = none → t.mem.sym = sym ∧ t.info = marks) ∧
    ∀ e1, next = some e1 → ∃ u,
      exec .rp3 { s with mem := { s.mem with sym := sym }, sigPos := BitVec.ofNat 32 e1 } = .next u ∧
      t.mem.sym = u.mem.sym ∧ t.info = u.info + marks

theorem pass3Loop_none (c : ConfRegs) (n fuel marks : Nat) (sym : Memory 8) :
    pass3Loop c n fuel none marks sym = (sym, marks) := by
  cases fuel <;> rfl

section GoesOn

variable {s : State} {sym : Memory 8} {marks : Nat} {next : Option Nat}

/-- The operation from its first turn on. -/
theorem State.rp3Marks_of_turn
    (hturn : pass3Turn s.conf s.symLen.toNat s.sigPos.toNat s.mem.sym = ⟨sym, marks, next⟩) :
    s.rp3Marks = pass3Loop s.conf s.symLen.toNat s.symLen.toNat next marks sym := by
  rw [State.rp3Marks, pass3Loop, hturn, Nat.zero_add]

/-- The turns behind the first are RP3 started at the next gap end: turns enough are left for it (rule R240). -/
theorem State.rp3Marks_of_next {e1 : Nat}
    (hturn : pass3Turn s.conf s.symLen.toNat s.sigPos.toNat s.mem.sym = ⟨sym, marks, some e1⟩) :
    s.rp3Marks = (({ s.setSym sym with sigPos := BitVec.ofNat 32 e1 } : State).rp3Marks.1,
      ({ s.setSym sym with sigPos := BitVec.ofNat 32 e1 } : State).rp3Marks.2 + marks) := by
  obtain ⟨hlater, hinside⟩ := pass3Turn_next s s.sigPos.toNat e1 (by rw [hturn])
  have hpos : (BitVec.ofNat 32 e1).toNat = e1 := word32_toNat_of_lt e1 (lt_trans hinside s.symLen.isLt)
  rw [State.rp3Marks_of_turn hturn,
    pass3Loop_fuel s s.symLen.toNat (s.symLen.toNat + 1) (some e1) marks sym fun x hx => ?_]
  · rw [State.rp3Marks]
    dsimp only
    rw [hpos]
    rfl
  · obtain rfl : e1 = x := by simpa using hx
    omega

theorem State.rp3GoesOn_of_turn (h : s.symLen.toNat ≤ s.cfg.symCap) (hsig : s.status.getLsbD 2 = true)
    (hturn : pass3Turn s.conf s.symLen.toNat s.sigPos.toNat s.mem.sym = ⟨sym, marks, next⟩) :
    s.rp3GoesOn sym (word32 marks) next := by
  refine ⟨_, exec_rp3_of_sigf h hsig, rfl, ?_, ?_⟩
  · rintro rfl
    rw [State.rp3Marks_of_turn hturn, pass3Loop_none]
    exact ⟨rfl, rfl⟩
  · rintro e1 rfl
    refine ⟨_, exec_rp3_of_sigf (s := { s.setSym sym with sigPos := BitVec.ofNat 32 e1 }) h hsig, ?_⟩
    rw [State.rp3Marks_of_next hturn]
    exact ⟨rfl, BitVec.ofNat_add ..⟩

end GoesOn

/-! ## A good block -/

theorem mem_symsAt {m : Memory 8} {a n : Nat} {y : Sym} :
    y ∈ symsAt m a n ↔ ∃ k, a ≤ k ∧ k < a + n ∧ m.symAt k = y := by
  induction n with
  | zero => simp only [symsAt, Memory.readN, List.map_nil, List.not_mem_nil, false_iff]; omega
  | succ n ih =>
    rw [symsAt_succ, List.mem_append, List.mem_singleton, ih]
    constructor
    · rintro (⟨k, h1, h2, h⟩ | h)
      · exact ⟨k, h1, by omega, h⟩
      · exact ⟨a + n, by omega, by omega, h.symm⟩
    · rintro ⟨k, h1, h2, h⟩
      rcases Nat.eq_or_lt_of_le (Nat.le_of_lt_succ h2) with rfl | hlt
      · exact .inr h.symm
      · exact .inl ⟨k, h1, hlt, h⟩

section GoodBlock

variable {s : State} {e m : Nat}

theorem State.bitsTo_add (s : State) (e m : Nat) :
    s.bitsTo e (e + 1 + m) = demodAll true (symsAt s.mem.sym (e + 1) m) := by
  rw [State.bitsTo, Nat.add_sub_cancel_left]

theorem State.prevAt_add (s : State) (e m : Nat) :
    s.prevAt e (e + 1 + m) = demodEnd true (symsAt s.mem.sym (e + 1) m) := by
  rw [State.prevAt, Nat.add_sub_cancel_left]

/-- A scan that goes on only shifts more bits in, at least one for each symbol. -/
theorem State.bitsTo_extends (s : State) {k : Nat} (hk : e < k) (d : Nat) :
    ∃ rest, s.bitsTo e (k + d) = s.bitsTo e k ++ rest ∧ d ≤ rest.length := by
  induction d with
  | zero => exact ⟨[], (List.append_nil _).symm, Nat.zero_le _⟩
  | succ d ih =>
    obtain ⟨rest, hrest, hlen⟩ := ih
    have one := demodBits_length_pos (s.prevAt e (k + d)) (s.mem.sym.symAt (k + d))
    refine ⟨rest ++ demodBits (s.prevAt e (k + d)) (s.mem.sym.symAt (k + d)), ?_, ?_⟩
    · rw [← Nat.add_assoc, s.bitsTo_succ e _ (by omega), hrest, List.append_assoc]
    · rw [List.length_append]
      omega

/-- A block end is a byte boundary of the bits shifted in, at three bytes or more, where the CRC is 0 (rule R241). -/
theorem State.blockEndsIn.boundary {k : Nat} {b : Bool} (h : s.blockEndsIn e k b) :
    e < k ∧ ∃ j, j ≤ (s.bitsTo e (k + 1)).length ∧ 24 ≤ j ∧ j % 8 = 0 ∧
      crcBits (crcStart s.conf) ((s.bitsTo e (k + 1)).take j) = 0 := by
  obtain ⟨scans, -, whole, long, crc, -⟩ := h
  rw [← Nat.add_sub_add_right k 1 e] at whole long crc
  exact ⟨scans.1, _, Nat.sub_le _ _, long, whole, crc⟩

/-- Behind the gap-end symbol e stand the m symbols of a good block, and behind them a gap up to the end of the capture;
no byte boundary before the block's end passes for one. -/
structure State.GoodBlock (s : State) (e m : Nat) : Prop where
  inside : e + 1 + m < s.symLen.toNat
  clean : ∀ k, e < k → k < e + 1 + m → s.mem.sym.symAt k ≠ .s3
  whole : (s.bitsTo e (e + 1 + m)).length % 8 = 0
  long : 24 ≤ (s.bitsTo e (e + 1 + m)).length
  crc : crcBits (crcStart s.conf) (s.bitsTo e (e + 1 + m)) = 0
  noEarlier : ∀ j, j < (s.bitsTo e (e + 1 + m)).length → 24 ≤ j → j % 8 = 0 →
    crcBits (crcStart s.conf) ((s.bitsTo e (e + 1 + m)).take j) ≠ 0
  gap : ∀ k, e + 1 + m ≤ k → k < s.symLen.toNat → s.mem.sym.symAt k =
    if k = e + 1 + m ∧ s.prevAt e (e + 1 + m) = true then .s1 else .s0

theorem State.GoodBlock.symAt_behind (h : s.GoodBlock e m) {k : Nat} (h1 : e + 1 + m < k) (h2 : k < s.symLen.toNat) :
    s.mem.sym.symAt k = .s0 := by
  rw [h.gap k (by omega) h2, if_neg (by omega)]

theorem State.GoodBlock.looksLikeGap (h : s.GoodBlock e m) :
    s.looksLikeGap (e + 1 + m) (s.prevAt e (e + 1 + m)) := by
  cases hp : s.prevAt e (e + 1 + m) with
  | true => exact .inr ⟨(h.gap _ (le_refl _) h.inside).trans (if_pos ⟨rfl, hp⟩), fun k h1 h2 _ =>
      h.symAt_behind (by omega) h2⟩
  | false => exact fun k h1 h2 _ => (h.gap k h1 h2).trans (if_neg fun hk => by rw [hp] at hk; cases hk.2)

/-- The block ends with its last symbol, and nothing before it passes for a block end. -/
theorem State.GoodBlock.firstBlockEnd (h : s.GoodBlock e m) : s.firstBlockEnd e (e + m) false := by
  have behind : e + m + 1 = e + 1 + m := by omega
  have some_symbol : 0 < m := by
    have long := h.long
    by_contra hm
    rw [show e + 1 + m = e + 1 by omega, s.bitsTo_start] at long
    simp at long
  have hinside := h.inside
  refine ⟨(s.blockEndsIn_last_iff e (e + m)).mpr ?_, fun k hk b hb => ?_⟩
  · rw [behind]
    exact ⟨⟨by omega, by omega, fun k h1 h2 => h.clean k h1 (by omega)⟩, h.whole, h.long, h.crc, h.looksLikeGap⟩
  · obtain ⟨hek, j, hj, long, whole, crc⟩ := hb.boundary
    obtain ⟨rest, hrest, hlen⟩ := s.bitsTo_extends (k := k + 1) (e := e) (by omega) (e + m - k)
    rw [show k + 1 + (e + m - k) = e + 1 + m by omega] at hrest
    refine h.noEarlier j ?_ long whole ?_
    · rw [hrest, List.length_append]
      omega
    · rwa [hrest, List.take_append_of_le_length hj]

/-- Only 0 symbols stand behind the first symbol of the gap. -/
theorem State.GoodBlock.nextGapEnd (h : s.GoodBlock e m) : s.nextGapEnd (e + m + 1 + 1) none := by
  rintro k ⟨hk, one, a, h1, h2, -⟩
  rw [h.symAt_behind (by omega) hk] at one
  cases one

/-- One turn marks the first symbol of the gap. -/
theorem State.GoodBlock.turn (h : s.GoodBlock e m) :
    pass3Turn s.conf s.symLen.toNat e s.mem.sym = ⟨s.mem.sym.mark (e + 1 + m), 1, none⟩ := by
  have behind : e + m + 1 = e + 1 + m := by omega
  rw [pass3Turn_of_blockEnd rfl h.firstBlockEnd h.nextGapEnd, if_neg Bool.false_ne_true, behind, if_pos h.inside,
    if_pos h.inside]

end GoodBlock

/-- Settles O54: the four kinds of turn, each with the rest of the loop, and the turn of a good block. -/
theorem rp3MarksBlockEnd : Obligations.Rp3MarksBlockEnd := by
  unfold Obligations.Rp3MarksBlockEnd
  refine ⟨fun s h hsig => ?_, fun s m => ?_⟩
  · have goes_on {sym marks next} := @State.rp3GoesOn_of_turn s sym marks next h hsig
    refine ⟨fun i inside next hend hnext => ?_, fun hnone => ⟨fun c z hcand hfirst hz => ?_, fun no_cand =>
      ⟨fun i next hei hin hi hclean hnext => ?_, fun hclean => ?_⟩⟩⟩
    · have := goes_on (pass3Turn_of_blockEnd rfl hend hnext)
      rwa [apply_ite word32] at this
    · exact goes_on (pass3Turn_of_candidate hnone hcand hfirst hz)
    · exact goes_on (pass3Turn_of_marker hnone no_cand hei hin hi hclean hnext)
    · exact goes_on (pass3Turn_of_capture hnone no_cand hclean)
  · intro e n syms bits h hsig inside clean whole long crc noEarlier gap
    have block : s.GoodBlock e m := by
      refine ⟨inside, fun k h1 h2 => clean _ (mem_symsAt.mpr ⟨k, h1, h2, rfl⟩), ?_, ?_, ?_, ?_, ?_⟩
      all_goals simp only [s.bitsTo_add, s.prevAt_add]
      · exact whole
      · exact long
      · exact crc
      · exact noEarlier
      · exact gap
    obtain ⟨t, hexec, hframe, hlast, -⟩ := State.rp3GoesOn_of_turn h hsig block.turn
    obtain ⟨hsym, hinfo⟩ := hlast rfl
    rw [hsym, hinfo] at hframe
    exact ⟨t, _, hexec, hframe, s.mem.sym.read_mark _⟩

end Sys2Proof.Machine
end

section
/-! PROOF. VERIFY (spec/44_recon_decode.md section 2): the reports of its three checks as lists of records, queued one
after another as far as there is room. -/

namespace Sys2Proof.Machine

/-! ## Records queued one after another -/

/-- `diag` of each of a list of records in turn (spec/60_exceptions.md rule R306). -/
def State.pushDiags (s : State) (rs : List DiagRecord) : State := rs.foldl State.pushDiag s

theorem State.pushDiags_append (s : State) (xs ys : List DiagRecord) :
    s.pushDiags (xs ++ ys) = (s.pushDiags xs).pushDiags ys := List.foldl_append

/-- A queue within DIAG_CAP takes as many of the records as there is room for. -/
theorem State.pushDiags_eq (s : State) (rs : List DiagRecord) (h : s.diagQ.length ≤ s.cfg.diagCap) :
    s.pushDiags rs = { s with diagQ := (s.diagQ ++ rs).take s.cfg.diagCap } := by
  induction rs generalizing s with
  | nil =>
    rw [List.append_nil, List.take_of_length_le h]
    rfl
  | cons r rs ih =>
    show (s.pushDiag r).pushDiags rs = _
    rw [ih _ (s.pushDiag_room r h)]
    rcases s.pushDiag_cases r with ⟨-, hq⟩ | ⟨hfull, hq⟩ <;> rw [hq]
    · rw [List.append_assoc]
      rfl
    · rw [List.take_append_of_le_length hfull, List.take_append_of_le_length hfull]

theorem State.pushDiags_frame (s : State) (rs : List DiagRecord) :
    s.pushDiags rs = { s with diagQ := (s.pushDiags rs).diagQ } := by
  induction rs generalizing s with
  | nil => rfl
  | cons r rs ih => exact ih (s.pushDiag r)

@[simp] theorem State.pushDiags_conf (s : State) (rs : List DiagRecord) : (s.pushDiags rs).conf = s.conf := by
  rw [State.pushDiags_frame]

@[simp] theorem State.pushDiags_mem (s : State) (rs : List DiagRecord) : (s.pushDiags rs).mem = s.mem := by
  rw [State.pushDiags_frame]

/-! ## The three checks -/

/-- The report of the type transition check (rule R277). -/
def typeReport (start stop typ : Nat) (k : Walk) : List DiagRecord :=
  if legalNext k.lastType = 0 ∨ typ ≠ legalNext k.lastType then
    [diagRecord .blockTypeMismatch start ((legalNext k.lastType <<< 8) ||| typ) stop 0]
  else []

/-- The report of the spacing check (rule R278): none behind a block whose length is not declared. -/
def spacingReport (c : ConfRegs) (start : Nat) (k : Walk) : List DiagRecord :=
  match k.prevStart, k.prevDecl with
  | some pstart, some decl =>
    let spacing : Int := (start : Int) - ((pstart + decl + 3 : Nat) : Int)
    if spacing < (c.gapBoundLo.toNat : Int) ∨ (c.gapBoundHi.toNat : Int) < spacing then
      [⟨codeByte .spacingMismatch, word32 start, BitVec.ofInt 32 spacing, word32 pstart, word32 decl⟩]
    else []
  | _, _ => []

/-- The report of the CRC check on the block in BIN (rule R279). -/
def crcReport (c : ConfRegs) (bin : Memory 8) (start stop : Nat) : List DiagRecord :=
  if stop - start < 4 then [diagRecord .badCrc start 0 0 stop]
  else if crcResidual c (bin.readN (start + 1) (stop - start - 1)) = 0 then []
  else [diagRecord .badCrc start (bin.readLe16 (stop - 2))
    (crcGen c (bin.readN (start + 1) (stop - start - 3))).toNat stop]

/-- What VERIFY reports, in the order of rule R276. -/
def State.verifyReports (s : State) (start stop : Nat) (k : Walk) : List DiagRecord :=
  typeReport start stop (blockType s start (stop - start)) k ++ spacingReport s.conf start k ++
    crcReport s.conf s.mem.bin start stop

theorem verifyType_eq (start stop typ : Nat) (k : Walk) (s : State) :
    verifyType start stop typ k s = s.pushDiags (typeReport start stop typ k) := by
  unfold verifyType typeReport
  dsimp only
  split <;> rfl

theorem verifySpacing_eq (start : Nat) (k : Walk) (s : State) :
    verifySpacing start k s = s.pushDiags (spacingReport s.conf start k) := by
  unfold verifySpacing spacingReport
  cases k.prevStart with
  | none => rfl
  | some pstart =>
    cases k.prevDecl with
    | none => rfl
    | some decl =>
      dsimp only
      split <;> rfl

theorem verifyCrc_eq (start stop : Nat) (s : State) :
    verifyCrc start stop s = s.pushDiags (crcReport s.conf s.mem.bin start stop) := by
  unfold verifyCrc crcReport
  dsimp only
  rw [ite_not]
  split
  · rfl
  · split <;> rfl

/-- VERIFY counts the block and queues its reports (rules R276, R281). -/
theorem verifyBlock_fst (start stop : Nat) (s : State) (k : Walk) :
    (verifyBlock start stop s k).1 =
      { s with nblocks := s.nblocks + 1 }.pushDiags (s.verifyReports start stop k) := by
  have counted : word32 (s.nblocks.toNat + 1) = s.nblocks + 1 := word32_toNat_add s.nblocks 1
  unfold verifyBlock State.verifyReports
  dsimp only
  rw [counted, verifyType_eq, verifySpacing_eq, verifyCrc_eq, State.pushDiags_append, State.pushDiags_append]
  simp only [State.pushDiags_conf, State.pushDiags_mem]

theorem verifyBlock_snd (start stop : Nat) (s : State) (k : Walk) :
    (verifyBlock start stop s k).2 = keepBlock start (stop - start) (blockType s start (stop - start)) s k := rfl

/-- A check's reports: none, or one record of the check's code (rule R276). -/
structure OneReport (code : BitVec 8) (rs : List DiagRecord) : Prop where
  length : rs.length ≤ 1
  codes : ∀ r ∈ rs, r.code = code

theorem OneReport.none (code : BitVec 8) : OneReport code [] := ⟨Nat.zero_le _, List.forall_mem_nil _⟩

theorem OneReport.single {code : BitVec 8} {r : DiagRecord} (h : r.code = code) : OneReport code [r] :=
  ⟨le_refl _, List.forall_mem_singleton.mpr h⟩

theorem typeReport_oneReport (start stop typ : Nat) (k : Walk) : OneReport 4 (typeReport start stop typ k) := by
  unfold typeReport
  split
  · exact .single rfl
  · exact .none 4

theorem spacingReport_oneReport (c : ConfRegs) (start : Nat) (k : Walk) : OneReport 9 (spacingReport c start k) := by
  unfold spacingReport
  split
  · dsimp only
    split
    · exact .single rfl
    · exact .none 9
  · exact .none 9

theorem crcReport_oneReport (c : ConfRegs) (bin : Memory 8) (start stop : Nat) :
    OneReport 5 (crcReport c bin start stop) := by
  unfold crcReport
  split
  · exact .single rfl
  · split
    · exact .none 5
    · exact .single rfl

theorem State.verifyReports_length (s : State) (start stop : Nat) (k : Walk) :
    (s.verifyReports start stop k).length ≤ 3 := by
  have types := (typeReport_oneReport start stop (blockType s start (stop - start)) k).length
  have spacings := (spacingReport_oneReport s.conf start k).length
  have crcs := (crcReport_oneReport s.conf s.mem.bin start stop).length
  rw [State.verifyReports, List.length_append, List.length_append]
  omega

/-- VERIFY reports a type, a spacing or a CRC. -/
theorem State.verifyReports_codes (s : State) (start stop : Nat) (k : Walk) :
    ∀ r ∈ s.verifyReports start stop k, r.code = 4 ∨ r.code = 9 ∨ r.code = 5 := by
  intro r hr
  rcases List.mem_append.mp hr with hr | hr
  · rcases List.mem_append.mp hr with hr | hr
    · exact .inl ((typeReport_oneReport ..).codes r hr)
    · exact .inr (.inl ((spacingReport_oneReport ..).codes r hr))
  · exact .inr (.inr ((crcReport_oneReport ..).codes r hr))

/-! ## The statement -/

theorem legalNext_eq (n : Nat) : legalNext n =
    if n = 0 then 1 else if n = 1 then 2 else if n = 2 then 3 else if n = 3 then 4 else if n = 4 then 3 else 0 := by
  unfold legalNext
  split <;> simp_all

theorem declaredLength_eq (typ : Nat) (k : Walk) : declaredLength typ k =
    if typ = 1 then some 0x38 else if typ = 2 then some 2 else if typ = 3 then some 16
      else if typ = 4 ∧ k.lastType = 3 then k.fileSize.map (1 + ·) else none := by
  unfold declaredLength
  split <;> simp_all

/-- Settles O58: the reports of the three checks, for which the queue has room. -/
theorem verifyReportsInOrder : Obligations.VerifyReportsInOrder := by
  unfold Obligations.VerifyReportsInOrder
  intro start stop s k room n typ want spacing outside typeRep spacingRep crcRep decl size
  have few := s.verifyReports_length start stop k
  have types : typeReport start stop (blockType s start (stop - start)) k = typeRep := by
    rw [typeReport, legalNext_eq]
    rfl
  have spacings : spacingReport s.conf start k = spacingRep := by
    dsimp only [spacingRep]
    unfold spacingReport
    cases k.prevStart with
    | none => rfl
    | some pstart =>
      cases k.prevDecl with
      | none => rfl
      | some len =>
        simp only [outside, Bool.or_eq_true, decide_eq_true_eq]
        rfl
  have crcs : crcReport s.conf s.mem.bin start stop = crcRep := by
    unfold crcReport
    by_cases short : stop - start < 4
    · rw [if_pos short]
      exact (if_pos short).symm
    · have last : stop - 2 + 1 = stop - 1 := by omega
      rw [if_neg short, diagRecord, word32_toNat_setWidth, Memory.readLe16, last]
      exact (if_neg short).symm
  refine Prod.ext ?_ ?_
  · have reports : s.verifyReports start stop k = typeRep ++ spacingRep ++ crcRep := by
      rw [State.verifyReports, types, spacings, crcs]
    rw [verifyBlock_fst, State.pushDiags_eq _ _ (by dsimp only; omega),
      List.take_of_length_le (by rw [List.length_append]; dsimp only; omega), reports, List.append_assoc,
      List.append_assoc, List.append_assoc]
  · rw [verifyBlock_snd, keepBlock, declaredLength_eq]
    rfl

end Sys2Proof.Machine
end

section
/-! PROOF. The walk of pass 5 (spec/44_recon_decode.md section 1): what each kind of symbol does, and what of the state
a symbol writes. -/

namespace Sys2Proof.Machine

/-! ## One symbol, by its kind -/

section Kinds

variable {sy : Sym} {s : State} {k : Walk}

theorem walkStep_of_marker_in_gap (hk : k.ingap = true) :
    walkStep .s3 s k = (s, { k with out := align8 k.out, prev := false }) :=
  (if_pos rfl).trans (if_pos hk)

theorem walkStep_of_marker_in_block (hk : k.ingap = false) :
    walkStep .s3 s k = ((verifyBlock k.bstart (align8 k.out / 8) s k).1,
      { (verifyBlock k.bstart (align8 k.out / 8) s k).2 with
        out := align8 k.out, zsym := 0, ingap := true, prev := false }) :=
  (if_pos rfl).trans (if_neg (Bool.eq_false_iff.mp hk))

theorem walkStep_of_gapEnd (hk : k.ingap = true) (hz : s.conf.shortGap.toNat < k.zsym) :
    walkStep .s1 s k = walkGapEnd s k :=
  (if_neg (by decide)).trans (if_pos ⟨hk, rfl, hz⟩)

theorem walkStep_of_symbol (h3 : sy ≠ .s3) (hg : ¬ (k.ingap = true ∧ sy = .s1 ∧ s.conf.shortGap.toNat < k.zsym)) :
    walkStep sy s k = walkSymbol s.conf.shortGap.toNat sy s k :=
  (if_neg h3).trans (if_neg hg)

end Kinds

theorem walkSymbol_fst (g : Nat) (sy : Sym) (s : State) (k : Walk) :
    (walkSymbol g sy s k).1 = s.setBin (walkSymbol g sy s k).1.mem.bin := by
  unfold walkSymbol
  dsimp only
  split_ifs <;> rfl

/-- A symbol writes BIN only, but for a marker that ends a block: VERIFY counts it and queues its reports. -/
theorem walkStep_fst (sy : Sym) (s : State) (k : Walk) : (walkStep sy s k).1 =
    if k.ingap = false ∧ sy = .s3 then (verifyBlock k.bstart (align8 k.out / 8) s k).1
    else s.setBin (walkStep sy s k).1.mem.bin := by
  by_cases h3 : sy = .s3
  · subst h3
    cases hk : k.ingap with
    | true => rw [walkStep_of_marker_in_gap hk, if_neg (by decide)]; rfl
    | false => rw [walkStep_of_marker_in_block hk, if_pos ⟨rfl, rfl⟩]
  · rw [if_neg fun h => h3 h.2]
    by_cases hg : k.ingap = true ∧ sy = .s1 ∧ s.conf.shortGap.toNat < k.zsym
    · obtain ⟨hk, rfl, hz⟩ := hg
      rw [walkStep_of_gapEnd hk hz]
      rfl
    · rw [walkStep_of_symbol h3 hg]
      exact walkSymbol_fst ..

/-! ## One turn of the loop, and its end -/

section Loop

variable {fuel i : Nat} {s : State} {k : Walk}

theorem walkLoop_of_full (h : s.dstCap.toNat * 8 < k.out + 16) : walkLoop (fuel + 1) i s k =
    ((s.setFlag .trunc true).pushDiag (diagRecord .capacityExceeded (k.out / 8) i 0 0), k, i) :=
  if_pos h

theorem walkLoop_of_room (h : k.out + 16 ≤ s.dstCap.toNat * 8) : walkLoop (fuel + 1) i s k =
    walkLoop fuel (i + 1)
      (recordPosition i (walkStep (s.mem.sym.symAt i) s k).1 (walkStep (s.mem.sym.symAt i) s k).2)
      (walkStep (s.mem.sym.symAt i) s k).2 :=
  if_neg (Nat.not_lt.mpr h)

end Loop

/-- VERIFY's reports of a block cut off by the end of the walk (rule R275). -/
def State.endReports (s : State) (k : Walk) : List DiagRecord :=
  if k.ingap then [] else s.verifyReports k.bstart ((k.out + 7) / 8) k

/-- What follows the walk, but for INGAP, CRC and the result: the cursors, and the block cut off verified. -/
def State.walkEnded (s : State) (k : Walk) : State :=
  { s with
    outBit := word32 k.out, outLen := word32 ((k.out + 7) / 8)
    nblocks := if k.ingap then s.nblocks else s.nblocks + 1 }.pushDiags (s.endReports k)

theorem State.walkEnded_status (s : State) (k : Walk) : (s.walkEnded k).status = s.status := by
  rw [State.walkEnded, State.pushDiags_frame]

/-- What follows the walk (rule R275). -/
theorem walkFinish_eq (n i : Nat) (s : State) (k : Walk) : walkFinish n i s k =
    ((s.walkEnded k).setFlag .ingap k.ingap).scratchCrc.finish
      (if s.flag .trunc then .capacityExceeded else .ok) (if s.flag .trunc then n - i else 0) := by
  have trunc : (((s.walkEnded k).setFlag .ingap k.ingap).scratchCrc).flag .trunc = s.flag .trunc := by
    show ((s.walkEnded k).setFlag .ingap k.ingap).flag .trunc = _
    rw [State.flag_setFlag, if_neg (by decide), State.flag, s.walkEnded_status]
    rfl
  have verified : (if k.ingap then { s with outBit := word32 k.out, outLen := word32 ((k.out + 7) / 8) }
      else (verifyBlock k.bstart ((k.out + 7) / 8)
        { s with outBit := word32 k.out, outLen := word32 ((k.out + 7) / 8) } k).1) = s.walkEnded k := by
    unfold State.walkEnded State.endReports
    cases k.ingap with
    | true => rfl
    | false => exact verifyBlock_fst _ _ _ _
  unfold walkFinish
  dsimp only
  rw [verified, trunc]
  split <;> rfl

end Sys2Proof.Machine
end

section
/-! PROOF. RECON (spec/44_recon_decode.md rule R285): no pass reads RESULT, INFO or the response, so a pass started on
what the one before it answered ends as on what it left. -/

namespace Sys2Proof.Machine

/-! ## The passes that mark -/

section Passes

variable (s : State) (c : ResultCode) (n : Nat)

theorem pass2_finish : pass2 (s.finish c n) = ((pass2 s).1.finish c n, (pass2 s).2) := by
  unfold pass2
  dsimp only [State.finish_mem, State.finish_symLen, State.finish_conf]
  split <;> rfl

theorem State.flag_finish (f : Flag) : (s.finish c n).flag f = s.flag f := rfl

theorem pass3_finish : pass3 (s.finish c n) = ((pass3 s).1.finish c n, (pass3 s).2) := by
  unfold pass3
  rw [State.flag_finish]
  split <;> rfl

theorem pass4_finish : pass4 (s.finish c n) = ((pass4 s).1.finish c n, (pass4 s).2) := rfl

/-! ## Pass 5 -/

theorem walkSetup_finish : walkSetup (s.finish c n) = (walkSetup s).finish c n := by
  unfold walkSetup
  rw [State.flag_finish]
  split <;> rfl

theorem State.pushDiags_finish (rs : List DiagRecord) :
    (s.finish c n).pushDiags rs = (s.pushDiags rs).finish c n := by
  induction rs generalizing s with
  | nil => rfl
  | cons r rs ih => exact ih (s.pushDiag r)

theorem verifyBlock_finish (start stop : Nat) (k : Walk) :
    verifyBlock start stop (s.finish c n) k =
      ((verifyBlock start stop s k).1.finish c n, (verifyBlock start stop s k).2) := by
  refine Prod.ext ?_ rfl
  dsimp only
  rw [verifyBlock_fst, verifyBlock_fst, ← State.pushDiags_finish]
  rfl

theorem walkSymbol_finish (g : Nat) (sy : Sym) (k : Walk) :
    walkSymbol g sy (s.finish c n) k = ((walkSymbol g sy s k).1.finish c n, (walkSymbol g sy s k).2) := by
  unfold walkSymbol
  dsimp only
  split_ifs <;> rfl

theorem walkStep_finish (sy : Sym) (k : Walk) :
    walkStep sy (s.finish c n) k = ((walkStep sy s k).1.finish c n, (walkStep sy s k).2) := by
  by_cases h3 : sy = .s3
  · subst h3
    cases hk : k.ingap with
    | true => simp only [walkStep_of_marker_in_gap hk]
    | false => simp only [walkStep_of_marker_in_block hk, verifyBlock_finish]
  · by_cases hg : k.ingap = true ∧ sy = .s1 ∧ s.conf.shortGap.toNat < k.zsym
    · obtain ⟨hk, rfl, hz⟩ := hg
      rw [walkStep_of_gapEnd hk hz, walkStep_of_gapEnd (s := s.finish c n) hk hz]
      rfl
    · rw [walkStep_of_symbol h3 hg, walkStep_of_symbol (s := s.finish c n) h3 hg]
      exact walkSymbol_finish s c n _ sy k

theorem walkLoop_finish (fuel i : Nat) (k : Walk) :
    walkLoop fuel i (s.finish c n) k =
      ((walkLoop fuel i s k).1.finish c n, (walkLoop fuel i s k).2) := by
  induction fuel generalizing i s k with
  | zero => rfl
  | succ fuel ih =>
    by_cases hfull : s.dstCap.toNat * 8 < k.out + 16
    · rw [walkLoop_of_full hfull]
      exact walkLoop_of_full (s := s.finish c n) hfull
    · have room := Nat.not_lt.mp hfull
      rw [walkLoop_of_room room, walkLoop_of_room (s := s.finish c n) room, walkStep_finish]
      exact ih (recordPosition i (walkStep (s.mem.sym.symAt i) s k).1 (walkStep (s.mem.sym.symAt i) s k).2) _ _

/-- What follows the walk answers anew. -/
theorem walkFinish_finish (m i : Nat) (k : Walk) : walkFinish m i (s.finish c n) k = walkFinish m i s k := by
  have ended : (s.finish c n).walkEnded k = (s.walkEnded k).finish c n := by
    unfold State.walkEnded
    rw [← State.pushDiags_finish]
    rfl
  rw [walkFinish_eq, walkFinish_eq, ended, State.flag_finish]
  rfl

/-- Pass 5 ends alike whatever the operation before it answered. -/
theorem pass5_finish : pass5 (s.finish c n) = pass5 s := by
  unfold pass5
  simp only [walkSetup_finish, walkLoop_finish, walkFinish_finish, State.finish_symLen]

end Passes

/-! ## The statement -/

/-- A pass leaves SYM_LEN, DST_CAP and the sizes, so RECON's bounds checks hold before each pass. -/
theorem Effect.recon_bounds {s t : State} {i : Instr} (h : Effect i s t)
    (hi : i ∈ reconPasses := by simp [reconPasses]) : t.symOk = s.symOk ∧ t.dstOk = s.dstOk := by
  rw [(h.recon_of_pass hi).frame]
  exact ⟨rfl, rfl⟩

section Answered

variable {s : State} {c : ResultCode} {n : Nat}

theorem exec_rp2_finish (h : s.symOk = true) :
    exec .rp2 (s.finish c n) = .next ((pass2 s).1.finish .ok (pass2 s).2) :=
  (if_pos h).trans (by rw [pass2_finish]; rfl)

theorem exec_rp3_finish (h : s.symOk = true) :
    exec .rp3 (s.finish c n) = .next ((pass3 s).1.finish .ok (pass3 s).2) :=
  (if_pos h).trans (by rw [pass3_finish]; rfl)

theorem exec_rp4_finish (h : s.symOk = true) :
    exec .rp4 (s.finish c n) = .next ((pass4 s).1.finish .ok (pass4 s).2) :=
  (if_pos h).trans (by rw [pass4_finish]; rfl)

theorem exec_rp5_finish (hsym : s.symOk = true) (hdst : s.dstOk = true) :
    exec .rp5 (s.finish c n) = .next (pass5 s) :=
  (if_pos ⟨hsym, hdst⟩).trans (by rw [pass5_finish])

end Answered

/-- Settles O59: each pass is issued on what the pass before it answered, which differs in the result alone. -/
theorem reconIsFivePasses : Obligations.ReconIsFivePasses := by
  unfold Obligations.ReconIsFivePasses
  refine ⟨rfl, fun s h => if_neg fun ok => ?_, fun s hsym hdst => ?_⟩
  · exact h.elim (fun h => State.not_symOk h ok.1) fun h => State.not_dstOk h ok.2
  · have sym0 : s.symOk = true := State.symOk_iff.mpr hsym
    have dst0 : s.dstOk = true := State.dstOk_iff.mpr hdst
    obtain ⟨sym1, dst1⟩ := (pass1_effect s).recon_bounds
    obtain ⟨sym2, dst2⟩ := (pass2_effect (pass1 s).1).recon_bounds
    obtain ⟨sym3, dst3⟩ := (pass3_effect (pass2 (pass1 s).1).1).recon_bounds
    obtain ⟨sym4, dst4⟩ := (pass4_effect (pass3 (pass2 (pass1 s).1).1).1).recon_bounds
    rw [sym0] at sym1
    rw [sym1] at sym2
    rw [sym2] at sym3
    rw [sym3] at sym4
    rw [dst3, dst2, dst1] at dst4
    exact ⟨_, _, _, _, _, if_pos sym0, exec_rp2_finish sym1, exec_rp3_finish sym2, exec_rp4_finish sym3,
      exec_rp5_finish sym4 (dst4.trans dst0), if_pos ⟨sym0, dst0⟩⟩

end Sys2Proof.Machine
end

section
/-! PROOF. The walk of pass 5 after i symbols (spec/44_recon_decode.md rules R270 to R274, R283): its scan state, the
blocks counted, the position map and the queue, each by induction on i, and where the walk stops. -/

namespace Sys2Proof.Machine

/-! ## One symbol -/

section Step

variable (sy : Sym) (t : State) (k : Walk)

/-- A symbol leaves all but BIN, NBLOCKS and the queue. -/
theorem walkStep_frame : (walkStep sy t k).1 = { t with
    nblocks := (walkStep sy t k).1.nblocks, diagQ := (walkStep sy t k).1.diagQ
    mem := { t.mem with bin := (walkStep sy t k).1.mem.bin } } := by
  rw [walkStep_fst]
  split
  · rw [verifyBlock_fst, State.pushDiags_frame]
  · rfl

/-- A marker that ends a block counts it (rules R272, R281). -/
theorem walkStep_nblocks : (walkStep sy t k).1.nblocks =
    if k.ingap = false ∧ sy = .s3 then t.nblocks + 1 else t.nblocks := by
  rw [walkStep_fst]
  split
  · rw [verifyBlock_fst, State.pushDiags_frame]
  · rfl

/-- What a symbol reports: VERIFY's reports where it is a marker that ends a block (rule R272). -/
def State.stepReports : List DiagRecord :=
  if k.ingap = false ∧ sy = .s3 then t.verifyReports k.bstart (align8 k.out / 8) k else []

theorem walkStep_diagQ (h : t.diagQ.length ≤ t.cfg.diagCap) :
    (walkStep sy t k).1.diagQ = (t.diagQ ++ t.stepReports sy k).take t.cfg.diagCap := by
  rw [walkStep_fst, State.stepReports]
  split
  · rw [verifyBlock_fst]
    exact congrArg State.diagQ (State.pushDiags_eq { t with nblocks := t.nblocks + 1 } _ h)
  · rw [List.append_nil, List.take_of_length_le h]
    rfl

end Step

/-! ## The walk after i symbols -/

/-- The state and the scan state after the first i symbols, where none of them meets the capacity stop. -/
def State.walkAt (s : State) : Nat → State × Walk
  | 0 => (walkSetup s, Walk.start)
  | i + 1 =>
    let r := walkStep (s.mem.sym.symAt i) (s.walkAt i).1 (s.walkAt i).2
    (recordPosition i r.1 r.2, r.2)

/-- What RP5 reports before the walk: NoSignature where SIGF is 0 (rule R270). -/
def State.signatureReport (s : State) : List DiagRecord :=
  if s.flag .sigf then [] else [diagRecord .noSignature 0 0 0 0]

theorem take_singleton {α : Type} (x : α) (n : Nat) : [x].take n = if 0 < n then [x] else [] := by
  cases n with
  | zero => rfl
  | succ n => rw [List.take_succ_cons, List.take_nil, if_pos (Nat.succ_pos n)]

theorem walkSetup_eq (s : State) : walkSetup s = { s with
    nblocks := 0, diagQ := s.signatureReport.take s.cfg.diagCap, status := putBit s.status 4 false
    mem := { s.mem with bin := s.mem.bin.zeroN 0 s.dstCap.toNat, pmap := s.mem.pmap.zeroN 0 (s.dstCap.toNat + 1) } } := by
  unfold walkSetup State.signatureReport
  dsimp only
  split
  · rw [List.take_nil]
    rfl
  · rw [take_singleton]
    rfl

section WalkAt

variable (s : State) (i : Nat)

/-- The walk leaves all but BIN, PMAP, NBLOCKS, TRUNC and the queue. -/
theorem State.walkAt_frame : (s.walkAt i).1 = { s with
    nblocks := (s.walkAt i).1.nblocks, diagQ := (s.walkAt i).1.diagQ, status := putBit s.status 4 false
    mem := { s.mem with bin := (s.walkAt i).1.mem.bin, pmap := (s.walkAt i).1.mem.pmap } } := by
  induction i with
  | zero => rw [State.walkAt, walkSetup_eq]
  | succ i ih =>
    have step := walkStep_frame (s.mem.sym.symAt i) (s.walkAt i).1 (s.walkAt i).2
    rw [State.walkAt]
    dsimp only
    generalize walkStep (s.mem.sym.symAt i) (s.walkAt i).1 (s.walkAt i).2 = r at step
    rw [step, ih]
    rfl

@[simp] theorem State.walkAt_cfg : (s.walkAt i).1.cfg = s.cfg := by rw [State.walkAt_frame]
@[simp] theorem State.walkAt_conf : (s.walkAt i).1.conf = s.conf := by rw [State.walkAt_frame]
@[simp] theorem State.walkAt_dstCap : (s.walkAt i).1.dstCap = s.dstCap := by rw [State.walkAt_frame]
@[simp] theorem State.walkAt_sym : (s.walkAt i).1.mem.sym = s.mem.sym := by rw [State.walkAt_frame]

theorem State.walkAt_succ : s.walkAt (i + 1) =
    (recordPosition i (walkStep (s.mem.sym.symAt i) (s.walkAt i).1 (s.walkAt i).2).1
      (walkStep (s.mem.sym.symAt i) (s.walkAt i).1 (s.walkAt i).2).2,
      (walkStep (s.mem.sym.symAt i) (s.walkAt i).1 (s.walkAt i).2).2) := rfl

/-- The walk's cursor is where the symbols alone put it. -/
theorem State.walkAt_cursor : (s.walkAt i).2.cursor = s.cursorAfter i := by
  induction i with
  | zero => rfl
  | succ i ih =>
    rw [State.cursorAfter_succ, ← ih, ← s.walkAt_conf i]
    exact walkStep_cursor ..

theorem State.walkAt_out : (s.walkAt i).2.out = (s.cursorAfter i).out :=
  congrArg Cursor.out (s.walkAt_cursor i)

theorem State.walkAt_ingap : (s.walkAt i).2.ingap = (s.cursorAfter i).ingap :=
  congrArg Cursor.ingap (s.walkAt_cursor i)

/-! ## The blocks counted -/

/-- The gap ends among the first n symbols: each begins a block. -/
def State.gapEndsBefore (s : State) (n : Nat) : Nat :=
  (List.range n).countP fun i => (s.cursorAfter i).ingap && !(s.cursorAfter (i + 1)).ingap

theorem State.gapEndsBefore_succ : s.gapEndsBefore (i + 1) =
    s.gapEndsBefore i + if (s.cursorAfter i).ingap && !(s.cursorAfter (i + 1)).ingap then 1 else 0 := by
  rw [State.gapEndsBefore, List.range_succ, List.countP_append, List.countP_singleton]
  rfl

/-- A block ends with a marker and with nothing else. -/
theorem Cursor.next_ingap_of_block {c : Cursor} (h : c.ingap = false) (g : Nat) (y : Sym) :
    (c.next g y).ingap = decide (y = .s3) := by
  unfold Cursor.next
  by_cases h3 : y = .s3
  · rw [if_pos h3, decide_eq_true h3]
  · rw [if_neg h3, if_neg (by simp [h]), decide_eq_false h3]
    exact h

/-- NBLOCKS counts the gap ends, but for the block the walk stands in, which is not verified yet. -/
theorem State.walkAt_nblocks :
    (if (s.cursorAfter i).ingap then (s.walkAt i).1.nblocks else (s.walkAt i).1.nblocks + 1) =
      BitVec.ofNat 32 (s.gapEndsBefore i) := by
  induction i with
  | zero =>
    rw [State.walkAt, walkSetup_eq]
    rfl
  | succ i ih =>
    have step : (s.walkAt (i + 1)).1.nblocks = _ := walkStep_nblocks _ _ _
    rw [step, s.walkAt_ingap, s.gapEndsBefore_succ, BitVec.ofNat_add, ← ih]
    cases hg : (s.cursorAfter i).ingap with
    | true => cases (s.cursorAfter (i + 1)).ingap <;> simp
    | false =>
      rw [s.cursorAfter_succ, Cursor.next_ingap_of_block hg]
      by_cases h3 : s.mem.sym.symAt i = .s3 <;> simp [h3]

/-! ## The position map -/

theorem State.walkAt_pmap_zero :
    (s.walkAt 0).1.mem.pmap = s.mem.pmap.zeroN 0 (s.dstCap.toNat + 1) := by
  rw [State.walkAt, walkSetup_eq]

theorem State.walkAt_pmap_succ : (s.walkAt (i + 1)).1.mem.pmap =
    (s.walkAt i).1.mem.pmap.write ((s.cursorAfter (i + 1)).out / 8) (word32 i) := by
  rw [← s.walkAt_out, s.walkAt_succ]
  show Memory.write (walkStep (s.mem.sym.symAt i) (s.walkAt i).1 (s.walkAt i).2).1.mem.pmap _ _ = _
  rw [walkStep_frame]

/-- Where the cursor has not stood in byte b, its entry is the one before the walk. -/
theorem State.walkAt_pmap_of_none {n b : Nat} (h : ∀ i, i < n → (s.cursorAfter (i + 1)).out / 8 ≠ b) :
    (s.walkAt n).1.mem.pmap.read b = (s.walkAt 0).1.mem.pmap.read b := by
  induction n with
  | zero => rfl
  | succ n ih =>
    rw [s.walkAt_pmap_succ, Memory.read_write_other _ _ _ _ (Ne.symm (h n (Nat.lt_succ_self n)))]
    exact ih fun i hi => h i (Nat.lt_succ_of_lt hi)

/-- The entry of byte b is the last symbol after which the cursor stood in it (rule R283). -/
theorem State.walkAt_pmap_of_last {n b j : Nat} (hj : j < n) (hb : (s.cursorAfter (j + 1)).out / 8 = b)
    (hlast : ∀ i, j < i → i < n → (s.cursorAfter (i + 1)).out / 8 ≠ b) :
    (s.walkAt n).1.mem.pmap.read b = word32 j := by
  induction n with
  | zero => omega
  | succ n ih =>
    rw [s.walkAt_pmap_succ]
    rcases Nat.eq_or_lt_of_le (Nat.le_of_lt_succ hj) with rfl | hlt
    · rw [hb, Memory.read_write_self]
    · rw [Memory.read_write_other _ _ _ _ (Ne.symm (hlast n hlt (Nat.lt_succ_self n)))]
      exact ih hlt fun i h1 h2 => hlast i h1 (Nat.lt_succ_of_lt h2)

/-! ## The queue -/

/-- All that is reported up to symbol i, whether or not the queue has room for it. -/
def State.walkLog (s : State) : Nat → List DiagRecord
  | 0 => s.signatureReport
  | i + 1 => s.walkLog i ++ (s.walkAt i).1.stepReports (s.mem.sym.symAt i) (s.walkAt i).2

/-- A queue cut to its capacity and filled up is the whole cut to the capacity. -/
theorem take_take_append {α : Type} (n : Nat) (xs ys : List α) : (xs.take n ++ ys).take n = (xs ++ ys).take n := by
  rcases Nat.le_total xs.length n with h | h
  · rw [List.take_of_length_le h]
  · rw [List.take_append_of_le_length (by rw [List.length_take]; omega), List.take_take, Nat.min_self,
      List.take_append_of_le_length h]

/-- The queue holds what was reported, as far as there is room. -/
theorem State.walkAt_diagQ : (s.walkAt i).1.diagQ = (s.walkLog i).take s.cfg.diagCap := by
  induction i with
  | zero =>
    rw [State.walkAt, walkSetup_eq]
    rfl
  | succ i ih =>
    have room : (s.walkAt i).1.diagQ.length ≤ (s.walkAt i).1.cfg.diagCap := by
      rw [ih, s.walkAt_cfg, List.length_take]
      omega
    have step : (s.walkAt (i + 1)).1.diagQ = _ := walkStep_diagQ _ _ _ room
    rw [step, ih, s.walkAt_cfg, take_take_append]
    rfl

theorem State.stepReports_codes {t : State} {k : Walk} {sy : Sym} :
    ∀ r ∈ t.stepReports sy k, r.code = 4 ∨ r.code = 9 ∨ r.code = 5 := by
  unfold State.stepReports
  split
  · exact t.verifyReports_codes _ _ _
  · exact List.forall_mem_nil _

/-- Only the capacity stop reports CapacityExceeded. -/
theorem State.walkLog_codes : ∀ r ∈ s.walkLog i, r.code ≠ 2 := by
  induction i with
  | zero =>
    show ∀ r ∈ s.signatureReport, _
    unfold State.signatureReport
    split
    · exact List.forall_mem_nil _
    · exact List.forall_mem_singleton.mpr (by decide)
  | succ i ih =>
    intro r hr
    rcases List.mem_append.mp hr with hr | hr
    · exact ih r hr
    · rcases State.stepReports_codes r hr with h | h | h <;> rw [h] <;> decide

/-- NoSignature stands before all else. -/
theorem State.walkLog_signature : ∃ rest, s.walkLog i = s.signatureReport ++ rest := by
  induction i with
  | zero => exact ⟨[], (List.append_nil _).symm⟩
  | succ i ih =>
    obtain ⟨rest, hrest⟩ := ih
    exact ⟨rest ++ (s.walkAt i).1.stepReports (s.mem.sym.symAt i) (s.walkAt i).2, by
      rw [State.walkLog, hrest, List.append_assoc]⟩

end WalkAt

/-! ## Where the walk stops -/

/-- The walk stops before symbol n: the first one before which fewer than 16 bits are free, or the end of the capture
(rule R271). -/
structure State.StopsAt (s : State) (n : Nat) : Prop where
  le : n ≤ s.symLen.toNat
  room : ∀ i, i < n → (s.cursorAfter i).out + 16 ≤ s.dstCap.toNat * 8
  full : n < s.symLen.toNat → s.dstCap.toNat * 8 < (s.cursorAfter n).out + 16

theorem State.exists_stopsAt (s : State) : ∃ n, s.StopsAt n := by
  have ends : ∃ n, s.symLen.toNat ≤ n ∨ s.dstCap.toNat * 8 < (s.cursorAfter n).out + 16 :=
    ⟨_, .inl (le_refl _)⟩
  refine ⟨Nat.find ends, Nat.find_min' ends (.inl (le_refl _)), fun i hi => ?_, fun h => ?_⟩
  · have := Nat.find_min ends hi
    omega
  · exact (Nat.find_spec ends).resolve_left (Nat.not_le.mpr h)

/-- The state the walk leaves where it stops before symbol n (rule R271). -/
def State.walkStop (s : State) (n : Nat) : State :=
  if n < s.symLen.toNat then
    ((s.walkAt n).1.setFlag .trunc true).pushDiag
      (diagRecord .capacityExceeded ((s.cursorAfter n).out / 8) n 0 0)
  else (s.walkAt n).1

theorem State.StopsAt.walkLoop {s : State} {n : Nat} (h : s.StopsAt n) (fuel i : Nat) (hi : i ≤ n)
    (hfuel : i + fuel = s.symLen.toNat) :
    walkLoop fuel i (s.walkAt i).1 (s.walkAt i).2 = (s.walkStop n, (s.walkAt n).2, n) := by
  have hle := h.le
  induction fuel generalizing i with
  | zero =>
    obtain rfl : i = n := by omega
    rw [State.walkStop, if_neg (by omega)]
    rfl
  | succ fuel ih =>
    rcases Nat.eq_or_lt_of_le hi with rfl | hlt
    · have full := h.full (by omega)
      rw [walkLoop_of_full (by rw [s.walkAt_dstCap, s.walkAt_out]; exact full), State.walkStop, if_pos (by omega),
        s.walkAt_out]
    · have room := h.room i hlt
      rw [walkLoop_of_room (by rw [s.walkAt_dstCap, s.walkAt_out]; exact room), s.walkAt_sym]
      exact ih (i + 1) hlt (by omega)

theorem State.StopsAt.walkLoop_eq {s : State} {n : Nat} (h : s.StopsAt n) :
    Machine.walkLoop s.symLen.toNat 0 (walkSetup s) Walk.start = (s.walkStop n, (s.walkAt n).2, n) :=
  h.walkLoop _ 0 (Nat.zero_le n) (Nat.zero_add _)

theorem State.StopsAt.pass5_eq {s : State} {n : Nat} (h : s.StopsAt n) :
    pass5 s = walkFinish s.symLen.toNat n (s.walkStop n) (s.walkAt n).2 := by
  unfold pass5
  dsimp only
  rw [h.walkLoop_eq]

/-- The report of the capacity stop (rule R271). -/
def State.capacityReport (s : State) (n : Nat) : List DiagRecord :=
  if n < s.symLen.toNat then [diagRecord .capacityExceeded ((s.cursorAfter n).out / 8) n 0 0] else []

theorem putBit_putBit (v : BitVec 8) (k : Nat) (a b : Bool) : putBit (putBit v k a) k b = putBit v k b := by
  apply BitVec.eq_of_getLsbD_eq
  intro j hj
  rw [getLsbD_putBit _ _ _ _ hj, getLsbD_putBit _ _ _ _ hj, getLsbD_putBit _ _ _ _ hj]
  split <;> rfl

theorem State.walkStop_eq (s : State) (n : Nat) : s.walkStop n = { s with
    nblocks := (s.walkAt n).1.nblocks
    diagQ := (s.walkLog n ++ s.capacityReport n).take s.cfg.diagCap
    status := putBit s.status 4 (decide (n < s.symLen.toNat))
    mem := { s.mem with bin := (s.walkAt n).1.mem.bin, pmap := (s.walkAt n).1.mem.pmap } } := by
  have frame := s.walkAt_frame n
  rw [s.walkAt_diagQ] at frame
  unfold State.walkStop State.capacityReport
  by_cases h : n < s.symLen.toNat
  · rw [if_pos h, if_pos h, decide_eq_true h]
    generalize (s.walkAt n).1 = t at frame
    have room : t.diagQ.length ≤ t.cfg.diagCap := by
      rw [frame]
      exact List.length_take_le _ _
    refine (State.pushDiags_eq (t.setFlag .trunc true) [_] room).trans ?_
    rw [frame]
    simp only [State.setFlag, flagBit, putBit_putBit, take_take_append]
  · rw [if_neg h, if_neg h, decide_eq_false h, List.append_nil]
    exact frame

theorem State.walkEnded_eq (t : State) (k : Walk) (h : t.diagQ.length ≤ t.cfg.diagCap) : t.walkEnded k = { t with
    outBit := word32 k.out, outLen := word32 ((k.out + 7) / 8)
    nblocks := if k.ingap then t.nblocks else t.nblocks + 1
    diagQ := (t.diagQ ++ t.endReports k).take t.cfg.diagCap } :=
  State.pushDiags_eq _ _ h

/-- VERIFY reads the configuration and BIN. -/
theorem State.endReports_congr {t u : State} (hconf : t.conf = u.conf) (hbin : t.mem.bin = u.mem.bin) (k : Walk) :
    t.endReports k = u.endReports k := by
  unfold State.endReports State.verifyReports blockType
  rw [hconf, hbin]

/-- All that pass 5 reports, in order, where it stops before symbol n (rules R270, R271, R275). -/
def State.rp5Log (s : State) (n : Nat) : List DiagRecord :=
  s.walkLog n ++ s.capacityReport n ++ (s.walkAt n).1.endReports (s.walkAt n).2

/-- What pass 5 leaves (rule R275). -/
theorem State.StopsAt.pass5_frame {s : State} {n : Nat} (h : s.StopsAt n) : pass5 s = ({ s with
      mem := { s.mem with bin := (s.walkAt n).1.mem.bin, pmap := (s.walkAt n).1.mem.pmap }
      outBit := word32 (s.cursorAfter n).out, outLen := word32 (((s.cursorAfter n).out + 7) / 8)
      nblocks := BitVec.ofNat 32 (s.gapEndsBefore n)
      diagQ := (s.rp5Log n).take s.cfg.diagCap
      status := withFlag (withFlag s.status 0x10 (decide (n < s.symLen.toNat))) 0x08
        (s.cursorAfter n).ingap }.scratchCrc).finish
    (if n < s.symLen.toNat then .capacityExceeded else .ok) (s.symLen.toNat - n) := by
  have reports : (s.walkStop n).endReports (s.walkAt n).2 = (s.walkAt n).1.endReports (s.walkAt n).2 :=
    State.endReports_congr (by rw [s.walkStop_eq, s.walkAt_conf]) (by rw [s.walkStop_eq]) _
  have trunc : (s.walkStop n).flag .trunc = decide (n < s.symLen.toNat) := by
    rw [s.walkStop_eq]
    exact (getLsbD_putBit _ _ _ _ (by decide)).trans (if_pos rfl)
  have blocks : (if (s.walkAt n).2.ingap then (s.walkStop n).nblocks else (s.walkStop n).nblocks + 1) =
      BitVec.ofNat 32 (s.gapEndsBefore n) := by
    rw [s.walkAt_ingap, ← s.walkAt_nblocks, s.walkStop_eq]
  have room : (s.walkStop n).diagQ.length ≤ (s.walkStop n).cfg.diagCap := by
    rw [s.walkStop_eq]
    exact List.length_take_le _ _
  have info : (if decide (n < s.symLen.toNat) = true then s.symLen.toNat - n else 0) = s.symLen.toNat - n := by
    by_cases hn : n < s.symLen.toNat
    · rw [if_pos (decide_eq_true hn)]
    · rw [if_neg (by simpa using hn)]
      omega
  rw [h.pass5_eq, walkFinish_eq, trunc, info, State.walkEnded_eq _ _ room, blocks, reports, s.walkStop_eq,
    s.walkAt_out, s.walkAt_ingap, take_take_append]
  simp only [decide_eq_true_eq]
  rfl

/-! ## What the walk leaves behind its cursor -/

section Behind

variable {s : State} {n : Nat}

theorem State.StopsAt.ends (h : s.StopsAt n) :
    WalkEnds (s.walkAt 0).1 (s.walkStop n) Walk.start (s.walkAt n).2 0 (0 + s.symLen.toNat) n := by
  have ends := walkLoop_ends s.symLen.toNat 0 (walkSetup s) Walk.start (le_refl _)
  rw [h.walkLoop_eq] at ends
  exact ends

/-- The walk stays within DST_CAP (rule R271). -/
theorem State.StopsAt.out_le (h : s.StopsAt n) : (s.cursorAfter n).out ≤ s.dstCap.toNat * 8 := by
  have within := h.ends.out.2
  rw [s.walkAt_dstCap, s.walkAt_out] at within
  exact within (Nat.zero_le _)

theorem State.walkAt_bin_zero : (s.walkAt 0).1.mem.bin = s.mem.bin.zeroN 0 s.dstCap.toNat := by
  rw [State.walkAt, walkSetup_eq]

/-- BIN behind the image is 0 up to DST_CAP and as before beyond it (rules R270, R290). -/
theorem State.StopsAt.bin_behind (h : s.StopsAt n) {k : Nat} (hk : ((s.cursorAfter n).out + 7) / 8 ≤ k) :
    (s.walkAt n).1.mem.bin.read k = if k < s.dstCap.toNat then 0 else s.mem.bin.read k := by
  have same : (s.walkAt n).1.mem.bin.read k = (s.walkAt 0).1.mem.bin.read k :=
    Memory.read_eq_of_readBit _ _ _ fun j hj => by
      have bits := h.ends.bits (8 * k + j) (by rw [s.walkAt_out]; omega)
      rwa [s.walkStop_eq] at bits
  rw [same, s.walkAt_bin_zero, Memory.read_zeroN]
  simp [unwritten]

/-- PMAP behind the cursor's byte is 0 up to DST_CAP and as before beyond it (rules R270, R283). -/
theorem State.StopsAt.pmap_behind (h : s.StopsAt n) {b : Nat} (hb : (s.cursorAfter n).out / 8 < b) :
    (s.walkAt n).1.mem.pmap.read b = if b ≤ s.dstCap.toNat then 0 else s.mem.pmap.read b := by
  have same := h.ends.pmap b (by rw [s.walkAt_out]; exact hb)
  rw [s.walkStop_eq] at same
  refine same.trans ?_
  rw [s.walkAt_pmap_zero, Memory.read_zeroN]
  simp [unwritten]

end Behind

/-! ## The queue after the walk -/

section Queue

variable {s : State} {n : Nat}

theorem State.endReports_codes {t : State} {k : Walk} :
    ∀ r ∈ t.endReports k, r.code = 4 ∨ r.code = 9 ∨ r.code = 5 := by
  unfold State.endReports
  split
  · exact List.forall_mem_nil _
  · exact t.verifyReports_codes _ _ _

theorem DiagRecord.code_ne_two {r : DiagRecord} (h : r.code = 4 ∨ r.code = 9 ∨ r.code = 5) : r.code ≠ 2 := by
  rcases h with h | h | h <;> rw [h] <;> decide

/-- Only the capacity stop reports CapacityExceeded. -/
theorem State.rp5Log_codes : ∀ r ∈ s.walkLog n ++ (s.walkAt n).1.endReports (s.walkAt n).2, r.code ≠ 2 :=
  List.forall_mem_append.mpr
    ⟨s.walkLog_codes n, fun r hr => DiagRecord.code_ne_two (State.endReports_codes r hr)⟩

theorem State.rp5Log_of_stopped (h : n < s.symLen.toNat) : s.rp5Log n =
    s.walkLog n ++ diagRecord .capacityExceeded ((s.cursorAfter n).out / 8) n 0 0 ::
      (s.walkAt n).1.endReports (s.walkAt n).2 := by
  rw [State.rp5Log, State.capacityReport, if_pos h, List.append_assoc]
  rfl

theorem State.rp5Log_of_ended (h : ¬ n < s.symLen.toNat) :
    s.rp5Log n = s.walkLog n ++ (s.walkAt n).1.endReports (s.walkAt n).2 := by
  rw [State.rp5Log, State.capacityReport, if_neg h, List.append_nil]

/-- Where SIGF is 0 the first report is NoSignature (rule R270). -/
theorem State.rp5Log_head (h : s.status.getLsbD 2 = false) : (s.rp5Log n).head? = some ⟨10, 0, 0, 0, 0⟩ := by
  obtain ⟨rest, hrest⟩ := s.walkLog_signature n
  have first : s.signatureReport = [⟨10, 0, 0, 0, 0⟩] := if_neg (Bool.eq_false_iff.mp h)
  rw [State.rp5Log, hrest, first]
  rfl

/-- A queue with room left has dropped nothing. -/
theorem take_eq_of_length_lt {α : Type} {cap : Nat} {xs : List α} (h : (xs.take cap).length < cap) :
    xs.take cap = xs := by
  rw [List.length_take] at h
  exact List.take_of_length_le (by omega)

end Queue

theorem exec_rp5 {s : State} (hsym : s.symLen.toNat ≤ s.cfg.symCap) (hdst : s.dstCap.toNat ≤ s.cfg.binCap) :
    exec .rp5 s = .next (pass5 s) :=
  if_pos ⟨State.symOk_iff.mpr hsym, State.dstOk_iff.mpr hdst⟩

/-! ## The statement -/

theorem codeByte_of_stop (p : Prop) [Decidable p] :
    codeByte (if p then .capacityExceeded else .ok) = if decide p = true then 2 else 0 := by
  by_cases h : p
  · rw [if_pos h, if_pos (decide_eq_true h)]
    rfl
  · rw [if_neg h, if_neg (by rwa [decide_eq_true_eq])]
    rfl

/-- Settles O56: what the walk leaves where it stops, field by field. -/
theorem rp5LeavesImage : Obligations.Rp5LeavesImage := by
  unfold Obligations.Rp5LeavesImage
  refine ⟨rfl, fun s h => if_neg fun ok => ?_, fun s hsym hdst hwide => ?_⟩
  · exact h.elim (fun h => State.not_symOk h ok.1) fun h => State.not_dstOk h ok.2
  obtain ⟨n, h⟩ := s.exists_stopsAt
  have within := h.out_le
  have outLen : (word32 (((s.cursorAfter n).out + 7) / 8)).toNat = ((s.cursorAfter n).out + 7) / 8 :=
    word32_toNat_of_lt _ (by omega)
  refine ⟨_, n, (exec_rp5 hsym hdst).trans (congrArg _ h.pass5_frame), h.le, h.room,
    fun stopped => h.full (of_decide_eq_true stopped), ?frame, outLen, ?outLen_le, fun stopped room => ?stopped,
    fun ended => ?ended, fun b i hi hb hlast => s.walkAt_pmap_of_last hi hb hlast, fun b hb hnone => ?pmap_none,
    fun k h1 h2 => ?bin_zero, fun k hk => ?bin_same, fun k h1 h2 => ?pmap_zero, fun k hk => ?pmap_same,
    fun unsigned room => ?signature, List.length_take_le _ _⟩
  case frame =>
    rw [← codeByte_of_stop]
    exact State.scratchCrc_finish_sameButCrc ..
  case outLen_le =>
    refine outLen.trans_le ?_
    omega
  case stopped =>
    refine ⟨s.walkLog n, (s.walkAt n).1.endReports (s.walkAt n).2, ?_, State.rp5Log_codes, State.endReports_codes,
      fun ingap => if_pos ((s.walkAt_ingap n).trans ingap)⟩
    exact (take_eq_of_length_lt room).trans (State.rp5Log_of_stopped (of_decide_eq_true stopped))
  case ended =>
    intro r hr
    have reported : r ∈ s.rp5Log n := List.mem_of_mem_take hr
    rw [State.rp5Log_of_ended (of_decide_eq_false ended)] at reported
    exact State.rp5Log_codes r reported
  case pmap_none =>
    refine (s.walkAt_pmap_of_none hnone).trans ?_
    rw [s.walkAt_pmap_zero, Memory.read_zeroN, if_pos (by omega)]
    rfl
  case bin_zero => exact (h.bin_behind (outLen.symm.trans_le h1)).trans (if_pos h2)
  case bin_same => exact (h.bin_behind (by omega)).trans (if_neg (Nat.not_lt.mpr hk))
  case pmap_zero => exact (h.pmap_behind (by have := outLen.symm.trans_lt h1; omega)).trans (if_pos h2)
  case pmap_same => exact (h.pmap_behind (by omega)).trans (if_neg (Nat.not_le.mpr hk))
  case signature =>
    show ((s.rp5Log n).take s.cfg.diagCap).head? = _
    rw [List.head?_take, if_neg (Nat.ne_of_gt room), State.rp5Log_head unsigned]

end Sys2Proof.Machine
end

section
/-! PROOF. A capture of one block (spec/44_recon_decode.md rules R272 to R277, R279, R283): the walk through its lead-in,
its gap end, its symbols and its marker, and what pass 5 leaves of it. -/

namespace Sys2Proof.Machine

/-! ## The walk up to the end of the first block -/

/-- After i symbols, none of them a block's end, the walk has scan state k and BIN as `bin`. -/
structure State.WalkedTo (s : State) (i : Nat) (bin : Memory 8) (k : Walk) : Prop where
  walk : (s.walkAt i).2 = k
  bin : (s.walkAt i).1.mem.bin = bin
  log : s.walkLog i = s.signatureReport
  uncounted : (s.walkAt i).1.nblocks = 0

section WalkedTo

variable {s : State} {i : Nat} {bin bin1 : Memory 8} {k k1 : Walk}

theorem State.walkedTo_start (s : State) : s.WalkedTo 0 (s.mem.bin.zeroN 0 s.dstCap.toNat) Walk.start :=
  ⟨rfl, s.walkAt_bin_zero, rfl, by rw [State.walkAt, walkSetup_eq]⟩

/-- A symbol y that is no marker is reported nowhere and counts nothing. -/
theorem State.WalkedTo.next (h : s.WalkedTo i bin k) {y : Sym} (hy : s.mem.sym.symAt i = y) (h3 : y ≠ .s3)
    (step : ∀ t : State, t.conf = s.conf → t.mem.bin = bin → walkStep y t k = (t.setBin bin1, k1)) :
    s.WalkedTo (i + 1) bin1 k1 := by
  obtain ⟨rfl, hbin, log, uncounted⟩ := h
  have quiet : ¬ ((s.walkAt i).2.ingap = false ∧ s.mem.sym.symAt i = .s3) := fun h => h3 (hy.symm.trans h.2)
  have here := step (s.walkAt i).1 (s.walkAt_conf i) hbin
  refine ⟨?_, ?_, ?_, ?_⟩
  · rw [s.walkAt_succ, hy, here]
  · rw [s.walkAt_succ, hy, here]
    rfl
  · rw [State.walkLog, State.stepReports, if_neg quiet, log, List.append_nil]
  · exact (walkStep_nblocks _ _ _).trans ((if_neg quiet).trans uncounted)

theorem State.WalkedTo.cursor (h : s.WalkedTo i bin k) : s.cursorAfter i = k.cursor := by
  rw [← s.walkAt_cursor, h.walk]

end WalkedTo

/-! ## One symbol of a lead-in and of a block -/

/-- The scan state after i 0 symbols of a lead-in. -/
def leadInWalk (i : Nat) : Walk := ⟨i, false, true, i, 0, 0, none, none, none⟩

/-- The scan state inside the first block, whose marker byte stands in byte z / 8. -/
def blockWalk (z out : Nat) (prev : Bool) : Walk := ⟨out, prev, false, 0, z / 8, 0, none, none, none⟩

/-- A 0 symbol of a gap that reads as a 0 needs no phase correction (rule R274). -/
theorem walkSymbol_zero_in_gap {k : Walk} (g : Nat) (t : State) (hgap : k.ingap = true)
    (hprev : demodPrev k.prev .s0 = false) : walkSymbol g .s0 t k =
      (t.setBin (t.mem.bin.writeBits k.out (demodBits k.prev .s0)),
        { k with out := k.out + (demodBits k.prev .s0).length, prev := demodPrev k.prev .s0, zsym := k.zsym + 1 }) := by
  unfold walkSymbol
  dsimp only
  rw [if_pos hgap, if_pos rfl, if_neg fun h => Bool.false_ne_true (hprev.symm.trans h.2)]

/-- A 0 symbol of the lead-in writes one 0. -/
theorem walkStep_leadIn (t : State) (i : Nat) :
    walkStep .s0 t (leadInWalk i) = (t.setBin (t.mem.bin.writeBits i [false]), leadInWalk (i + 1)) := by
  rw [walkStep_of_symbol (by decide) (fun h => by cases h.2.1), walkSymbol_zero_in_gap _ _ rfl rfl]
  rfl

/-- The gap end behind a lead-in of z symbols writes the marker byte (rule R273). -/
theorem walkStep_leadIn_end (t : State) (z : Nat) (h : t.conf.shortGap.toNat < z) :
    walkStep .s1 t (leadInWalk z) =
      (t.setBin (t.mem.bin.write (z / 8) 0x80), blockWalk z ((z / 8 + 1) * 8) true) := by
  have byte : (z ||| 7) / 8 = z / 8 := by rw [or_seven]; omega
  have next : (z ||| 7) + 1 = (z / 8 + 1) * 8 := by rw [or_seven]; omega
  rw [walkStep_of_gapEnd rfl h, walkGapEnd]
  dsimp only [leadInWalk]
  rw [byte, next]
  rfl

/-- In a block a symbol writes its bits. -/
theorem walkStep_block (t : State) (z out : Nat) (prev : Bool) {y : Sym} (h3 : y ≠ .s3) :
    walkStep y t (blockWalk z out prev) = (t.setBin (t.mem.bin.writeBits out (demodBits prev y)),
      blockWalk z (out + (demodBits prev y).length) (demodPrev prev y)) := by
  rw [walkStep_of_symbol h3 (fun h => Bool.false_ne_true h.1), walkSymbol]
  exact if_neg Bool.false_ne_true

/-! ## A capture of one block -/

/-- The capture is a lead-in of z 0 symbols, z above SHORT_GAP, the gap-end symbol, the m symbols of `block`, and a
marker or the end of the capture, and DST_CAP has room for it. -/
structure State.HoldsOneBlock (s : State) (z m : Nat) (block : List Byte) (marked : Bool) : Prop where
  room : z / 8 + 3 + block.length ≤ s.dstCap.toNat
  long : s.conf.shortGap.toNat < z
  size : s.symLen.toNat = z + 1 + m + marked.toNat
  leadIn : ∀ k, k < z → s.mem.sym.symAt k = .s0
  gapEnd : s.mem.sym.symAt z = .s1
  clean : ∀ y ∈ symsAt s.mem.sym (z + 1) m, y ≠ .s3
  bits : demodAll true (symsAt s.mem.sym (z + 1) m) = bitsOfBytes block
  marker : marked = true → s.mem.sym.symAt (z + 1 + m) = .s3

/-- BIN with the lead-in's zeros and the marker byte (rule R273). -/
def State.markerBin (s : State) (z : Nat) : Memory 8 :=
  ((s.mem.bin.zeroN 0 s.dstCap.toNat).writeBits 0 (List.replicate z false)).write (z / 8) 0x80

section OneBlock

variable {s : State} {z m : Nat} {block : List Byte} {marked : Bool}

theorem State.HoldsOneBlock.walked_leadIn (h : s.HoldsOneBlock z m block marked) (i : Nat) (hi : i ≤ z) :
    s.WalkedTo i ((s.mem.bin.zeroN 0 s.dstCap.toNat).writeBits 0 (List.replicate i false)) (leadInWalk i) := by
  induction i with
  | zero => exact s.walkedTo_start
  | succ i ih =>
    refine (ih (Nat.le_of_succ_le hi)).next (h.leadIn i hi) (by decide) fun t _ hbin => ?_
    rw [walkStep_leadIn, hbin, List.replicate_succ', Memory.writeBits_append, List.length_replicate, Nat.zero_add]

theorem State.HoldsOneBlock.walked_gapEnd (h : s.HoldsOneBlock z m block marked) :
    s.WalkedTo (z + 1) (s.markerBin z) (blockWalk z ((z / 8 + 1) * 8) true) := by
  refine (h.walked_leadIn z (le_refl z)).next h.gapEnd (by decide) fun t hconf hbin => ?_
  rw [walkStep_leadIn_end t z (by rw [hconf]; exact h.long), hbin]
  rfl

theorem State.HoldsOneBlock.walked_block (h : s.HoldsOneBlock z m block marked) (c : Nat) (hc : c ≤ m) :
    s.WalkedTo (z + 1 + c) ((s.markerBin z).writeBits ((z / 8 + 1) * 8) (s.bitsTo z (z + 1 + c)))
      (blockWalk z ((z / 8 + 1) * 8 + (s.bitsTo z (z + 1 + c)).length) (s.prevAt z (z + 1 + c))) := by
  induction c with
  | zero =>
    simp only [Nat.add_zero, State.bitsTo_start, State.prevAt_start]
    exact h.walked_gapEnd
  | succ c ih =>
    have no_marker : s.mem.sym.symAt (z + 1 + c) ≠ .s3 :=
      h.clean _ (mem_symsAt.mpr ⟨_, by omega, by omega, rfl⟩)
    refine (ih (Nat.le_of_succ_le hc)).next rfl no_marker fun t _ hbin => ?_
    rw [← Nat.add_assoc, s.bitsTo_succ z _ (by omega), s.prevAt_succ z _ (by omega), walkStep_block _ _ _ _ no_marker,
      hbin, Memory.writeBits_append, List.length_append, Nat.add_assoc ((z / 8 + 1) * 8)]

/-! ## The cursor -/

theorem State.HoldsOneBlock.bitsTo_end (h : s.HoldsOneBlock z m block marked) :
    s.bitsTo z (z + 1 + m) = bitsOfBytes block := by
  rw [s.bitsTo_add, h.bits]

theorem State.bitsTo_length_le (s : State) (z : Nat) {c d : Nat} (h : c ≤ d) :
    (s.bitsTo z (z + 1 + c)).length ≤ (s.bitsTo z (z + 1 + d)).length := by
  obtain ⟨rest, hrest, -⟩ := s.bitsTo_extends (e := z) (k := z + 1 + c) (by omega) (d - c)
  rw [show z + 1 + d = z + 1 + c + (d - c) by omega, hrest, List.length_append]
  omega

theorem State.HoldsOneBlock.out_leadIn (h : s.HoldsOneBlock z m block marked) {i : Nat} (hi : i ≤ z) :
    (s.cursorAfter i).out = i := by
  rw [(h.walked_leadIn i hi).cursor]
  rfl

theorem State.HoldsOneBlock.out_block (h : s.HoldsOneBlock z m block marked) {c : Nat} (hc : c ≤ m) :
    (s.cursorAfter (z + 1 + c)).out = (z / 8 + 1) * 8 + (s.bitsTo z (z + 1 + c)).length := by
  rw [(h.walked_block c hc).cursor]
  rfl

theorem State.HoldsOneBlock.out_block_end (h : s.HoldsOneBlock z m block marked) :
    (s.cursorAfter (z + 1 + m)).out = (z / 8 + 1 + block.length) * 8 := by
  rw [h.out_block (le_refl m), h.bitsTo_end, bitsOfBytes_length]
  omega

/-- Behind the block the cursor stands at its end, before the marker and behind it. -/
theorem State.HoldsOneBlock.cursor_end (h : s.HoldsOneBlock z m block marked) :
    (s.cursorAfter s.symLen.toNat).out = (z / 8 + 1 + block.length) * 8 ∧
      (s.cursorAfter s.symLen.toNat).ingap = marked := by
  rw [h.size]
  cases marked with
  | false =>
    refine ⟨h.out_block_end, ?_⟩
    rw [Bool.toNat_false, Nat.add_zero, (h.walked_block m (le_refl m)).cursor]
    rfl
  | true =>
    have out := h.out_block_end
    rw [Bool.toNat_true, s.cursorAfter_succ, h.marker rfl]
    refine ⟨?_, rfl⟩
    show ((s.cursorAfter (z + 1 + m)).out + 7) / 8 * 8 = _
    omega

/-- Where the cursor stands behind the gap end: after c symbols of the block, or behind the whole of it. -/
theorem State.HoldsOneBlock.out_behind (h : s.HoldsOneBlock z m block marked) {i : Nat} (hz : z < i)
    (hi : i ≤ s.symLen.toNat) : ∃ c, c ≤ m ∧ (i ≤ z + 1 + c ∨ c = m) ∧
      (s.cursorAfter i).out = (z / 8 + 1) * 8 + (s.bitsTo z (z + 1 + c)).length := by
  have hsize := h.size
  by_cases hblock : i ≤ z + 1 + m
  · obtain ⟨c, rfl⟩ := Nat.exists_eq_add_of_le hz
    exact ⟨c, by omega, .inl (le_refl _), h.out_block (by omega)⟩
  · have last : i = s.symLen.toNat := by
      have := marked.toNat_le
      omega
    refine ⟨m, le_refl m, .inr rfl, ?_⟩
    rw [last, h.cursor_end.1, ← h.out_block_end, h.out_block (le_refl m)]

/-- The walk never meets the capacity stop. -/
theorem State.HoldsOneBlock.stopsAt (h : s.HoldsOneBlock z m block marked) : s.StopsAt s.symLen.toNat := by
  refine ⟨le_refl _, fun i hi => ?_, fun hlt => absurd hlt (lt_irrefl _)⟩
  have room := h.room
  by_cases hz : i ≤ z
  · rw [h.out_leadIn hz]
    omega
  · obtain ⟨c, hc, -, out⟩ := h.out_behind (Nat.lt_of_not_le hz) (Nat.le_of_lt hi)
    have short := s.bitsTo_length_le z hc
    rw [h.bitsTo_end, bitsOfBytes_length] at short
    omega

/-! ## What the walk leaves -/

/-- BIN with the lead-in, the marker byte and the block. -/
def State.blockBin (s : State) (z : Nat) (block : List Byte) : Memory 8 :=
  (s.markerBin z).writeBits ((z / 8 + 1) * 8) (bitsOfBytes block)

theorem State.blockBin_holds (s : State) (z : Nat) (block : List Byte) :
    Memory.HoldsBlock (s.blockBin z block) (s.markerBin z) (z / 8 + 1) block :=
  Memory.read_writeBits_bitsOfBytes _ _ _

/-- The zeros of the lead-in and behind, and the marker byte. -/
theorem State.markerBin_read (s : State) (z : Nat) {k : Nat} (hk : k < s.dstCap.toNat) :
    (s.markerBin z).read k = if k = z / 8 then 0x80 else 0 := by
  have zeros : ((s.mem.bin.zeroN 0 s.dstCap.toNat).writeBits 0 (List.replicate z false)).read k = 0 := by
    apply BitVec.eq_of_getLsbD_eq
    intro j hj
    have cleared : (s.mem.bin.zeroN 0 s.dstCap.toNat).readBit (8 * k + j) = false := by
      rw [Memory.readBit_zeroN, if_pos (by omega)]
    rw [← Memory.readBit_byte _ _ _ hj, Memory.readBit_writeBits, cleared]
    simp
  rw [State.markerBin, Memory.read_write, zeros]

theorem State.HoldsOneBlock.walked_end (h : s.HoldsOneBlock z m block marked) :
    s.WalkedTo (z + 1 + m) (s.blockBin z block)
      (blockWalk z ((z / 8 + 1 + block.length) * 8) (s.prevAt z (z + 1 + m))) := by
  have walked := h.walked_block m (le_refl m)
  rw [h.bitsTo_end, bitsOfBytes_length, ← Nat.add_mul] at walked
  exact walked

/-- VERIFY's reports of the block, at the marker or at the end of the walk. -/
def State.blockReports (s : State) (z m : Nat) (block : List Byte) : List DiagRecord :=
  (s.walkAt (z + 1 + m)).1.verifyReports (z / 8) (z / 8 + 1 + block.length)
    (blockWalk z ((z / 8 + 1 + block.length) * 8) (s.prevAt z (z + 1 + m)))

theorem align8_byte (n : Nat) : align8 (n * 8) / 8 = n := by
  unfold align8
  omega

/-- A marker writes nothing. -/
theorem walkStep_marker_bin (t : State) (k : Walk) : (walkStep .s3 t k).1.mem.bin = t.mem.bin := by
  cases hk : k.ingap with
  | true => rw [walkStep_of_marker_in_gap hk]
  | false => rw [walkStep_of_marker_in_block hk, verifyBlock_fst, State.pushDiags_mem]

theorem State.HoldsOneBlock.bin_end (h : s.HoldsOneBlock z m block marked) :
    (s.walkAt s.symLen.toNat).1.mem.bin = s.blockBin z block := by
  rw [h.size]
  cases marked with
  | false => exact h.walked_end.bin
  | true =>
    rw [Bool.toNat_true, s.walkAt_succ, h.marker rfl]
    exact (walkStep_marker_bin _ _).trans h.walked_end.bin

/-- The block is verified once. -/
theorem State.HoldsOneBlock.blocks (h : s.HoldsOneBlock z m block marked) :
    BitVec.ofNat 32 (s.gapEndsBefore s.symLen.toNat) = 1 := by
  have walked := h.walked_end
  rw [← s.walkAt_nblocks, h.cursor_end.2, h.size]
  cases marked with
  | false =>
    rw [Bool.toNat_false, Nat.add_zero, walked.uncounted]
    rfl
  | true =>
    rw [Bool.toNat_true, s.walkAt_succ, h.marker rfl, walked.walk]
    show (walkStep _ _ _).1.nblocks = 1
    rw [walkStep_nblocks, if_pos ⟨rfl, rfl⟩, walked.uncounted]
    rfl

theorem State.HoldsOneBlock.log_end (h : s.HoldsOneBlock z m block marked) :
    s.rp5Log s.symLen.toNat = s.signatureReport ++ s.blockReports z m block := by
  have walked := h.walked_end
  have ingap := (s.walkAt_ingap _).trans h.cursor_end.2
  rw [State.rp5Log_of_ended (lt_irrefl _), State.endReports, ingap, h.size]
  cases marked with
  | false =>
    rw [if_neg Bool.false_ne_true, Bool.toNat_false, Nat.add_zero, walked.log, walked.walk]
    congr 1
    have stop : ((blockWalk z ((z / 8 + 1 + block.length) * 8) (s.prevAt z (z + 1 + m))).out + 7) / 8 =
        z / 8 + 1 + block.length := by
      show ((z / 8 + 1 + block.length) * 8 + 7) / 8 = _
      omega
    rw [stop]
    rfl
  | true =>
    rw [if_pos rfl, List.append_nil, Bool.toNat_true, State.walkLog, walked.log, h.marker rfl, walked.walk,
      State.stepReports, if_pos ⟨rfl, rfl⟩]
    congr 2
    exact align8_byte _

end OneBlock

/-! ## VERIFY of the first block -/

section FirstBlock

variable {t : State} {bin m : Memory 8} {start stop : Nat} {block : List Byte} {k : Walk}

theorem word32_or (m n : Nat) : word32 (m ||| n) = word32 m ||| word32 n := by
  apply BitVec.eq_of_toNat_eq
  simp [word32]

theorem word32_shiftLeft (m n : Nat) : word32 (m <<< n) = word32 m <<< n := by
  apply BitVec.eq_of_toNat_eq
  simp [word32, Nat.shiftLeft_eq, Nat.mod_mul_mod]

/-- The type of a block is its first byte, 0 where there is none (rule R277). -/
theorem blockType_of_holds (h : Memory.HoldsBlock t.mem.bin m (start + 1) block) :
    blockType t start (start + 1 + block.length - start) = (block.getD 0 0).toNat := by
  unfold blockType
  by_cases hb : 0 < block.length
  · rw [if_pos (by omega)]
    exact congrArg BitVec.toNat (h.read hb)
  · rw [if_neg (by omega), List.getD_eq_default _ _ (by omega)]
    rfl

/-- The first block must be of type 1. -/
theorem typeReport_first (v : Byte) (hk : k.lastType = 0) : typeReport start stop v.toNat k =
    if v = 1 then []
    else [⟨4, BitVec.ofNat 32 start, 0x100 ||| v.setWidth 32, BitVec.ofNat 32 stop, 0⟩] := by
  have same : v = 1 ↔ v.toNat = 1 := by bv_omega
  have wide : word32 (256 ||| v.toNat) = 0x100 ||| v.setWidth 32 := by
    rw [word32_or, word32_toNat_setWidth]
    rfl
  unfold typeReport
  rw [hk]
  by_cases hv : v = 1
  · rw [if_pos hv, if_neg]
    rw [same.mp hv]
    decide
  · rw [if_neg hv, if_pos (.inr fun h => hv (same.mpr h)), ← wide]
    rfl

/-- The CRC check by the bytes of the block. -/
theorem crcReport_of_holds (c : ConfRegs) (h : Memory.HoldsBlock bin m (start + 1) block) :
    crcReport c bin start (start + 1 + block.length) =
      if block.length < 3 then [⟨5, BitVec.ofNat 32 start, 0, 0, BitVec.ofNat 32 (start + 1 + block.length)⟩]
      else if crcResidual c block = 0 then []
      else [⟨5, BitVec.ofNat 32 start,
        (block.getD (block.length - 2) 0).setWidth 32 ||| ((block.getD (block.length - 1) 0).setWidth 32 <<< 8),
        (crcGen c (block.take (block.length - 2))).setWidth 32, BitVec.ofNat 32 (start + 1 + block.length)⟩] := by
  unfold crcReport
  by_cases hshort : block.length < 3
  · rw [if_pos (by omega), if_pos hshort]
    rfl
  · obtain ⟨n, hn⟩ : ∃ n, block.length = n + 2 := ⟨block.length - 2, by omega⟩
    have last : start + 1 + block.length - 2 = start + 1 + n := by omega
    have size : start + 1 + block.length - start - 1 = n + 2 := by omega
    have payload : start + 1 + block.length - start - 3 = n := by omega
    rw [if_neg (by omega), if_neg hshort, last, size, payload, h.readN hn, h.readN_payload hn, diagRecord,
      h.readLe16 hn, word32_or, word32_shiftLeft, word32_toNat_setWidth, word32_toNat_setWidth, word32_toNat_setWidth,
      show block.length - 2 = n by omega, show block.length - 1 = n + 1 by omega]
    rfl

end FirstBlock

/-! ## The statement -/

section Pmap

variable {s : State} {z m : Nat} {block : List Byte} {marked : Bool}

/-- Behind the gap end the cursor stands behind the marker byte. -/
theorem State.HoldsOneBlock.byte_behind (h : s.HoldsOneBlock z m block marked) {i : Nat} (hz : z ≤ i)
    (hi : i < s.symLen.toNat) : z / 8 + 1 ≤ (s.cursorAfter (i + 1)).out / 8 := by
  obtain ⟨c, -, -, out⟩ := h.out_behind (i := i + 1) (by omega) hi
  omega

/-- A byte of the lead-in is completed by its seventh 0 symbol, the last after which the cursor stands in it. -/
theorem State.HoldsOneBlock.pmap_leadIn (h : s.HoldsOneBlock z m block marked) {b : Nat} (hb : b < z / 8) :
    (s.walkAt s.symLen.toNat).1.mem.pmap.read b = word32 (8 * b + 6) := by
  have hsize := h.size
  refine s.walkAt_pmap_of_last (j := 8 * b + 6) (by omega) ?_ fun i h1 hi => ?_
  · rw [h.out_leadIn (by omega)]
    omega
  · by_cases hz : i < z
    · rw [h.out_leadIn hz]
      omega
    · have := h.byte_behind (Nat.le_of_not_lt hz) hi
      omega

/-- The last symbol in the marker byte is the one before the gap end. -/
theorem State.HoldsOneBlock.pmap_marker (h : s.HoldsOneBlock z m block marked) :
    (s.walkAt s.symLen.toNat).1.mem.pmap.read (z / 8) = word32 (z - 1) := by
  have hsize := h.size
  have hlong := h.long
  refine s.walkAt_pmap_of_last (j := z - 1) (by omega) ?_ fun i h1 hi => ?_
  · rw [Nat.sub_add_cancel (by omega), h.out_leadIn (le_refl z)]
  · have := h.byte_behind (i := i) (by omega) hi
    omega

/-- The last symbol in a byte of the block is the one before the symbol that completes the byte. -/
theorem State.HoldsOneBlock.pmap_block (h : s.HoldsOneBlock z m block marked) {c : Nat} (hc : c < m)
    (hnext : (s.bitsTo z (z + 1 + c)).length / 8 < (s.bitsTo z (z + 1 + (c + 1))).length / 8) :
    (s.walkAt s.symLen.toNat).1.mem.pmap.read (z / 8 + 1 + (s.bitsTo z (z + 1 + c)).length / 8) = word32 (z + c) := by
  have hsize := h.size
  refine s.walkAt_pmap_of_last (j := z + c) (by omega) ?_ fun i h1 hi => ?_
  · rw [Nat.add_right_comm, h.out_block (Nat.le_of_lt hc)]
    omega
  · obtain ⟨d, hd, hafter, out⟩ := h.out_behind (i := i + 1) (by omega) hi
    have := s.bitsTo_length_le z (c := c + 1) (d := d) (by omega)
    omega

/-- The last symbol of all leaves the cursor behind the block. -/
theorem State.HoldsOneBlock.pmap_end (h : s.HoldsOneBlock z m block marked) :
    (s.walkAt s.symLen.toNat).1.mem.pmap.read (z / 8 + 1 + block.length) = word32 (z + m + marked.toNat) := by
  have hsize := h.size
  refine s.walkAt_pmap_of_last (j := z + m + marked.toNat) (by omega) ?_ fun i h1 hi => by omega
  rw [show z + m + marked.toNat + 1 = s.symLen.toNat by omega, h.cursor_end.1]
  omega

end Pmap

/-- BIN byte by byte: zeros, the marker byte, the block, zeros. -/
theorem State.blockBin_read (s : State) (z : Nat) (block : List Byte) {k : Nat} (hk : k < s.dstCap.toNat) :
    (s.blockBin z block).read k = if k = z / 8 then 0x80
      else if z / 8 < k ∧ k < z / 8 + 1 + block.length then block.getD (k - z / 8 - 1) 0 else 0 := by
  rw [s.blockBin_holds z block k, s.markerBin_read z hk, Nat.sub_sub]
  by_cases hstart : k = z / 8
  · rw [if_neg (by omega), if_pos hstart, if_pos hstart]
  · rw [if_neg hstart, if_neg hstart]
    exact if_congr (by omega) rfl rfl

/-- Settles O57: the walk through the block, the reports of the block it leaves in BIN, and the last symbols of its
bytes. -/
theorem rp5RecoversBlock : Obligations.Rp5RecoversBlock := by
  unfold Obligations.Rp5RecoversBlock
  intro s z m block marked start stop bitsTo hsym hdst hwide room long size leadIn gapEnd clean bits marker
    signatureReport typeRep crcRep
  have h : s.HoldsOneBlock z m block marked := ⟨room, long, size, leadIn, gapEnd, clean, bits, marker⟩
  have whole : ¬ s.symLen.toNat < s.symLen.toNat := lt_irrefl _
  have reports : s.blockReports z m block = typeRep ++ crcRep := by
    have holds := s.blockBin_holds z block
    rw [← h.walked_end.bin] at holds
    rw [State.blockReports, State.verifyReports, blockType_of_holds holds, typeReport_first _ rfl,
      crcReport_of_holds _ holds, s.walkAt_conf]
    exact congrArg (· ++ crcRep) (List.append_nil typeRep)
  have log : s.rp5Log s.symLen.toNat = signatureReport ++ typeRep ++ crcRep := by
    rw [h.log_end, reports, List.append_assoc]
    rfl
  refine ⟨_, (exec_rp5 hsym hdst).trans (congrArg _ h.stopsAt.pass5_frame), ?result, ?info, ?outLen, h.blocks, ?ingap,
    ?trunc, congrArg (List.take _) log, fun b hb => h.pmap_leadIn hb, h.pmap_marker, fun c hc hnext => ?pmap,
    h.pmap_end, fun k hk => ?bin⟩
  case result => exact congrArg codeByte (if_neg whole)
  case info => exact congrArg word32 (Nat.sub_self _)
  case outLen =>
    have bytes : ((s.cursorAfter s.symLen.toNat).out + 7) / 8 = stop := by
      rw [h.cursor_end.1]
      show ((z / 8 + 1 + block.length) * 8 + 7) / 8 = z / 8 + 1 + block.length
      omega
    exact (congrArg (fun n => (word32 n).toNat) bytes).trans (word32_toNat_of_lt _ (by omega))
  case ingap => exact (getLsbD_putBit _ 3 _ 3 (by decide)).trans ((if_pos rfl).trans h.cursor_end.2)
  case trunc =>
    refine (getLsbD_putBit _ 3 _ 4 (by decide)).trans ((if_neg (by decide)).trans ?_)
    exact (getLsbD_putBit _ 4 _ 4 (by decide)).trans ((if_pos rfl).trans (decide_eq_false whole))
  case pmap =>
    have entry := h.pmap_block hc (by rw [s.bitsTo_add, s.bitsTo_add]; exact hnext)
    rwa [s.bitsTo_add] at entry
  case bin => exact (congrArg (Memory.read · k) h.bin_end).trans (s.blockBin_read z block hk)

end Sys2Proof.Machine
end

section
/-! PROOF. The system operations (spec/45_system.md rules R360 to R364): which numbers name a register, how RDREG and
WRREG end by whether they do, then one statement after another. -/

namespace Sys2Proof.Machine

/-! ## Register numbers -/

section Numbers

variable {r : BitVec 8} {v : Word} {reg : Reg}

/-- The numbers that name a register (spec/10_state.md rules R22, R40). -/
theorem toNat_of_regOfNumber (hr : regOfNumber r = some reg) :
    r.toNat ≤ 0x0D ∨ (0x10 ≤ r.toNat ∧ r.toNat ≤ 0x15) ∨ (0x20 ≤ r.toNat ∧ r.toNat ≤ 0x2E) := by
  unfold regOfNumber at hr
  split at hr <;> cases hr
  all_goals omega

/-- The numbers that name a register the host may write (rule R362). -/
theorem toNat_of_regHostWritable (hr : regOfNumber r = some reg) (hw : regHostWritable reg = true) :
    r.toNat = 0 ∨ (4 ≤ r.toNat ∧ r.toNat ≤ 7) ∨ (9 ≤ r.toNat ∧ r.toNat ≤ 0x0A) ∨ r.toNat = 0x20 ∨
      (0x22 ≤ r.toNat ∧ r.toNat ≤ 0x2E) := by
  unfold regOfNumber at hr
  split at hr <;> cases hr
  all_goals
    rename_i number
    revert hw
    rw [number]
    decide

/-- The register WRREG writes: one the number names, the host may write and the value fits (rule R362). -/
theorem wrregTarget_eq_some_iff : wrregTarget r v = some reg ↔
    regOfNumber r = some reg ∧ regHostWritable reg = true ∧ v.toNat < 2 ^ regWidth reg := by
  unfold wrregTarget
  cases regOfNumber r with
  | none => simp
  | some named =>
    rw [Option.ite_none_right_eq_some, Option.some.injEq, and_comm]
    exact and_congr_right fun same => by rw [same]

theorem wrregTarget_eq_none_of_wide (hr : regOfNumber r = some reg) (hv : 2 ^ regWidth reg ≤ v.toNat) :
    wrregTarget r v = none := by
  refine Option.eq_none_iff_forall_ne_some.mpr fun named target => ?_
  obtain ⟨hnamed, -, fits⟩ := wrregTarget_eq_some_iff.mp target
  obtain rfl := Option.some.inj (hr.symm.trans hnamed)
  exact Nat.not_lt.mpr hv fits

end Numbers

/-! ## RDREG and WRREG, by what their operands name -/

section Registers

variable {s : State} {r : BitVec 8} {v : Word} {reg : Reg}

theorem exec_rdreg_of_reserved (h : regOfNumber r = none) : exec (.rdreg r) s = .next (s.answered 8 0) :=
  exec_of_not_wellFormed s (Option.isSome_eq_false_iff.mpr (Option.isNone_iff_eq_none.mpr h))

theorem exec_rdreg_of_reg (h : regOfNumber r = some reg) :
    exec (.rdreg r) s = .next { s with response := some ⟨0, s.readReg reg⟩ } := by
  show execRdreg r s = _
  rw [execRdreg, h]
  rfl

theorem exec_wrreg_of_refused (h : wrregTarget r v = none) : exec (.wrreg r v) s = .next (s.answered 8 0) :=
  exec_of_not_wellFormed s (Option.isSome_eq_false_iff.mpr (Option.isNone_iff_eq_none.mpr h))

theorem exec_wrreg_of_target (h : wrregTarget r v = some reg) :
    exec (.wrreg r v) s = .next ((s.writeReg reg v).answered 0 0) := by
  show execWrreg r v s = _
  rw [execWrreg, h]
  rfl

/-- A 32-bit register takes every value. -/
theorem exec_wrreg_of_width_32 (hr : regOfNumber r = some reg) (hw : regHostWritable reg = true)
    (wide : regWidth reg = 32) : exec (.wrreg r v) s = .next ((s.writeReg reg v).answered 0 0) :=
  exec_wrreg_of_target (wrregTarget_eq_some_iff.mpr ⟨hr, hw, by rw [wide]; exact v.isLt⟩)

end Registers

/-! ## The statements -/

/-- Settles O17: the operation is `finish OK(0)` and nothing before it. -/
theorem nopEndsOk : Obligations.NopEndsOk :=
  ⟨rfl, fun s => congrArg Host.Outcome.next (s.finish_eq_answered .ok 0)⟩

/-- Settles O18: register by register, the value its number names; a reserved number names none. -/
theorem rdregReadsRegister : Obligations.RdregReadsRegister := by
  unfold Obligations.RdregReadsRegister
  refine ⟨fun _ => rfl, fun s => ?_⟩
  intro reads
  have read {r : BitVec 8} (reg : Reg) (h : regOfNumber r = some reg) : reads r (s.readReg reg) := exec_rdreg_of_reg h
  refine ⟨read .crc rfl, read .status rfl, read .result rfl, read .info rfl, read .symLen rfl, read .inCur rfl,
    read .outCur rfl, read .outBit rfl, read .outLen rfl, read .srcLen rfl, read .dstCap rfl, read .nblocks rfl,
    read .sigPos rfl, read .gapEnd rfl, read .diagCode rfl, read .diagW0 rfl, read .diagW1 rfl, read .diagW2 rfl,
    read .diagW3 rfl, read .diagCount rfl, read .crcInit rfl, read .crcPoly rfl, read .crcCoversMarker rfl,
    read .minGap rfl, read .gapLen rfl, read .glitchWindow rfl, read .shortGap rfl, read .longGap rfl,
    read .sigLimit rfl, read .gapBoundLo rfl, read .gapBoundHi rfl, read .qT0 rfl, read .qT1 rfl, read .qT2 rfl,
    read .qT3 rfl, fun r reserved => exec_rdreg_of_reserved ?_⟩
  refine Option.eq_none_iff_forall_ne_some.mpr fun reg named => ?_
  have defined := toNat_of_regOfNumber named
  bv_omega

/-- Settles O19: register by register, the write of the one its number names; what rule R362 refuses has no target. -/
theorem wrregWritesRegister : Obligations.WrregWritesRegister := by
  unfold Obligations.WrregWritesRegister
  refine ⟨fun _ _ => rfl, fun s v => ?_⟩
  intro writes refuses
  have word {r : BitVec 8} (reg : Reg) (hr : regOfNumber r = some reg) (hw : regHostWritable reg = true)
      (wide : regWidth reg = 32) : writes r (s.writeReg reg v) := exec_wrreg_of_width_32 hr hw wide
  have narrow {r : BitVec 8} (reg : Reg) (hr : regOfNumber r = some reg) (hw : regHostWritable reg = true)
      (fits : v.toNat < 2 ^ regWidth reg) : writes r (s.writeReg reg v) :=
    exec_wrreg_of_target (wrregTarget_eq_some_iff.mpr ⟨hr, hw, fits⟩)
  have tooWide {r : BitVec 8} (reg : Reg) (hr : regOfNumber r = some reg) (hv : 2 ^ regWidth reg ≤ v.toNat) :
      refuses r := exec_wrreg_of_refused (wrregTarget_eq_none_of_wide hr hv)
  have crc : v.toNat < 2 ^ 16 →
      writes 0x00 { s with crc := v.setWidth 16, status := zFlag s.status (v.setWidth 16) } := fun fits =>
    Eq.trans (narrow .crc rfl rfl fits) (congrArg _ (s.setCrc_finish (v.setWidth 16) .ok 0))
  refine ⟨crc, word .symLen rfl rfl rfl, word .inCur rfl rfl rfl,
    word .outCur rfl rfl rfl, word .outBit rfl rfl rfl, word .srcLen rfl rfl rfl, word .dstCap rfl rfl rfl,
    narrow .crcInit rfl rfl, narrow .crcCoversMarker rfl rfl, word .minGap rfl rfl rfl, word .gapLen rfl rfl rfl,
    word .glitchWindow rfl rfl rfl, word .shortGap rfl rfl rfl, word .longGap rfl rfl rfl, word .sigLimit rfl rfl rfl,
    word .gapBoundLo rfl rfl rfl, word .gapBoundHi rfl rfl rfl,
    fun fits =>
      ⟨narrow .qT0 rfl rfl fits, narrow .qT1 rfl rfl fits, narrow .qT2 rfl rfl fits, narrow .qT3 rfl rfl fits⟩,
    fun hv => ⟨tooWide .crc rfl hv, tooWide .crcInit rfl hv⟩, tooWide .crcCoversMarker rfl,
    fun hv => ⟨tooWide .qT0 rfl hv, tooWide .qT1 rfl hv, tooWide .qT2 rfl hv, tooWide .qT3 rfl hv⟩,
    fun r notWritable => exec_wrreg_of_refused ?_⟩
  refine Option.eq_none_iff_forall_ne_some.mpr fun reg target => ?_
  obtain ⟨hr, hw, -⟩ := wrregTarget_eq_some_iff.mp target
  have writable := toNat_of_regHostWritable hr hw
  simp only [List.mem_cons, List.not_mem_nil, or_false] at notWritable
  bv_omega

/-- Settles O20: by whether the queue holds a record. -/
theorem diagrdPopsOldest : Obligations.DiagrdPopsOldest := by
  unfold Obligations.DiagrdPopsOldest
  refine ⟨rfl, fun s empty => ?_, fun s r rest queue => ?_⟩
  · show execDiagrd s = _
    rw [execDiagrd, empty]
    rfl
  · show execDiagrd s = _
    rw [execDiagrd, queue]
    rfl

/-- Settles O21: the queue is emptied before `finish OK(0)`. -/
theorem diagclrEmptiesQueue : Obligations.DiagclrEmptiesQueue :=
  ⟨rfl, fun s => congrArg Host.Outcome.next (s.clearDiag.finish_eq_answered .ok 0)⟩

end Sys2Proof.Machine
end

section
/-! PROOF. Every operation answers (spec/70_reset_and_hazards.md rules R350, R351): each way through an operation ends
with a response, and what no operation's footprint holds stays as it was. -/

namespace Sys2Proof.Machine

/-! ## An end with a response -/

/-- The operation ends in a next state with a response. -/
def Answers (o : Outcome) : Prop := ∃ t r, o = .next t ∧ t.response = some r

theorem Answers.finish (s : State) (c : ResultCode) (n : Nat) : Answers (.next (s.finish c n)) := ⟨_, _, rfl, rfl⟩

theorem Answers.illegal (s : State) : Answers (.next s.illegal) := .finish s _ _

theorem Answers.ite {p : Prop} [Decidable p] {o1 o2 : Outcome} (h1 : Answers o1) (h2 : Answers o2) :
    Answers (if p then o1 else o2) := by
  split
  · exact h1
  · exact h2

theorem pass5_answers (s : State) : Answers (.next (pass5 s)) := by
  unfold pass5
  dsimp only
  rw [walkFinish_eq]
  exact .finish _ _ _

theorem execRdreg_answers (r : BitVec 8) (s : State) : Answers (execRdreg r s) := by
  unfold execRdreg
  split
  · exact .illegal s
  · exact ⟨_, _, rfl, rfl⟩

theorem execWrreg_answers (r : BitVec 8) (v : Word) (s : State) : Answers (execWrreg r v s) := by
  unfold execWrreg
  split
  · exact .illegal s
  · exact .finish _ _ _

theorem execDiagrd_answers (s : State) : Answers (execDiagrd s) := by
  unfold execDiagrd
  split <;> exact .finish _ _ _

theorem execGapfind_answers (s : State) : Answers (execGapfind s) := by
  unfold execGapfind
  refine .ite ?_ (.illegal s)
  split <;> exact .finish _ _ _

theorem execFrside_answers (s : State) : Answers (execFrside s) := by
  unfold execFrside
  refine .ite ?_ (.illegal s)
  split
  · exact .finish _ _ _
  · exact .ite (.finish _ _ _) (.finish _ _ _)

/-- Every operation ends with a response (rule R350). -/
theorem exec_answers (i : Instr) (s : State) : Answers (exec i s) := by
  cases i with
  | nop => exact .finish _ _ _
  | rdreg r => exact execRdreg_answers r s
  | wrreg r v => exact execWrreg_answers r v s
  | diagrd => exact execDiagrd_answers s
  | diagclr => exact .finish _ _ _
  | crcinit => exact .finish _ _ _
  | crcstart => exact .finish _ _ _
  | crcbit b => exact .finish _ _ _
  | crcbyte v => exact .finish _ _ _
  | crcbuf a n => exact .ite (.illegal s) (.finish _ _ _)
  | crcgen a n => exact .ite (.illegal s) (.finish _ _ _)
  | crcchk a n => exact .ite (.illegal s) (.ite (.finish _ _ _) (.finish _ _ _))
  | crcput a => exact .ite (.illegal s) (.finish _ _ _)
  | quant => exact .ite (.finish _ _ _) (.illegal s)
  | dinit b => exact .finish _ _ _
  | dsym v => exact .ite (.ite (.finish _ _ _) (.finish _ _ _)) (.illegal s)
  | gapfind => exact execGapfind_answers s
  | decblk t n => exact .ite (.finish _ _ _) (.illegal s)
  | decseq => exact .ite (.finish _ _ _) (.illegal s)
  | frblk a n => exact .ite (.ite (.finish _ _ _) (.finish _ _ _)) (.illegal s)
  | frside => exact execFrside_answers s
  | rp1 => exact .ite (.finish _ _ _) (.illegal s)
  | rp2 => exact .ite (.finish _ _ _) (.illegal s)
  | rp3 => exact .ite (.finish _ _ _) (.illegal s)
  | rp4 => exact .ite (.finish _ _ _) (.illegal s)
  | rp5 => exact .ite (pass5_answers s) (.illegal s)
  | recon => exact .ite (pass5_answers _) (.illegal s)

/-! ## What no operation writes -/

section Frame

variable {i : Instr} {s t : State}

/-- The sizes, the host's list and SRC are in no operation's footprint. -/
theorem exec_keeps_cfg_host_src (h : exec i s = .next t) :
    t.cfg = s.cfg ∧ t.host = s.host ∧ t.mem.src = s.mem.src := by
  rw [(exec_effect h).frame]
  cases i <;> exact ⟨rfl, rfl, rfl⟩

theorem exec_keeps_conf (h : exec i s = .next t) (hw : ∀ r v, i ≠ .wrreg r v) : t.conf = s.conf := by
  rw [(exec_effect h).frame]
  cases i with
  | wrreg r v => exact absurd rfl (hw r v)
  | _ => rfl

end Frame

/-- Settles O8: each operation's end, and its footprint. -/
theorem everyOperationAnswers : Obligations.EveryOperationAnswers := by
  unfold Obligations.EveryOperationAnswers
  intro i s
  obtain ⟨t, r, hexec, response⟩ := exec_answers i s
  obtain ⟨cfg, host, src⟩ := exec_keeps_cfg_host_src hexec
  exact ⟨t, r, hexec, response, cfg, host, src, exec_keeps_conf hexec⟩

end Sys2Proof.Machine
end

section
/-! PROOF. Reset and the block at rest (spec/70_reset_and_hazards.md sections 1 and 4): contents in canonical form read
as before once they are cut to a capacity, and a block with no action pending waits. -/

namespace Sys2Proof.Machine

/-- An entry listed last, behind all others, is the one its index reads. -/
theorem Memory.read_append_singleton {w : Nat} (m : Memory w) (c : Nat × BitVec w) (h : ∀ d ∈ m, d.1 < c.1) (k : Nat) :
    Memory.read (m ++ [c]) k = if k = c.1 then c.2 else m.read k := by
  split
  · rename_i hk
    rw [Memory.read_append_right _ _ _ fun d hd => by have := h d hd; omega, Memory.read_cons, if_pos hk.symm]
  · rename_i hk
    exact Memory.read_append_left _ _ _ fun d hd => by rw [List.mem_singleton.mp hd]; exact Ne.symm hk

/-- Contents with rising indices, brought to the canonical form, read as they did below the capacity, and nothing is
listed beyond it (rule R60). -/
theorem Memory.read_normalise {w : Nat} (cap : Nat) (cells : Memory w) (h : cells.Pairwise (fun c d => c.1 < d.1))
    (k : Nat) : (Memory.normalise cap cells).read k = if k < cap then cells.read k else unwritten := by
  induction cells using List.reverseRecOn with
  | nil => exact (ite_self _).symm
  | append_singleton cells c ih =>
    obtain ⟨rising, -, last⟩ := List.pairwise_append.mp h
    have behind : ∀ d ∈ cells, d.1 < c.1 := fun d hd => last d hd c (List.mem_singleton_self c)
    have step : Memory.normalise cap (cells ++ [c]) =
        if c.1 < cap then (Memory.normalise cap cells).write c.1 c.2 else Memory.normalise cap cells :=
      List.foldl_append ..
    rw [step, Memory.read_append_singleton _ _ behind]
    by_cases hc : c.1 < cap
    · rw [if_pos hc, Memory.read_write, ih rising]
      by_cases hk : k = c.1
      · rw [if_pos hk, if_pos (hk ▸ hc), if_pos hk]
      · rw [if_neg hk, if_neg hk]
    · rw [if_neg hc, ih rising]
      by_cases hk : k < cap
      · rw [if_pos hk, if_pos hk, if_neg (by omega)]
      · rw [if_neg hk, if_neg hk]

/-- Settles O12: the reset state with the action's contents cut to the capacities. -/
theorem hostResetRestores : Obligations.HostResetRestores := by
  unfold Obligations.HostResetRestores
  intro s contents rest hhost hsym hbin hsrc hpmap
  exact ⟨contents.normalise s.cfg, step_of_host hhost, Memory.read_normalise _ _ hsym.1,
    Memory.read_normalise _ _ hbin.1, Memory.read_normalise _ _ hsrc.1, Memory.read_normalise _ _ hpmap.1⟩

/-- Settles O7: a step with nothing in the host's list. -/
theorem idleBlockUnchanged : Obligations.IdleBlockUnchanged := fun _ => step_of_idle

end Sys2Proof.Machine
end

section
/-! PROOF. The operations on an empty block (spec/70_reset_and_hazards.md rule R331): with SYM_LEN = 0 no scan takes a
turn, with SRC_LEN = 0 there is no side, with DST_CAP = 0 there is no room, and each operation is one equation. -/

namespace Sys2Proof.Machine

/-! ## Nothing written, nothing zeroed -/

theorem Memory.writeN_zero_nil {w : Nat} (m : Memory w) : m.writeN 0 [] = m := by
  have before : m.filter (fun c => decide (c.1 < 0)) = [] := by simp
  have behind : m.filter (fun c => decide (0 + ([] : List (BitVec w)).length ≤ c.1)) = m := by simp
  rw [Memory.writeN, before, behind]
  rfl

theorem Memory.zeroN_zero {w : Nat} (m : Memory w) (a : Nat) : m.zeroN a 0 = m := by
  refine List.filter_eq_self.mpr fun c _ => decide_eq_true ?_
  omega

/-! ## No symbols -/

/-- What pass 2 leaves where no signature is found (rule R238). -/
def State.withoutSignature (s : State) : State := { s.setFlag .sigf false with sigPos := 0 }

theorem State.withoutSignature_sigf (s : State) : s.withoutSignature.flag .sigf = false :=
  (s.flag_setFlag .sigf .sigf false).trans (if_pos rfl)

section NoSymbols

variable {s : State} (h : s.symLen = 0)

include h

theorem State.symLen_toNat_of_zero : s.symLen.toNat = 0 := congrArg BitVec.toNat h

theorem State.symLen_le_of_zero : s.symLen.toNat ≤ s.cfg.symCap :=
  (State.symLen_toNat_of_zero h).trans_le (Nat.zero_le _)

theorem pass1_of_no_symbols : pass1 s = (s, 0) := by
  rw [pass1, State.symLen_toNat_of_zero h]
  rfl

theorem pass2_of_no_symbols : pass2 s = (s.withoutSignature, 0) :=
  pass2_of_none fun p hp => by
    have := hp.inside
    rw [State.symLen_toNat_of_zero h] at this
    omega

theorem pass4_of_no_symbols : pass4 s = (s, 0) := by
  rw [pass4, State.symLen_toNat_of_zero h]
  rfl

theorem State.gapLocate_of_no_symbols (start : Nat) : s.gapLocate start = none := by
  rw [State.gapLocate, State.symLen_toNat_of_zero h, Nat.zero_sub]
  rfl

theorem decodeBlock_of_no_symbols (t : Byte) (n : Nat) : decodeBlock t n s = (s, ⟨.gapNotFound, 0⟩) :=
  decodeBlock_of_no_gap (State.gapLocate_of_no_symbols h _)

theorem exec_quant_of_no_symbols : exec .quant s = .next ((s.setFlag .sigf false).finish .ok 0) := by
  have unwritten_sym : s.setSym (s.mem.sym.writeN 0
      ((s.mem.sym.readN 0 s.symLen.toNat).map fun v => symByte (quantise s.conf v))) = s := by
    rw [State.symLen_toNat_of_zero h, Memory.readN, List.map_nil, Memory.writeN_zero_nil]
    rfl
  refine (if_pos (State.symOk_iff.mpr (State.symLen_le_of_zero h))).trans ?_
  rw [unwritten_sym]

theorem exec_rp1_of_no_symbols : exec .rp1 s = .next (s.finish .ok 0) := by
  refine (if_pos (State.symOk_iff.mpr (State.symLen_le_of_zero h))).trans ?_
  rw [pass1_of_no_symbols h]

theorem exec_rp2_of_no_symbols : exec .rp2 s = .next (s.withoutSignature.finish .ok 0) := by
  rw [exec_rp2 (State.symLen_le_of_zero h), pass2_of_no_symbols h]

theorem exec_rp4_of_no_symbols : exec .rp4 s = .next (s.finish .ok 0) := by
  refine (if_pos (State.symOk_iff.mpr (State.symLen_le_of_zero h))).trans ?_
  rw [pass4_of_no_symbols h]

theorem exec_gapfind_of_no_symbols : exec .gapfind s = .next (s.finish .gapNotFound 0) :=
  exec_gapfind_of_none (State.symLen_le_of_zero h) (State.gapLocate_of_no_symbols h _)

theorem exec_decblk_of_no_symbols {y : Byte} {n : Word} (h1 : 1 ≤ n.toNat) (h2 : n.toNat ≤ 65536)
    (hdst : s.dstCap.toNat ≤ s.cfg.binCap) : exec (.decblk y n) s = .next (s.scratchCrc.finish .gapNotFound 0) :=
  exec_decblk h1 h2 (State.symLen_le_of_zero h) hdst (decodeBlock_of_no_symbols h y _)

theorem exec_decseq_of_no_symbols (hdst : s.dstCap.toNat ≤ s.cfg.binCap) :
    exec .decseq s = .next (decseqResult (s.decseqStart, ⟨.gapNotFound, 0⟩)) := by
  rw [exec_decseq (State.symLen_le_of_zero h) hdst,
    decodeSequence_of_stopped (decodeBlock_of_no_symbols (s := s.decseqStart) h _ _) (.inl rfl)]

end NoSymbols

/-! ## No signature -/

theorem pass3_of_unsigned {s : State} (h : s.flag .sigf = false) : pass3 s = (s.scratchCrc, 0) :=
  if_neg (Bool.eq_false_iff.mp h)

/-- The marking passes of RECON find nothing in an empty capture: no marker, no signature, and CRC used as scratch
(rule R285). -/
theorem markingPasses_of_no_symbols {s : State} (h : s.symLen = 0) :
    (pass4 (pass3 (pass2 (pass1 s).1).1).1).1 = s.withoutSignature.scratchCrc := by
  rw [pass1_of_no_symbols h, pass2_of_no_symbols h, pass3_of_unsigned s.withoutSignature_sigf, pass4_of_no_symbols]
  exact h

theorem exec_rp3_of_no_symbols_unsigned {s : State} (h : s.symLen = 0) (hsig : s.flag .sigf = false) :
    exec .rp3 s = .next (s.scratchCrc.finish .ok 0) := by
  rw [exec_rp3 (State.symLen_le_of_zero h), pass3_of_unsigned hsig]

/-! ## No side, no room -/

theorem State.srcLen_toNat_of_zero {s : State} (h : s.srcLen = 0) : s.srcLen.toNat = 0 := congrArg BitVec.toNat h

theorem exec_frside_of_no_side {s : State} (h : s.srcLen = 0) (hdst : s.dstCap.toNat ≤ s.cfg.binCap) :
    exec .frside s = .next (s.scratchCrc.finish .formatError 0) := by
  have no_side := State.srcLen_toNat_of_zero h
  refine exec_frside_of_error (no_side.trans_le (Nat.zero_le _)) hdst ?_
  rw [no_side]
  exact if_pos (by decide)

theorem exec_frblk_of_no_side {s : State} (h : s.srcLen = 0) (a : BitVec 24) (n : Word) :
    exec (.frblk a n) s = .next s.illegal := by
  have no_side := State.srcLen_toNat_of_zero h
  refine exec_frblk_of_not_allowed fun allowed => ?_
  have pos := allowed.pos
  have payload := allowed.payload
  omega

section NoRoom

variable {s : State} (h : s.dstCap = 0)

include h

theorem State.dstCap_toNat_of_zero : s.dstCap.toNat = 0 := congrArg BitVec.toNat h

theorem State.dstCap_le_of_zero : s.dstCap.toNat ≤ s.cfg.binCap :=
  (State.dstCap_toNat_of_zero h).trans_le (Nat.zero_le _)

/-- Every symbol gives a bit, and there is room for none. -/
theorem exec_dsym_of_no_room (v : Byte) : exec (.dsym v) s = .next (s.finish .capacityExceeded 1) := by
  refine (if_pos (State.dstOk_iff.mpr (State.dstCap_le_of_zero h))).trans (if_pos ?_)
  have bits := demodBits_length_pos (s.flag .prev) (symv v)
  rw [State.dstCap_toNat_of_zero h]
  omega

end NoRoom

/-! ## Pass 5 -/

/-- What rule R331 says of RP5 and RECON on buffers `mem`: the end t with an empty image and one NoSignature record,
SYM and BIN as they were. -/
structure EmptyImage (mem : Buffers) (t : State) : Prop where
  result : t.result = 0
  info : t.info = 0
  sym : t.mem.sym = mem.sym
  bin : t.mem.bin = mem.bin
  outLen : t.outLen = 0
  diagQ : t.diagQ = [⟨10, 0, 0, 0, 0⟩]
  pmap : t.mem.pmap.read 0 = 0

section Pass5

variable {s : State} (hsym : s.symLen = 0) (hdst : s.dstCap = 0) (hcap : 0 < s.cfg.diagCap)

include hsym

theorem State.stopsAt_zero_of_no_symbols : s.StopsAt 0 where
  le := Nat.zero_le _
  room := fun i hi => absurd hi (Nat.not_lt_zero i)
  full := fun hpos => absurd hpos (by rw [State.symLen_toNat_of_zero hsym]; decide)

include hdst hcap

theorem pass5_emptyImage (hsig : s.flag .sigf = false) : EmptyImage s.mem (pass5 s) := by
  have no_symbol : ¬ 0 < s.symLen.toNat := by rw [State.symLen_toNat_of_zero hsym]; decide
  have log : s.rp5Log 0 = [⟨10, 0, 0, 0, 0⟩] := by
    rw [State.rp5Log_of_ended no_symbol, State.walkLog, State.signatureReport, hsig]
    rfl
  rw [(State.stopsAt_zero_of_no_symbols hsym).pass5_frame]
  constructor
  case result => exact congrArg codeByte (if_neg no_symbol)
  case info =>
    show word32 (s.symLen.toNat - 0) = 0
    rw [State.symLen_toNat_of_zero hsym]
    rfl
  case sym => rfl
  case bin =>
    show (s.walkAt 0).1.mem.bin = _
    rw [s.walkAt_bin_zero, State.dstCap_toNat_of_zero hdst, Memory.zeroN_zero]
  case outLen =>
    have out : (s.cursorAfter 0).out = 0 := (s.walkAt_out 0).symm
    show word32 (((s.cursorAfter 0).out + 7) / 8) = 0
    rw [out]
    rfl
  case diagQ =>
    show (s.rp5Log 0).take s.cfg.diagCap = _
    rw [log, take_singleton, if_pos hcap]
  case pmap =>
    show (s.walkAt 0).1.mem.pmap.read 0 = _
    rw [s.walkAt_pmap_zero, Memory.read_zeroN, if_pos (by omega)]
    rfl

theorem exec_rp5_emptyImage (hsig : s.flag .sigf = false) : ∃ t, exec .rp5 s = .next t ∧ EmptyImage s.mem t :=
  ⟨_, exec_rp5 (State.symLen_le_of_zero hsym) (State.dstCap_le_of_zero hdst), pass5_emptyImage hsym hdst hcap hsig⟩

/-- RECON clears SIGF itself. -/
theorem exec_recon_emptyImage : ∃ t, exec .recon s = .next t ∧ EmptyImage s.mem t := by
  refine ⟨_, if_pos ⟨State.symOk_iff.mpr (State.symLen_le_of_zero hsym),
    State.dstOk_iff.mpr (State.dstCap_le_of_zero hdst)⟩, ?_⟩
  rw [markingPasses_of_no_symbols hsym]
  exact pass5_emptyImage (s := s.withoutSignature.scratchCrc) hsym hdst hcap s.withoutSignature_sigf

end Pass5

/-! ## The statement -/

/-- Settles O60: the reset leaves the lengths and SIGF at 0. -/
theorem operationsAfterReset : Obligations.OperationsAfterReset := by
  unfold Obligations.OperationsAfterReset
  intro cfg mem host free hcap s ends
  have hsym : s.symLen = 0 := rfl
  have hsrc : s.srcLen = 0 := rfl
  have hdst : s.dstCap = 0 := rfl
  have unsigned : s.flag .sigf = false := (by decide : (0 : BitVec 8).getLsbD 2 = false)
  have room := State.dstCap_le_of_zero hdst
  obtain ⟨t5, rp5, image5⟩ := exec_rp5_emptyImage hsym hdst hcap unsigned
  obtain ⟨tr, recon, imager⟩ := exec_recon_emptyImage hsym hdst hcap
  refine ⟨⟨_, exec_quant_of_no_symbols hsym, rfl, rfl, rfl, rfl⟩, ⟨_, exec_rp1_of_no_symbols hsym, rfl, rfl, rfl, rfl⟩,
    ⟨_, exec_rp2_of_no_symbols hsym, rfl, rfl, rfl, rfl⟩,
    ⟨_, exec_rp3_of_no_symbols_unsigned hsym unsigned, rfl, rfl, rfl, rfl⟩,
    ⟨_, exec_rp4_of_no_symbols hsym, rfl, rfl, rfl, rfl⟩,
    fun v => ⟨_, exec_dsym_of_no_room hdst v, rfl, rfl, rfl, rfl⟩,
    ⟨_, exec_gapfind_of_no_symbols hsym, rfl, rfl, rfl, rfl⟩,
    fun y n h1 h2 => ⟨_, exec_decblk_of_no_symbols hsym h1 h2 room, rfl, rfl, rfl, rfl⟩,
    ⟨_, exec_decseq_of_no_symbols hsym room, rfl, rfl, rfl, rfl⟩,
    ⟨_, exec_frside_of_no_side hsrc room, rfl, rfl, rfl, rfl⟩,
    fun a n => ⟨_, exec_frblk_of_no_side hsrc a n, rfl, rfl, rfl, rfl⟩,
    ⟨t5, rp5, image5.result, image5.info, image5.sym, image5.bin⟩,
    ⟨tr, recon, imager.result, imager.info, imager.sym, imager.bin⟩, ?_⟩
  rintro i (rfl | rfl) t h
  · obtain rfl : t5 = t := Host.Outcome.next.inj (rp5.symm.trans h)
    exact ⟨image5.outLen, image5.diagQ, image5.pmap⟩
  · obtain rfl : tr = t := Host.Outcome.next.inj (recon.symm.trans h)
    exact ⟨imager.outLen, imager.diagQ, imager.pmap⟩

end Sys2Proof.Machine
end

section
/-! PROOF. The test bench's modulator and the demodulator (spec/92_eei_decisions.md D28): the symbol the modulator
chooses demodulates to exactly the bits it consumed, and leaves the demodulator at the last of them. -/

namespace Sys2Proof.Machine

/-- From the previous bit `prev` the symbols give back the bits, less at most a lone 0 at their end. -/
def GivesBack (prev : Bool) (syms : List Sym) (bits : List Bool) : Prop :=
  ∃ tail : List Bool, demodAll prev syms ++ tail = bits ∧ (tail = [] ∨ tail = [false])

theorem givesBack_nil (prev : Bool) : GivesBack prev [] [] := ⟨[], rfl, .inl rfl⟩

/-- The trailing lone 0, for which there is no symbol. -/
theorem givesBack_lone_zero (prev : Bool) : GivesBack prev [] [false] := ⟨[false], rfl, .inr rfl⟩

theorem GivesBack.cons {prev : Bool} {y : Sym} {syms : List Sym} {bits : List Bool}
    (h : GivesBack (demodPrev prev y) syms bits) : GivesBack prev (y :: syms) (demodBits prev y ++ bits) := by
  obtain ⟨tail, rfl, lone⟩ := h
  exact ⟨tail, List.append_assoc .., lone⟩

theorem mod03_givesBack (prev : Bool) (bits : List Bool) : GivesBack prev (mod03 prev bits) bits := by
  induction prev, bits using mod03.induct with
  | case1 prev => rw [mod03]; exact givesBack_nil prev
  | case2 bits after0 => exact after0.cons (prev := false) (y := .s0)
  | case3 bits after1 => exact after1.cons (prev := false) (y := .s1)
  | case4 bits after1 => exact after1.cons (prev := true) (y := .s0)
  | case5 => exact givesBack_lone_zero true
  | case6 bits after0 => exact after0.cons (prev := true) (y := .s1)
  | case7 bits after1 => exact after1.cons (prev := true) (y := .s2)

/-- Settles O36: by induction along the modulator's rows, each the inverse of a row of the demodulator's table. -/
theorem demodulatorInvertsModulator : Obligations.DemodulatorInvertsModulator := by
  unfold Obligations.DemodulatorInvertsModulator
  exact mod03_givesBack

end Sys2Proof.Machine
end
